-- ==== Sys2Proof/Word.lean ====
section
/-! DEFINITION. The value types of the spec (00_scope.md R10, R11): every quantity is unsigned. -/

namespace Sys2Proof

/-- `Byte`: 8 bits, 0..255 (R11). -/
abbrev Byte := BitVec 8

/-- `Code`: 12 bits, 0..4095 (R11). -/
abbrev Code := BitVec 12

/-- The width of `imm16`, `val16`, `len16` and `STATUS` (R42, R100, R104). -/
abbrev Half := BitVec 16

/-- The width of `NEXT`: 13 bits, because it must hold 4096 (R33). -/
abbrev NextCode := BitVec 13

/-- `Str`: a finite sequence of bytes, possibly empty, first byte first (R11). -/
abbrev Str := List Byte

/-- One whole packet of the command channel or of the response channel (R64). -/
abbrev Packet := List Byte

end Sys2Proof
end

