-- ==== Sys2Proof/Syntax.lean ====
section
/-! DEFINITION. The 25 operations of the command channel (30_encoding.md R107), one constructor for each row
of spec/opcode_table.json. -/

namespace Sys2Proof

/-- A command, its operands pulled out of the packet (R102, R103). -/
inductive Instr where
  /-- `SYS.RESET` (R260). -/
  | sysReset
  /-- `SYS.STATUS` (R261). -/
  | sysStatus
  /-- `SYS.RDNEXT` (R262). -/
  | sysRdnext
  /-- `HT.NEWS n` (R135). -/
  | htNews (n : Half)
  /-- `HT.NEWC n` (R136). -/
  | htNewc (n : Half)
  /-- `HT.INITS` (R137). -/
  | htInits
  /-- `HT.INITC` (R138). -/
  | htInitc
  /-- `HT.PUTS key, value` (R140). -/
  | htPuts (key : Str) (value : Code)
  /-- `HT.PUTC key, value` (R141). -/
  | htPutc (key : Code) (value : Str)
  /-- `HT.GETS key` (R142). -/
  | htGets (key : Str)
  /-- `HT.GETC key` (R143). -/
  | htGetc (key : Code)
  /-- `HT.HASS key` (R144). -/
  | htHass (key : Str)
  /-- `HT.HASC key` (R145). -/
  | htHasc (key : Code)
  /-- `HT.SIZE` (R147). -/
  | htSize
  /-- `PK.PUSH code` (R161). -/
  | pkPush (code : Code)
  /-- `PK.FLUSH` (R163). -/
  | pkFlush
  /-- `UP.GROUP` (R170). -/
  | upGroup
  /-- `UP.ALL` (R171). -/
  | upAll
  /-- `CS.CLEAR` (R181). -/
  | csClear
  /-- `CS.APPEND code` (R182). -/
  | csAppend (code : Code)
  /-- `CS.RESET` (R183). -/
  | csReset
  /-- `CS.NEXT` (R184). -/
  | csNext
  /-- `CS.HASNEXT` (R185). -/
  | csHasnext
  /-- `LZW.COMPRESS` (R200). -/
  | lzwCompress
  /-- `LZW.DECOMPRESS` (R230). -/
  | lzwDecompress
  deriving DecidableEq, Repr

end Sys2Proof
end

