-- ==== Sys2Proof/WellFormed.lean ====
section
/-! DEFINITION. What a command packet can carry of an instruction (30_encoding.md R102, R103). -/

namespace Sys2Proof

/-- The longest string a command packet can carry: `len16` is 16 bits (R100, R103). -/
def maxPayload : Nat := 65535

/-- A bucket count is 1..65535: `n = 0` is refused (R102, D14). A string operand has at most 65535 bytes (R103).
A code operand is 12 bits by its type, so it has no check (D22). -/
def Instr.wellFormed : Instr → Bool
  | .htNews n => n != 0
  | .htNewc n => n != 0
  | .htPuts key _ => key.length ≤ maxPayload
  | .htPutc _ value => value.length ≤ maxPayload
  | .htGets key => key.length ≤ maxPayload
  | .htHass key => key.length ≤ maxPayload
  | .sysReset | .sysStatus | .sysRdnext | .htInits | .htInitc | .htGetc _ | .htHasc _ | .htSize | .pkPush _
  | .pkFlush | .upGroup | .upAll | .csClear | .csAppend _ | .csReset | .csNext | .csHasnext | .lzwCompress
  | .lzwDecompress => true

end Sys2Proof
end

