-- ==== Sys2Proof/Decode.lean ====
section
/-! DEFINITION. Command packets (30_encoding.md R100 to R111): the opcode map, the decoder, the encoder, and the
numbering of spec/opcode_table.json. -/

namespace Sys2Proof

/-- The opcode map's rows by name (R107); every other opcode byte is reserved (R108). -/
inductive Opcode where
  | sysReset | sysStatus | sysRdnext
  | htNews | htNewc | htInits | htInitc | htPuts | htPutc | htGets | htGetc | htHass | htHasc | htSize
  | pkPush | pkFlush | upGroup | upAll
  | csClear | csAppend | csReset | csNext | csHasnext
  | lzwCompress | lzwDecompress
  deriving DecidableEq, Repr

/-- The two command formats (R100). -/
inductive Format where
  /-- 3 bytes: `op`, `imm16`. -/
  | c
  /-- `5 + L` bytes: `op`, `imm16`, `len16 = L`, the string. -/
  | cs
  deriving DecidableEq, Repr

/-- The three operand forms of `imm16` (R102). -/
inductive ImmForm where
  /-- `imm16[11:0]` is a code, `imm16[15:12]` must be 0. -/
  | code
  /-- `imm16` is a bucket count. -/
  | n
  /-- `imm16` must be 0. -/
  | zero
  deriving DecidableEq, Repr

/-- Why a packet is no instruction (R109 (1) to (3)), by name. All but `badOperand` are answered `E_ILLEGAL`,
`badOperand` is answered `E_OPERAND`. -/
inductive CmdError where
  /-- Fewer than 3 bytes. -/
  | tooShort
  /-- An opcode byte the map does not list (R108). -/
  | reservedOpcode (op : Byte)
  /-- A length that does not fit the opcode's format. -/
  | wrongLength (op : Opcode)
  /-- `imm16` breaks the opcode's operand form (R102). -/
  | badOperand (op : Opcode)
  deriving DecidableEq, Repr

/-- The opcode byte of a row (R107). -/
def Opcode.toByte : Opcode → Byte
  | .sysReset => 0x01 | .sysStatus => 0x02 | .sysRdnext => 0x03
  | .htNews => 0x10 | .htNewc => 0x11 | .htInits => 0x12 | .htInitc => 0x13 | .htPuts => 0x14 | .htPutc => 0x15
  | .htGets => 0x16 | .htGetc => 0x17 | .htHass => 0x18 | .htHasc => 0x19 | .htSize => 0x1A
  | .pkPush => 0x20 | .pkFlush => 0x21 | .upGroup => 0x30 | .upAll => 0x31
  | .csClear => 0x40 | .csAppend => 0x41 | .csReset => 0x42 | .csNext => 0x43 | .csHasnext => 0x44
  | .lzwCompress => 0x50 | .lzwDecompress => 0x51

/-- The 25 rows in the table's order (R107). -/
def Opcode.all : List Opcode :=
  [.sysReset, .sysStatus, .sysRdnext, .htNews, .htNewc, .htInits, .htInitc, .htPuts, .htPutc, .htGets, .htGetc,
   .htHass, .htHasc, .htSize, .pkPush, .pkFlush, .upGroup, .upAll, .csClear, .csAppend, .csReset, .csNext,
   .csHasnext, .lzwCompress, .lzwDecompress]

/-- The row an opcode byte selects, none for a reserved byte (R107, R108). -/
def Opcode.ofByte (b : Byte) : Option Opcode :=
  Opcode.all.find? fun o => o.toByte == b

/-- The packet format of a row (R107). -/
def Opcode.format : Opcode → Format
  | .htPuts | .htPutc | .htGets | .htHass => .cs
  | .sysReset | .sysStatus | .sysRdnext | .htNews | .htNewc | .htInits | .htInitc | .htGetc | .htHasc | .htSize
  | .pkPush | .pkFlush | .upGroup | .upAll | .csClear | .csAppend | .csReset | .csNext | .csHasnext
  | .lzwCompress | .lzwDecompress => .c

/-- The `imm16` form of a row (R102, R107). -/
def Opcode.immForm : Opcode → ImmForm
  | .htPuts | .htPutc | .htGetc | .htHasc | .pkPush | .csAppend => .code
  | .htNews | .htNewc => .n
  | .sysReset | .sysStatus | .sysRdnext | .htInits | .htInitc | .htGets | .htHass | .htSize | .pkFlush | .upGroup
  | .upAll | .csClear | .csReset | .csNext | .csHasnext | .lzwCompress | .lzwDecompress => .zero

/-- The spelling of a row in spec/opcode_table.json. -/
def Opcode.mnemonic : Opcode → String
  | .sysReset => "SYS.RESET" | .sysStatus => "SYS.STATUS" | .sysRdnext => "SYS.RDNEXT"
  | .htNews => "HT.NEWS" | .htNewc => "HT.NEWC" | .htInits => "HT.INITS" | .htInitc => "HT.INITC"
  | .htPuts => "HT.PUTS" | .htPutc => "HT.PUTC" | .htGets => "HT.GETS" | .htGetc => "HT.GETC"
  | .htHass => "HT.HASS" | .htHasc => "HT.HASC" | .htSize => "HT.SIZE"
  | .pkPush => "PK.PUSH" | .pkFlush => "PK.FLUSH" | .upGroup => "UP.GROUP" | .upAll => "UP.ALL"
  | .csClear => "CS.CLEAR" | .csAppend => "CS.APPEND" | .csReset => "CS.RESET" | .csNext => "CS.NEXT"
  | .csHasnext => "CS.HASNEXT" | .lzwCompress => "LZW.COMPRESS" | .lzwDecompress => "LZW.DECOMPRESS"

/-- Two bytes of a packet as one big-endian 16-bit field (R70, R100). -/
def half (hi lo : Byte) : Half := hi ++ lo

/-- The more significant byte of a 16-bit field, sent first (R70). -/
def hiByte (h : Half) : Byte := h.extractLsb' 8 8

/-- The less significant byte of a 16-bit field (R70). -/
def loByte (h : Half) : Byte := h.extractLsb' 0 8

/-- `imm16[11:0]`, a code operand (R102). -/
def immCode (imm : Half) : Code := imm.extractLsb' 0 12

/-- `imm16` has the form the row asks for (R102). The form `n` lets every value through here: the test `n = 0` is
the first line of the constructors' own pseudocode (R135, R136), and R110 calls such a header "that row's instruction
with a bad operand". -/
def ImmForm.fits : ImmForm → Half → Bool
  | .code, imm => imm.extractLsb' 12 4 == 0
  | .n, _ => true
  | .zero, imm => imm == 0

/-- The instruction of a row with its operands (R102, R103, R107). -/
def Opcode.build (o : Opcode) (imm : Half) (str : Str) : Instr :=
  match o with
  | .sysReset => .sysReset
  | .sysStatus => .sysStatus
  | .sysRdnext => .sysRdnext
  | .htNews => .htNews imm
  | .htNewc => .htNewc imm
  | .htInits => .htInits
  | .htInitc => .htInitc
  | .htPuts => .htPuts str (immCode imm)
  | .htPutc => .htPutc (immCode imm) str
  | .htGets => .htGets str
  | .htGetc => .htGetc (immCode imm)
  | .htHass => .htHass str
  | .htHasc => .htHasc (immCode imm)
  | .htSize => .htSize
  | .pkPush => .pkPush (immCode imm)
  | .pkFlush => .pkFlush
  | .upGroup => .upGroup
  | .upAll => .upAll
  | .csClear => .csClear
  | .csAppend => .csAppend (immCode imm)
  | .csReset => .csReset
  | .csNext => .csNext
  | .csHasnext => .csHasnext
  | .lzwCompress => .lzwCompress
  | .lzwDecompress => .lzwDecompress

/-- The bytes after the header that a format allows: the string of a format CS packet, none where the length does not
fit (R100, R109 (2), R111). -/
def Format.payload : Format → List Byte → Option Str
  | .c, [] => some []
  | .c, _ :: _ => none
  | .cs, l1 :: l0 :: str => if str.length = (half l1 l0).toNat then some str else none
  | .cs, _ => none

/-- The decoder, in the order of R109 (1) to (3). -/
def decode : Packet → Except CmdError Instr
  | op :: i1 :: i0 :: rest =>
    match Opcode.ofByte op with
    | none => .error (.reservedOpcode op)
    | some o =>
      match o.format.payload rest with
      | none => .error (.wrongLength o)
      | some str =>
        if o.immForm.fits (half i1 i0) then .ok (o.build (half i1 i0) str) else .error (.badOperand o)
  | _ => .error .tooShort

/-- The row an instruction stands for (R107). -/
def Instr.opcode : Instr → Opcode
  | .sysReset => .sysReset
  | .sysStatus => .sysStatus
  | .sysRdnext => .sysRdnext
  | .htNews _ => .htNews
  | .htNewc _ => .htNewc
  | .htInits => .htInits
  | .htInitc => .htInitc
  | .htPuts _ _ => .htPuts
  | .htPutc _ _ => .htPutc
  | .htGets _ => .htGets
  | .htGetc _ => .htGetc
  | .htHass _ => .htHass
  | .htHasc _ => .htHasc
  | .htSize => .htSize
  | .pkPush _ => .pkPush
  | .pkFlush => .pkFlush
  | .upGroup => .upGroup
  | .upAll => .upAll
  | .csClear => .csClear
  | .csAppend _ => .csAppend
  | .csReset => .csReset
  | .csNext => .csNext
  | .csHasnext => .csHasnext
  | .lzwCompress => .lzwCompress
  | .lzwDecompress => .lzwDecompress

/-- The `imm16` field of an instruction: a code zero-extended, a bucket count, or 0 (R102). -/
def Instr.imm : Instr → Half
  | .htNews n | .htNewc n => n
  | .htPuts _ c | .htPutc c _ | .htGetc c | .htHasc c | .pkPush c | .csAppend c => c.setWidth 16
  | .sysReset | .sysStatus | .sysRdnext | .htInits | .htInitc | .htGets _ | .htHass _ | .htSize | .pkFlush
  | .upGroup | .upAll | .csClear | .csReset | .csNext | .csHasnext | .lzwCompress | .lzwDecompress => 0

/-- The string operand of a format CS instruction, the empty string for the others (R103). -/
def Instr.str : Instr → Str
  | .htPuts key _ => key
  | .htPutc _ value => value
  | .htGets key | .htHass key => key
  | .sysReset | .sysStatus | .sysRdnext | .htNews _ | .htNewc _ | .htInits | .htInitc | .htGetc _ | .htHasc _
  | .htSize | .pkPush _ | .pkFlush | .upGroup | .upAll | .csClear | .csAppend _ | .csReset | .csNext
  | .csHasnext | .lzwCompress | .lzwDecompress => []

/-- What follows the header in a packet of each format (R100). -/
def Format.tail : Format → Str → List Byte
  | .c, _ => []
  | .cs, str => hiByte (BitVec.ofNat 16 str.length) :: loByte (BitVec.ofNat 16 str.length) :: str

/-- The encoder: the packet of an instruction (R100, R107). -/
def encode (i : Instr) : Packet :=
  i.opcode.toByte :: hiByte i.imm :: loByte i.imm :: i.opcode.format.tail i.str

/-- The packet whose bits are numbered as spec/opcode_table.json numbers them: bits 23:0 are the header word
`H = (op, imm16)` of R100, and of a format CS packet bits 39:24 are `len16`, 47:40 the string's first byte and so on.
Bits at and above `nbits` are 0. -/
def tablePacket (nbits w : Nat) : Packet :=
  let v := w % 2 ^ nbits
  let op : Byte := BitVec.ofNat 8 (v >>> 16)
  let header : List Byte := [op, BitVec.ofNat 8 (v >>> 8), BitVec.ofNat 8 v]
  match (Opcode.ofByte op).map Opcode.format with
  | some .cs =>
    header ++ [BitVec.ofNat 8 (v >>> 32), BitVec.ofNat 8 (v >>> 24)] ++
      (List.range ((v >>> 24) % 2 ^ 16)).map fun k => BitVec.ofNat 8 (v >>> (40 + 8 * k))
  | some .c | none => header

/-- What the decoder reads from the packet with these bits. -/
def decodeTableWord (nbits w : Nat) : Option Instr :=
  match decode (tablePacket nbits w) with
  | .ok i => some i
  | .error _ => none

end Sys2Proof
end

