-- ==== Sys2Proof/Config.lean ====
section
/-! DEFINITION. The parameters of the hardware (00_scope.md R6) and its one open function. -/

namespace Sys2Proof.Config

/-- The open parameter `hash_str` (R6, R134, D9): total, deterministic, a function of the bytes only.
It has no body: nothing can be proved of its values (log entry 1). -/
opaque hashStr : Str → Int

/-- `N_ENGINE`: the bucket count of a dictionary an engine builds (R6, R23). -/
def nEngine : Nat := 256

/-- `FIRST_FREE`: the value of `NEXT` over a fresh dictionary (R6). -/
def firstFree : NextCode := 256

/-- `CODE_LIMIT`: the value of `NEXT` at which the table is reset (R6, R205, R241). -/
def codeLimit : NextCode := 4096

end Sys2Proof.Config
end

