-- ==== Sys2Proof/Machine/State.lean ====
section
/-! DEFINITION. The state of the core (10_state.md), of its two byte streams and two channels (20_memory.md R60), and
its values after hardware reset (R46). Everything is plain data. -/

namespace Sys2Proof.Machine

/-- A Dictionary Index (R21 to R25): an array of buckets, each a chain of (key, value) entries, head first.
`DI.kind` is the constructor and `DI.N` the number of buckets. -/
inductive Dict where
  /-- `S2C`: string key, code value (the compressor's side). -/
  | s2c (buckets : List (List (Str × Code)))
  /-- `C2S`: code key, string value (the decompressor's side). -/
  | c2s (buckets : List (List (Code × Str)))
  deriving DecidableEq, Repr

/-- `PK.phase` (R30). -/
inductive Phase where
  /-- Awaiting the first code of a pair. -/
  | first
  /-- Holding the first code, awaiting the second. -/
  | second
  deriving DecidableEq, Repr

/-- The Bit Packer: `PK.phase` and the Bit Buffer `PK.buf[0..2]` (R30, R31). -/
structure Packer where
  phase : Phase
  buf0 : Byte
  buf1 : Byte
  buf2 : Byte
  deriving DecidableEq, Repr

/-- The Code Sequence: `CS.items` and `CS.cursor` (R28, R29). -/
structure CodeSeq where
  items : List Code
  cursor : Nat
  deriving DecidableEq, Repr

/-- `FSM`, the control state (R40, R41). Values 10..15 are never written and have no constructor (V5). -/
inductive Fsm where
  | idle
  | awaitingFirstByte
  | accumulating
  | emit
  | drain
  | done
  | unpacking
  | dFirst
  | dLoop
  | failed
  deriving DecidableEq, Repr

/-- The bits of `STATUS` that hold state of their own (R42, R43): `DONE`, `FAIL`, `SKIP` and `ERR`. -/
structure Sticky where
  done : Bool
  fail : Bool
  skip : Bool
  err : BitVec 4
  deriving DecidableEq, Repr

/-- One answer of the input source to `read_byte` (R62). `silent` is a source that never answers this call: the call
may block and the core waits without limit (R62, R318, U13). -/
inductive ReadAnswer where
  | byte (b : Byte)
  | endOfStream
  | silent
  deriving DecidableEq, Repr

/-- One answer of the output sink to `write_byte` (R63). `silent` is a sink that never answers this call. -/
inductive WriteAnswer where
  | ok
  | ioError
  | silent
  deriving DecidableEq, Repr

/-- Which `hash_str` a core has (R6, R134): the open parameter, or the reference function H31 of R134. It is a
parameter: no step changes it (log entry 1). -/
inductive HashFn where
  | given
  | reference
  deriving DecidableEq, Repr

/-- Return codes (R106). -/
inductive RetCode where
  | ok
  | nothing
  | eIllegal
  | eOperand
  | eNoinst
  | eSeqend
  | eIo
  | eInternal
  deriving DecidableEq, Repr

/-- Response packets (R104): format R, and format RS with a string. -/
inductive Response where
  | r (rc : RetCode) (val : Half)
  | rs (rc : RetCode) (val : Half) (str : Str)
  deriving DecidableEq, Repr

/-- The model's history (R221, R253, D27), oldest first: the calls on the two streams in the order made (R80), the
assignments and the table resets of the engines. It is no signal of the hardware and nothing reads it. -/
inductive Event where
  /-- A `read_byte` call and its answer, `none` for `EndOfStream`. -/
  | read (answer : Option Byte)
  /-- A `write_byte` call and whether the byte was accepted. -/
  | write (b : Byte) (accepted : Bool)
  /-- `Assign(code, string)`: an engine's put (R221, R253). -/
  | assign (code : Code) (str : Str)
  /-- `TableReset` (R221, R253). -/
  | tableReset
  deriving DecidableEq, Repr

/-- The state of the core, then of its environment. -/
structure State where
  /-- The Dictionary Index, `none` while `DI.valid = 0` (R21, R46, V11). -/
  di : Option Dict
  /-- The Code Sequence (R28, R29). -/
  cs : CodeSeq
  /-- The Bit Packer (R30, R31). -/
  pk : Packer
  /-- `NEXT`, the next free code (R33). -/
  next : NextCode
  /-- `PREFIX`, the running string of the compressor (R34). -/
  pfx : Str
  /-- `CUR`, the compressor's input byte (R35). -/
  cur : Byte
  /-- `PREV`, the decompressor's previous code (R36). -/
  prev : Code
  /-- `FSM` (R40, R41). -/
  fsm : Fsm
  /-- The stored part of `STATUS` (R42, R43). -/
  sticky : Sticky
  /-- The parameter `hash_str` (R6, R8). -/
  hash : HashFn
  /-- The answers `IN` has still to give, next first; past its end the source answers `EndOfStream` (R62, log entry 2). -/
  inp : List ReadAnswer
  /-- The answers `OUT` has still to give, next first; past its end the sink accepts (R63, log entry 3). -/
  sink : List WriteAnswer
  /-- The bytes `OUT` has accepted, first byte first (R63). -/
  out : List Byte
  /-- The packets waiting on `CMD`, next first (R64). -/
  cmd : List Packet
  /-- The packets sent on `RSP`, oldest first (R64). -/
  rsp : List Response
  /-- The model's history (R221, R253). -/
  hist : List Event
  deriving DecidableEq, Repr

/-- The Bit Buffer clear and awaiting a first code (R31, R46). -/
def Packer.clear : Packer := ⟨.first, 0, 0, 0⟩

/-- The empty Code Sequence, cursor at 0 (R46). -/
def CodeSeq.empty : CodeSeq := ⟨[], 0⟩

/-- No sticky bit set, no error recorded (R46). -/
def Sticky.clear : Sticky := ⟨false, false, false, 0⟩

/-- The machine right after hardware reset (R46, R301). The core's values are the spec's; the environment has queued no
command, no input and no refusal, and has received nothing (log entries 2, 3 and 8). -/
def State.reset : State where
  di := none
  cs := .empty
  pk := .clear
  next := 256
  pfx := []
  cur := 0
  prev := 0
  fsm := .idle
  sticky := .clear
  hash := .given
  inp := []
  sink := []
  out := []
  cmd := []
  rsp := []
  hist := []

/-- Stuck states of the model, each with the state the core holds while it waits. No instruction stops here on every
path. -/
inductive Fault where
  /-- A `read_byte` the source never answers (R62, R318, U13): raised by every read of `UP.GROUP`, `UP.ALL`,
  `LZW.COMPRESS` and `LZW.DECOMPRESS` that meets a `silent` answer. `held` are the bytes of a group already read (R32).
  Safe: the core goes on only if the answer comes. -/
  | readBlocked (held : List Byte) (s : State)
  /-- A `write_byte` the sink never answers (R63, R318, U13): raised by every write of `PK.PUSH`, `PK.FLUSH`,
  `LZW.COMPRESS` and `LZW.DECOMPRESS` that meets a `silent` answer. Safe, as above. -/
  | writeBlocked (b : Byte) (s : State)
  /-- A run or an `UP.ALL` used up its step budget before it ended. Never raised from any state (an obligation says
  so); present because every function is total. Safe. -/
  | runUnended (s : State)
  deriving DecidableEq, Repr

/-- Refusals by the model. The hardware's own refusals (R277) are next states with an error response. -/
inductive Refusal where
  /-- An instruction whose arm has no meaning yet: raised by no arm of this model. Safe. -/
  | notModelled (mnemonic : String)
  deriving DecidableEq, Repr

/-- The outcome of one command or one step. -/
abbrev Result := Host.Outcome State Fault Refusal

end Sys2Proof.Machine
end

