-- ==== Sys2Proof/Machine/Flags.lean ====
section
/-! DEFINITION. The status register (10_state.md R42 to R44): the numbers of `FSM` (R41) and of the return codes
(R106), the word `STATUS` with its views, and the sticky bits' setting and clearing. -/

namespace Sys2Proof.Machine

/-- The 4-bit number of a control state (R41). -/
def Fsm.number : Fsm → BitVec 4
  | .idle => 0
  | .awaitingFirstByte => 1
  | .accumulating => 2
  | .emit => 3
  | .drain => 4
  | .done => 5
  | .unpacking => 6
  | .dFirst => 7
  | .dLoop => 8
  | .failed => 9

/-- The rest states, in which a command is accepted (R41, R101). -/
def Fsm.isRest : Fsm → Bool
  | .idle | .done | .failed => true
  | .awaitingFirstByte | .accumulating | .emit | .drain | .unpacking | .dFirst | .dLoop => false

/-- The byte of a return code (R106). -/
def RetCode.toByte : RetCode → Byte
  | .ok => 0x00
  | .nothing => 0x01
  | .eIllegal => 0x81
  | .eOperand => 0x82
  | .eNoinst => 0x83
  | .eSeqend => 0x84
  | .eIo => 0x85
  | .eInternal => 0x86

/-- `STATUS.ERR` of an error response: the low 4 bits of its return code (R42). -/
def RetCode.errField (rc : RetCode) : BitVec 4 := rc.toByte.extractLsb' 0 4

/-- `STATUS.PKPEND`, bit 3: a code is buffered (R42). -/
def State.pkPend (s : State) : Bool := s.pk.phase == .second

/-- `STATUS.DIVALID`, bit 4, that is `DI.valid` (R21, R42). -/
def State.diValid (s : State) : Bool := s.di.isSome

/-- `STATUS.DIKIND`, bit 5: 1 for `C2S`, 0 for `S2C` and while there is no table (R42). -/
def State.diKind (s : State) : Bool :=
  match s.di with
  | some (.c2s _) => true
  | some (.s2c _) => false
  | none => false

/-- `STATUS.CSMORE`, bit 6: another code remains (R42). -/
def State.csMore (s : State) : Bool := s.cs.cursor < s.cs.items.length

/-- The whole register (R42): `ERR` in 15:12, `FSMV` in 11:8, bit 7 reads 0, then the views and the sticky bits. -/
def State.status (s : State) : Half :=
  s.sticky.err ++ s.fsm.number ++ 0#1 ++ BitVec.ofBool s.csMore ++ BitVec.ofBool s.diKind ++ BitVec.ofBool s.diValid
    ++ BitVec.ofBool s.pkPend ++ BitVec.ofBool s.sticky.skip ++ BitVec.ofBool s.sticky.fail ++ BitVec.ofBool s.sticky.done

/-- Every error response records its code in `STATUS.ERR` (R42). -/
def State.setErr (s : State) (rc : RetCode) : State := { s with sticky := { s.sticky with err := rc.errField } }

/-- `STATUS.FAIL <- 1` (R280). -/
def State.setFail (s : State) : State := { s with sticky := { s.sticky with fail := true } }

/-- `STATUS.SKIP <- 1` (R238, R242). -/
def State.setSkip (s : State) : State := { s with sticky := { s.sticky with skip := true } }

/-- `STATUS.DONE <- 1; FSM <- DONE`, the normal end of a run (R203, R208, R237, R240). -/
def State.setDone (s : State) : State := { s with sticky := { s.sticky with done := true }, fsm := .done }

/-- The sticky bits cleared, at the start of a run (R201, R231). -/
def State.clearSticky (s : State) : State := { s with sticky := .clear }

end Sys2Proof.Machine
end

