-- ==== Sys2Proof/Machine/Operands.lean ====
section
/-! DEFINITION. Operand forms inside the units: the bit layout of a packed group (30_encoding.md R91 to R94), widened
values (00_scope.md R12), and the bucket index of a key (40_dictionary_index.md R132 to R134). -/

namespace Sys2Proof.Machine

/-- `zext_16` of a code (R12, R105). -/
def zextCode (c : Code) : Half := c.setWidth 16

/-- `zext_16(NEXT)` (R262). -/
def zextNext (n : NextCode) : Half := n.setWidth 16

/-- The code an insertion assigns: `NEXT` as a 12-bit code. `NEXT` is at most 4095 there (R33, R206, R246). -/
def nextCode (n : NextCode) : Code := n.setWidth 12

/-- The code of a single: `zext_12` of the byte (R26, R210). -/
def single (b : Byte) : Code := b.setWidth 12

/-- `A[11:4]`, byte 0 of a group (R94). -/
def packB0 (a : Code) : Byte := a.extractLsb' 4 8

/-- `A[3:0]` above a zero nibble: byte 1 while the second code is awaited, and of a tail (R92, R161). -/
def packB1 (a : Code) : Byte := a.extractLsb' 0 4 ++ 0#4

/-- `zext_8(B[11:8])`, the part of byte 1 the second code brings (R161). -/
def packHi (b : Code) : Byte := (b.extractLsb' 8 4).setWidth 8

/-- `B[7:0]`, byte 2 of a group (R94). -/
def packB2 (b : Code) : Byte := b.extractLsb' 0 8

/-- `A = (b0[7:0], b1[7:4])`, the first code of a group (R93). -/
def unpackA (b0 b1 : Byte) : Code := b0 ++ b1.extractLsb' 4 4

/-- `B = (b1[3:0], b2[7:0])`, the second code of a group (R93). -/
def unpackB (b1 b2 : Byte) : Code := b1.extractLsb' 0 4 ++ b2

/-- One byte of the reference hash H31: `(31 * h + b) mod 2^32` (R134). -/
def h31Step (h : Nat) (b : Byte) : Nat := (31 * h + b.toNat) % 2 ^ 32

/-- The reference hash H31 (R134). -/
def h31 (str : Str) : Nat := str.foldl h31Step 0

/-- `hash_str` (R132, R134). -/
def hashStr (h : HashFn) (key : Str) : Int :=
  match h with
  | .given => Config.hashStr key
  | .reference => (h31 key : Int)

/-- `idx(key)` of a string: `hash_str(key) mod N` (R132). The remainder is the Euclidean one (R12). -/
def idxStr (h : HashFn) (n : Nat) (key : Str) : Int := hashStr h key % (n : Int)

/-- `idx(key)` of a code: `key mod N` (R132, R133). -/
def idxCode (n : Nat) (key : Code) : Int := (key.toNat : Int) % (n : Int)

end Sys2Proof.Machine
end

