-- ==== Sys2Proof/Machine/Ops.lean ====
section
/-! DEFINITION. The operations every unit is written with: what a line of pseudocode can do (00_scope.md R12), the two
byte streams (20_memory.md R62, R63), responses (30_encoding.md R104 to R106), taking an exception (60_exceptions.md
R280), the dictionary store (40_dictionary_index.md R132, R139, R140) and the command channel. -/

namespace Sys2Proof.Machine

/-- What can be raised (R271): the two causes whose entry is R280. -/
inductive Cause where
  | outputIoError
  | internalLookupMiss
  deriving DecidableEq, Repr

/-- What a piece of pseudocode does (R12): it ends with a value and a state, it raises a cause with the state its
earlier lines left, or it waits for an answer that never comes. -/
inductive Res (α : Type) where
  | ok (a : α) (s : State)
  | raise (c : Cause) (s : State)
  | stuck (f : Fault)
  deriving DecidableEq, Repr

/-- One piece of pseudocode after another: a raise or a wait abandons the rest (R12). -/
def Res.bind {α β : Type} (r : Res α) (f : α → State → Res β) : Res β :=
  match r with
  | .ok a s => f a s
  | .raise c s => .raise c s
  | .stuck e => .stuck e

/-! ### The two byte streams -/

/-- Append one event to the model's history (D27). -/
def State.log (s : State) (e : Event) : State := { s with hist := s.hist ++ [e] }

/-- `IN.read_byte()` (R12, R62): the next byte, or none for `EndOfStream`. `held` are the bytes of a group already
read, which the core keeps while the call blocks (R32). -/
def readByte (held : List Byte) (s : State) : Res (Option Byte) :=
  match s.inp with
  | [] => .ok none (s.log (.read none))
  | .byte b :: rest => .ok (some b) ({ s with inp := rest }.log (.read (some b)))
  | .endOfStream :: rest => .ok none ({ s with inp := rest }.log (.read none))
  | .silent :: _ => .stuck (.readBlocked held s)

/-- `emit_byte(b)` (R12): `OUT.write_byte(b)`, raising `OutputIoError` when the sink refuses. A refused byte is not
appended (R63, D17). -/
def emitByte (b : Byte) (s : State) : Res Unit :=
  match s.sink with
  | [] => .ok () ({ s with out := s.out ++ [b] }.log (.write b true))
  | .ok :: rest => .ok () ({ s with sink := rest, out := s.out ++ [b] }.log (.write b true))
  | .ioError :: rest => .raise .outputIoError ({ s with sink := rest }.log (.write b false))
  | .silent :: _ => .stuck (.writeBlocked b s)

/-- `emit_str(s)`: the bytes in ascending order (R12, R74). -/
def emitStr : Str → State → Res Unit
  | [], s => .ok () s
  | b :: str, s => (emitByte b s).bind fun _ s => emitStr str s

/-! ### Responses and exceptions -/

/-- `respond(rc, val)`, format R (R12, R104). -/
def respond (rc : RetCode) (val : Half) (s : State) : State := { s with rsp := s.rsp ++ [.r rc val] }

/-- `respond(OK, 0, str)`, format RS: at most 65535 bytes of the string are sent, and `val16` is 1 when it was cut
(R104). -/
def respondStr (str : Str) (s : State) : State :=
  { s with rsp := s.rsp ++ [.rs .ok (if str.length > maxPayload then 1 else 0) (str.take maxPayload)] }

/-- An error response: format R with `val16 = 0`, its code in `STATUS.ERR` (R42, R105, R277). -/
def respondError (rc : RetCode) (s : State) : State := respond rc 0 (s.setErr rc)

/-- The bytes of a response packet (R104). -/
def Response.bytes : Response → Packet
  | .r rc val => [rc.toByte, hiByte val, loByte val]
  | .rs rc val str =>
    [rc.toByte, hiByte val, loByte val, hiByte (BitVec.ofNat 16 str.length), loByte (BitVec.ofNat 16 str.length)] ++ str

/-- Taking an exception (R280): `FAIL` is set for `OutputIoError` only, `ERR` and the response name the cause, `FSM`
becomes `FAILED`; nothing is saved and control goes nowhere. There is no return from an exception (R282). -/
def takeException (c : Cause) (s : State) : State :=
  match c with
  | .outputIoError => respondError .eIo { s.setFail with fsm := .failed }
  | .internalLookupMiss => respondError .eInternal { s with fsm := .failed }

/-- The end of a command: its response on a normal end, the exception entry on a raise, a stuck state on a wait. -/
def Res.answer {α : Type} (r : Res α) (k : α → State → State) : Result :=
  match r with
  | .ok a s => .next (k a s)
  | .raise c s => .next (takeException c s)
  | .stuck f => .fault f

/-! ### The dictionary store -/

/-- `find(chain, key)`: the value of the first entry with this key, head first (R139). -/
def find {κ ν : Type} [DecidableEq κ] : List (κ × ν) → κ → Option ν
  | [], _ => none
  | (k, v) :: rest, key => if k = key then some v else find rest key

/-- One entry appended at the tail of chain `i` (R140); past the last bucket nothing happens. -/
def appendAt {α : Type} : List (List α) → Nat → α → List (List α)
  | [], _, _ => []
  | c :: rest, 0, e => (c ++ [e]) :: rest
  | c :: rest, i + 1, e => c :: appendAt rest i e

/-- `n` empty chains (R135). -/
def emptyTable (α : Type) (n : Nat) : List (List α) := List.replicate n []

/-- The lookup of R142 with the bound check of R148. -/
def lookupAt {κ ν : Type} [DecidableEq κ] (t : List (List (κ × ν))) (i : Int) (key : κ) : Option ν :=
  if i < 0 ∨ i ≥ t.length then none else find (t.getD i.toNat []) key

/-- `put(key, value)` on an `S2C` table (R140). -/
def putS (h : HashFn) (t : List (List (Str × Code))) (key : Str) (value : Code) : List (List (Str × Code)) :=
  appendAt t (idxStr h t.length key).toNat (key, value)

/-- `put(key, value)` on a `C2S` table (R141). -/
def putC (t : List (List (Code × Str))) (key : Code) (value : Str) : List (List (Code × Str)) :=
  appendAt t (idxCode t.length key).toNat (key, value)

/-- `get(key)` on an `S2C` table (R142). -/
def getS (h : HashFn) (t : List (List (Str × Code))) (key : Str) : Option Code :=
  lookupAt t (idxStr h t.length key) key

/-- `get(key)` on a `C2S` table (R143). -/
def getC (t : List (List (Code × Str))) (key : Code) : Option Str :=
  lookupAt t (idxCode t.length key) key

/-- The 256 bytes in ascending order (R26). -/
def allBytes : List Byte := (List.range 256).map (BitVec.ofNat 8)

/-- `init_S2C`: 256 buckets, then `put([i], i)` for `i` ascending (R137). -/
def initS (h : HashFn) : List (List (Str × Code)) :=
  allBytes.foldl (fun t b => putS h t [b] (single b)) (emptyTable _ Config.nEngine)

/-- `init_C2S`: 256 buckets, then `put(i, [i])` for `i` ascending (R138). -/
def initC : List (List (Code × Str)) :=
  allBytes.foldl (fun t b => putC t (single b) [b]) (emptyTable _ Config.nEngine)

/-- `DI.N` of a table (R23, R147). -/
def Dict.size : Dict → Nat
  | .s2c t => t.length
  | .c2s t => t.length

/-- A fresh `S2C` table of the 256 singles in place of whatever was there (R137, R151). -/
def State.initS2C (s : State) : State := { s with di := some (.s2c (initS s.hash)) }

/-- A fresh `C2S` table of the 256 singles in place of whatever was there (R138, R151). -/
def State.initC2S (s : State) : State := { s with di := some (.c2s initC) }

/-- `get` as the compressor uses it, on its `S2C` table. In a run the table is there; elsewhere a miss (log entry 5). -/
def State.getStr (s : State) (key : Str) : Option Code :=
  match s.di with
  | some (.s2c t) => getS s.hash t key
  | some (.c2s _) => none
  | none => none

/-- `get` as the decompressor uses it, on its `C2S` table. In a run the table is there; elsewhere a miss (log entry 5). -/
def State.getCode (s : State) (key : Code) : Option Str :=
  match s.di with
  | some (.c2s t) => getC t key
  | some (.s2c _) => none
  | none => none

/-- `contains` on the compressor's table: `get(key) != none` (R144). -/
def State.hasStr (s : State) (key : Str) : Bool := (s.getStr key).isSome

/-- An insertion of the compressor, recorded as `Assign` (R206, R221). -/
def State.assignStr (s : State) (key : Str) (value : Code) : State :=
  match s.di with
  | some (.s2c t) => { s with di := some (.s2c (putS s.hash t key value)) }.log (.assign value key)
  | some (.c2s _) => s.log (.assign value key)
  | none => s.log (.assign value key)

/-- An insertion of the decompressor, recorded as `Assign` (R240, R253). -/
def State.assignCode (s : State) (key : Code) (value : Str) : State :=
  match s.di with
  | some (.c2s t) => { s with di := some (.c2s (putC t key value)) }.log (.assign key value)
  | some (.s2c _) => s.log (.assign key value)
  | none => s.log (.assign key value)

/-- The check of R131 for an S form: an `S2C` table, else `E_NOINST`. -/
def withS2C (s : State) (f : List (List (Str × Code)) → Result) : Result :=
  match s.di with
  | some (.s2c t) => f t
  | some (.c2s _) => .next (respondError .eNoinst s)
  | none => .next (respondError .eNoinst s)

/-- The check of R131 for a C form: a `C2S` table, else `E_NOINST`. -/
def withC2S (s : State) (f : List (List (Code × Str)) → Result) : Result :=
  match s.di with
  | some (.c2s t) => f t
  | some (.s2c _) => .next (respondError .eNoinst s)
  | none => .next (respondError .eNoinst s)

/-- The response to a lookup of a code: the code, or `NONE` (R105, R142). -/
def respondCode (r : Option Code) (s : State) : State :=
  match r with
  | some v => respond .ok (zextCode v) s
  | none => respond .nothing 0 s

/-- The response to a lookup of a string: the string, or `NONE` (R105, R143). -/
def respondFound (r : Option Str) (s : State) : State :=
  match r with
  | some str => respondStr str s
  | none => respond .nothing 0 s

/-- The response of a test: 1 or 0 (R105). -/
def respondBool (b : Bool) (s : State) : State := respond .ok (if b then 1 else 0) s

/-! ### The command channel -/

/-- The return code of a packet that is no instruction (R106, R109). -/
def cmdErrorCode : CmdError → RetCode
  | .tooShort => .eIllegal
  | .reservedOpcode _ => .eIllegal
  | .wrongLength _ => .eIllegal
  | .badOperand _ => .eOperand

/-- The answer to a packet that is no instruction: nothing changes but `STATUS.ERR` (R108, R109, R277). -/
def refuseCommand (e : CmdError) (s : State) : State := respondError (cmdErrorCode e) s

/-- The next packet of `CMD` and the state with it taken (R64, R101). -/
def takeCommand (s : State) : Option (Packet × State) :=
  match s.cmd with
  | [] => none
  | p :: rest => some (p, { s with cmd := rest })

/-- `s` with this packet the next one on `CMD`, at rest so that it is taken by the very next step (R41, R101). -/
def placeCommand (p : Packet) (s : State) : State :=
  { s with cmd := p :: s.cmd, fsm := if s.fsm.isRest then s.fsm else .idle }

end Sys2Proof.Machine
end

