-- ==== Sys2Proof/Machine/Dictionary.lean ====
section
/-! DEFINITION. Dictionary Index operations (40_dictionary_index.md R131, R135 to R147). -/

namespace Sys2Proof.Machine

/-- `HT.NEWS n` (R135): the previous table, of either kind, is discarded whole. -/
def execHtNews (n : Half) (s : State) : Result :=
  if n = 0 then .next (respondError .eOperand s)
  else .next (respond .ok n { s with di := some (.s2c (emptyTable _ n.toNat)) })

/-- `HT.NEWC n` (R136). -/
def execHtNewc (n : Half) (s : State) : Result :=
  if n = 0 then .next (respondError .eOperand s)
  else .next (respond .ok n { s with di := some (.c2s (emptyTable _ n.toNat)) })

/-- `HT.INITS` (R137). `NEXT` is not written. -/
def execHtInits (s : State) : Result := .next (respond .ok 256 s.initS2C)

/-- `HT.INITC` (R138). `NEXT` is not written. -/
def execHtInitc (s : State) : Result := .next (respond .ok 256 s.initC2S)

/-- `HT.PUTS key, value` (R140): a key already there is neither overwritten nor rejected. -/
def execHtPuts (key : Str) (value : Code) (s : State) : Result :=
  withS2C s fun t => .next (respond .ok 0 { s with di := some (.s2c (putS s.hash t key value)) })

/-- `HT.PUTC key, value` (R141). -/
def execHtPutc (key : Code) (value : Str) (s : State) : Result :=
  withC2S s fun t => .next (respond .ok 0 { s with di := some (.c2s (putC t key value)) })

/-- `HT.GETS key` (R142). -/
def execHtGets (key : Str) (s : State) : Result :=
  withS2C s fun t => .next (respondCode (getS s.hash t key) s)

/-- `HT.GETC key` (R143). -/
def execHtGetc (key : Code) (s : State) : Result :=
  withC2S s fun t => .next (respondFound (getC t key) s)

/-- `HT.HASS key` (R144). -/
def execHtHass (key : Str) (s : State) : Result :=
  withS2C s fun t => .next (respondBool (getS s.hash t key).isSome s)

/-- `HT.HASC key` (R145). -/
def execHtHasc (key : Code) (s : State) : Result :=
  withC2S s fun t => .next (respondBool (getC t key).isSome s)

/-- `HT.SIZE` (R147): the bucket count, for a table of either kind (R131). -/
def execHtSize (s : State) : Result :=
  match s.di with
  | some d => .next (respond .ok (BitVec.ofNat 16 d.size) s)
  | none => .next (respondError .eNoinst s)

end Sys2Proof.Machine
end

