-- ==== Sys2Proof/Machine/BitPacker.lean ====
section
/-! DEFINITION. The Bit Packer (41_bit_packer_unpacker.md R160 to R163). The bodies are shared with the compressor. -/

namespace Sys2Proof.Machine

/-- The first code of a pair buffered: `A[11:4]`, `A[3:0]` above a zero nibble, 0 (R161). -/
def State.bufferFirst (c : Code) (s : State) : State := { s with pk := ⟨.second, packB0 c, packB1 c, 0⟩ }

/-- The second code of a pair completes the triple in the buffer (R161). -/
def State.completePair (c : Code) (s : State) : State :=
  { s with pk := { s.pk with buf1 := s.pk.buf1 ||| packHi c, buf2 := packB2 c } }

/-- The Bit Buffer cleared and `PK.phase <- FIRST` (R31, R161, R163). -/
def State.clearPacker (s : State) : State := { s with pk := .clear }

/-- The body of `PK.PUSH` without its response (R161): the number of bytes written. In phase `FIRST` the code is
buffered; in phase `SECOND` the triple is completed in the buffer, its three bytes are written one after another, and
the buffer is cleared. A refused write leaves the completed triple and the phase (R31, R161). -/
def pkPushBody (c : Code) (s : State) : Res Half :=
  match s.pk.phase with
  | .first => .ok 0 (s.bufferFirst c)
  | .second =>
    let s := s.completePair c
    (emitStr [s.pk.buf0, s.pk.buf1, s.pk.buf2] s).bind fun _ s => .ok 3 s.clearPacker

/-- The body of `PK.FLUSH` without its response (R163): the number of bytes written. `PK.buf[2]` is never written. -/
def pkFlushBody (s : State) : Res Half :=
  match s.pk.phase with
  | .first => .ok 0 s
  | .second => (emitStr [s.pk.buf0, s.pk.buf1] s).bind fun _ s => .ok 2 s.clearPacker

/-- `PK.PUSH code` (R161). -/
def execPkPush (code : Code) (s : State) : Result := (pkPushBody code s).answer fun n s => respond .ok n s

/-- `PK.FLUSH` (R163). -/
def execPkFlush (s : State) : Result := (pkFlushBody s).answer fun n s => respond .ok n s

end Sys2Proof.Machine
end

