-- ==== Sys2Proof/Machine/Compressor.lean ====
section
/-! DEFINITION. The Compressor Engine's start and its steps, one for each control state (43_compressor.md R201 to R208). -/

namespace Sys2Proof.Machine

/-- Start of a run (R201). The Code Sequence and `PREV` stay (R303); a pending code is dropped (D29). -/
def startCompress (s : State) : State :=
  { s.clearSticky.initS2C with next := Config.firstFree, pk := .clear, pfx := [], fsm := .awaitingFirstByte }

/-- State `AWAITING_FIRST_BYTE` (R203). -/
def compressFirst (s : State) : Res Unit :=
  (readByte [] s).bind fun r s =>
  match r with
  | none => .ok () s.setDone
  | some b => .ok () { s with pfx := [b], fsm := .accumulating }

/-- The table-reset check of the compressor (R204, R205): `NEXT = 4096` rebuilds the table. -/
def resetCheckS (s : State) : State :=
  if s.next = Config.codeLimit then { s.initS2C with next := Config.firstFree }.log .tableReset else s

/-- State `ACCUMULATING` (R204). -/
def compressAccumulate (s : State) : Res Unit :=
  (readByte [] (resetCheckS s)).bind fun r s =>
  match r with
  | none => .ok () { s with fsm := .drain }
  | some b =>
    if s.hasStr (s.pfx ++ [b]) then .ok () { s with cur := b, pfx := s.pfx ++ [b], fsm := .accumulating }
    else .ok () { s with cur := b, fsm := .emit }

/-- The code of `PREFIX` pushed to the packer; `InternalLookupMiss` if the table has none (R206, R208, R215). -/
def emitPfx (s : State) : Res Half :=
  match s.getStr s.pfx with
  | none => .raise .internalLookupMiss s
  | some c => pkPushBody c s

/-- State `EMIT` (R206): emit, insert, increment, restart the string. -/
def compressEmit (s : State) : Res Unit :=
  (emitPfx s).bind fun _ s =>
  let s := s.assignStr (s.pfx ++ [s.cur]) (nextCode s.next)
  .ok () { s with next := s.next + 1, pfx := [s.cur], fsm := .accumulating }

/-- State `DRAIN` (R208). -/
def compressDrain (s : State) : Res Unit :=
  (emitPfx s).bind fun _ s =>
  (pkFlushBody s).bind fun _ s =>
  .ok () s.setDone

end Sys2Proof.Machine
end

