-- ==== Sys2Proof/Machine/CodeSequence.lean ====
section
/-! DEFINITION. The Code Sequence (42_code_sequence.md R181 to R185). The bodies are shared with the decompressor. -/

namespace Sys2Proof.Machine

/-- `CS.items <- CS.items ++ codes`; the cursor does not move (R28, R182). -/
def State.appendCodes (s : State) (codes : List Code) : State :=
  { s with cs := { s.cs with items := s.cs.items ++ codes } }

/-- `CS.cursor <- 0` (R183). -/
def State.rewind (s : State) : State := { s with cs := { s.cs with cursor := 0 } }

/-- The element at the cursor and the state with the cursor advanced, none at the end (R184). -/
def csTake (s : State) : Option (Code × State) :=
  if s.cs.cursor ≥ s.cs.items.length then none
  else (s.cs.items[s.cs.cursor]?).map fun v => (v, { s with cs := { s.cs with cursor := s.cs.cursor + 1 } })

/-- `CS.CLEAR` (R181). -/
def execCsClear (s : State) : Result := .next (respond .ok 0 { s with cs := .empty })

/-- `CS.APPEND code` (R182). -/
def execCsAppend (code : Code) (s : State) : Result := .next (respond .ok 0 (s.appendCodes [code]))

/-- `CS.RESET` (R183). -/
def execCsReset (s : State) : Result := .next (respond .ok 0 s.rewind)

/-- `CS.NEXT` (R184): `E_SEQEND` at the end, the cursor not moved. -/
def execCsNext (s : State) : Result :=
  match csTake s with
  | none => .next (respondError .eSeqend s)
  | some (v, s) => .next (respond .ok (zextCode v) s)

/-- `CS.HASNEXT` (R185). -/
def execCsHasnext (s : State) : Result := .next (respondBool s.csMore s)

end Sys2Proof.Machine
end

