-- ==== Sys2Proof/Machine/BitUnpacker.lean ====
section
/-! DEFINITION. The Bit Unpacker (41_bit_packer_unpacker.md R170, R171). The body is shared with the decompressor. -/

namespace Sys2Proof.Machine

/-- How one group read ended (R170). -/
inductive GroupEnd where
  /-- A whole group was read and its two codes appended. -/
  | whole
  /-- `EndOfStream` was met; this many bytes (0, 1 or 2) were read and dropped. -/
  | ended (dropped : Half)
  deriving DecidableEq, Repr

/-- The body of `UP.GROUP` without its response (R170): three reads, then both codes appended, the first one first. -/
def upGroupBody (s : State) : Res GroupEnd :=
  (readByte [] s).bind fun r0 s =>
  match r0 with
  | none => .ok (.ended 0) s
  | some b0 =>
    (readByte [b0] s).bind fun r1 s =>
    match r1 with
    | none => .ok (.ended 1) s
    | some b1 =>
      (readByte [b0, b1] s).bind fun r2 s =>
      match r2 with
      | none => .ok (.ended 2) s
      | some b2 => .ok .whole (s.appendCodes [unpackA b0 b1, unpackB b1 b2])

/-- The loop of `UP.ALL` (R171), with a budget of groups: the number of tail bytes dropped. -/
def upAllLoop : Nat → State → Res Half
  | 0, s => .stuck (.runUnended s)
  | k + 1, s =>
    (upGroupBody s).bind fun r s =>
    match r with
    | .ended t => .ok t s
    | .whole => upAllLoop k s

/-- `UP.GROUP` (R170). -/
def execUpGroup (s : State) : Result :=
  (upGroupBody s).answer fun r s =>
    match r with
    | .whole => respond .ok 2 s
    | .ended t => respond .nothing t s

/-- `UP.ALL` (R171). Every group but the last takes three of the answers `IN` has left, so the budget is enough. -/
def execUpAll (s : State) : Result := (upAllLoop (s.inp.length + 1) s).answer fun t s => respond .ok t s

end Sys2Proof.Machine
end

