-- ==== Sys2Proof/Machine/Decompressor.lean ====
section
/-! DEFINITION. The Decompressor Engine's start and its steps, one for each control state (44_decompressor.md R231 to
R246). -/

namespace Sys2Proof.Machine

/-- Start of a run (R231). The Bit Buffer, `PREFIX` and `CUR` stay (R303). -/
def startDecompress (s : State) : State := { s.clearSticky with cs := .empty, fsm := .unpacking }

/-- State `UNPACKING` (R233). -/
def decompressUnpack (s : State) : Res Unit :=
  (upGroupBody s).bind fun r s =>
  match r with
  | .whole => .ok () { s with fsm := .unpacking }
  | .ended _ => .ok () { s.rewind.initC2S with next := Config.firstFree, fsm := .dFirst }

/-- State `D_FIRST` (R237, R238). -/
def decompressFirst (s : State) : Res Unit :=
  match csTake s with
  | none => .ok () s.setDone
  | some (c, s) =>
    let s := { s with prev := c }
    match s.getCode s.prev with
    | some str => (emitStr str s).bind fun _ s => .ok () { s with fsm := .dLoop }
    | none => .ok () { s.setSkip with fsm := .dLoop }

/-- The table-reset check of the decompressor (R240, R241). -/
def resetCheckC (s : State) : State :=
  if s.next = Config.codeLimit then { s.initC2S with next := Config.firstFree }.log .tableReset else s

/-- The first byte of a string as a string: `[s[0]]`, empty for the empty string, which no run stores (R248). -/
def firstOf (str : Str) : Str := str.take 1

/-- One code whose previous string is `ps`: put, write, increment, remember (R243 to R246). The lookup of the current
code precedes the put (R244), and the put precedes the writes (R245). -/
def decompressCode (ps : Str) (cur : Code) (s : State) : Res Unit :=
  match s.getCode cur with
  | none =>
    let str := ps ++ firstOf ps
    (emitStr str (s.assignCode (nextCode s.next) str)).bind fun _ s =>
    .ok () { s with next := s.next + 1, prev := cur, fsm := .dLoop }
  | some str =>
    (emitStr str (s.assignCode (nextCode s.next) (ps ++ firstOf str))).bind fun _ s =>
    .ok () { s with next := s.next + 1, prev := cur, fsm := .dLoop }

/-- State `D_LOOP` (R240): has-next test, table-reset check, fetch, the previous string by lookup (R247), the skip of
R242. -/
def decompressLoop (s : State) : Res Unit :=
  if s.csMore then
    match csTake (resetCheckC s) with
    | none => .ok () s.setDone
    | some (cur, s) =>
      match s.getCode s.prev with
      | none => .ok () { s.setSkip with fsm := .dLoop }
      | some ps => decompressCode ps cur s
  else .ok () s.setDone

end Sys2Proof.Machine
end

