-- ==== Sys2Proof/Machine/Engine.lean ====
section
/-! DEFINITION. The two engines as runs: the rule of the current control state, again and again, until `FSM` is at rest
(43_compressor.md R200, 44_decompressor.md R230), and the two commands that start one. -/

namespace Sys2Proof.Machine

/-- The rule of the current control state (R200, R202, R230, R232). A rest state has none. -/
def engineStep (s : State) : Res Unit :=
  match s.fsm with
  | .awaitingFirstByte => compressFirst s
  | .accumulating => compressAccumulate s
  | .emit => compressEmit s
  | .drain => compressDrain s
  | .unpacking => decompressUnpack s
  | .dFirst => decompressFirst s
  | .dLoop => decompressLoop s
  | .idle => .ok () s
  | .done => .ok () s
  | .failed => .ok () s

/-- Rules of the control states until one is at rest, with a budget of rules. -/
def runEngine : Nat → State → Res Unit
  | 0, s => .stuck (.runUnended s)
  | k + 1, s => if s.fsm.isRest then .ok () s else (engineStep s).bind fun _ s => runEngine k s

/-- A budget no run uses up: the compressor takes at most two rules for each answer of `IN` and four more, the
decompressor one for each three answers, one for each code and four more (R318). -/
def runBudget (s : State) : Nat := 2 * s.inp.length + s.cs.items.length + 8

/-- A compressor run from its current control state to its response (R200). -/
def runCompressor (s : State) : Result := (runEngine (runBudget s) s).answer fun _ s => respond .ok 0 s

/-- A decompressor run from its current control state to its response: `val16` is `STATUS.SKIP` (R105, R230). -/
def runDecompressor (s : State) : Result :=
  (runEngine (runBudget s) s).answer fun _ s => respond .ok (if s.sticky.skip then 1 else 0) s

/-- `LZW.COMPRESS` (R200). -/
def execLzwCompress (s : State) : Result := runCompressor (startCompress s)

/-- `LZW.DECOMPRESS` (R230). -/
def execLzwDecompress (s : State) : Result := runDecompressor (startDecompress s)

end Sys2Proof.Machine
end

