-- ==== Sys2Proof/Machine/System.lean ====
section
/-! DEFINITION. System operations (45_system.md R260 to R262). -/

namespace Sys2Proof.Machine

/-- Hardware reset of the core: every piece of state of R46 at its value. The environment and the model's history are
not the core's state (R48) and stay: no access to `IN` or `OUT` is made (R260). -/
def hardwareReset (s : State) : State :=
  { s with
    di := State.reset.di, cs := State.reset.cs, pk := State.reset.pk, next := State.reset.next,
    pfx := State.reset.pfx, cur := State.reset.cur, prev := State.reset.prev, fsm := State.reset.fsm,
    sticky := State.reset.sticky }

/-- `SYS.RESET` (R260). -/
def execSysReset (s : State) : Result := .next (respond .ok 0 (hardwareReset s))

/-- `SYS.STATUS`: reading clears nothing (R261). -/
def execSysStatus (s : State) : Result := .next (respond .ok s.status s)

/-- `SYS.RDNEXT` (R262). -/
def execSysRdnext (s : State) : Result := .next (respond .ok (zextNext s.next) s)

end Sys2Proof.Machine
end

