-- ==== Sys2Proof/Machine/Dispatch.lean ====
section
/-! DEFINITION. One arm for each operation of the opcode map (30_encoding.md R107). -/

namespace Sys2Proof.Machine

def exec (i : Instr) (s : State) : Host.Outcome State Fault Refusal :=
  match i with
  | .sysReset => Sys2Proof.Machine.execSysReset s
  | .sysStatus => Sys2Proof.Machine.execSysStatus s
  | .sysRdnext => Sys2Proof.Machine.execSysRdnext s
  | .htNews n => Sys2Proof.Machine.execHtNews n s
  | .htNewc n => Sys2Proof.Machine.execHtNewc n s
  | .htInits => Sys2Proof.Machine.execHtInits s
  | .htInitc => Sys2Proof.Machine.execHtInitc s
  | .htPuts key value => Sys2Proof.Machine.execHtPuts key value s
  | .htPutc key value => Sys2Proof.Machine.execHtPutc key value s
  | .htGets key => Sys2Proof.Machine.execHtGets key s
  | .htGetc key => Sys2Proof.Machine.execHtGetc key s
  | .htHass key => Sys2Proof.Machine.execHtHass key s
  | .htHasc key => Sys2Proof.Machine.execHtHasc key s
  | .htSize => Sys2Proof.Machine.execHtSize s
  | .pkPush code => Sys2Proof.Machine.execPkPush code s
  | .pkFlush => Sys2Proof.Machine.execPkFlush s
  | .upGroup => Sys2Proof.Machine.execUpGroup s
  | .upAll => Sys2Proof.Machine.execUpAll s
  | .csClear => Sys2Proof.Machine.execCsClear s
  | .csAppend code => Sys2Proof.Machine.execCsAppend code s
  | .csReset => Sys2Proof.Machine.execCsReset s
  | .csNext => Sys2Proof.Machine.execCsNext s
  | .csHasnext => Sys2Proof.Machine.execCsHasnext s
  | .lzwCompress => Sys2Proof.Machine.execLzwCompress s
  | .lzwDecompress => Sys2Proof.Machine.execLzwDecompress s

end Sys2Proof.Machine
end

