-- ==== Sys2Proof/Machine/Step.lean ====
section
/-! DEFINITION. One step of the machine: `FSM` says what comes next (10_state.md R40, R41). -/

namespace Sys2Proof.Machine

/-- At rest the core takes one packet of `CMD`, decodes it and executes it to its response, or answers the error of
its decoding (R101, R109); with no packet it waits and nothing changes (R302). In a run state it goes on with the run
from there: such a state is left behind only by a call that blocks (R41, R318). -/
def step (s : State) : Host.Outcome State Fault Refusal :=
  match s.fsm with
  | .awaitingFirstByte | .accumulating | .emit | .drain => runCompressor s
  | .unpacking | .dFirst | .dLoop => runDecompressor s
  | .idle | .done | .failed =>
    match takeCommand s with
    | none => .next s
    | some (p, s) =>
      match decode p with
      | .error e => .next (refuseCommand e s)
      | .ok i => exec i s

/-- `s` with the packet that has these bits (numbered as spec/opcode_table.json numbers them) next on `CMD`, where
`step` takes its next command. A state in the middle of a run is put at rest first, so that the command is taken. -/
def State.withFetchWord (s : State) (nbits w : Nat) : State := placeCommand (tablePacket nbits w) s

end Sys2Proof.Machine
end

