-- ==== Sys2Proof/Machine/Assembler.lean ====
section
/-! DEFINITION. The textual form of a command (30_encoding.md R112) and the pseudo-instructions (R113). The core never
sees text: this is what the spec's programs are written in. -/

namespace Sys2Proof.Machine

/-- A token of a line: a mnemonic, number or kind name, a comma, or a string already turned into bytes. -/
inductive Token where
  | word (w : List Char)
  | comma
  | str (s : Str)
  deriving DecidableEq, Repr

/-- A hexadecimal digit. -/
def hexDigit (c : Char) : Option Nat :=
  if '0' ≤ c ∧ c ≤ '9' then some (c.toNat - '0'.toNat)
  else if 'a' ≤ c ∧ c ≤ 'f' then some (c.toNat - 'a'.toNat + 10)
  else if 'A' ≤ c ∧ c ≤ 'F' then some (c.toNat - 'A'.toNat + 10)
  else none

/-- Two hexadecimal digits as a byte. -/
def hexByte (hi lo : Char) : Option Byte :=
  match hexDigit hi, hexDigit lo with
  | some h, some l => some (BitVec.ofNat 8 (16 * h + l))
  | some _, none => none
  | none, _ => none

/-- The bytes of a double-quoted string after its opening quote, and what follows the closing one (R112). The spec gives
`\xHH` and does not say what any other backslash in a string is. DESIGN CHOICE, safe (log entry 15): it is no byte, and the
line is no command. -/
def lexQuoted : List Char → Option (Str × List Char)
  | [] => none
  | '"' :: rest => some ([], rest)
  | '\\' :: 'x' :: h :: l :: rest =>
    match hexByte h l, lexQuoted rest with
    | some b, some (s, r) => some (b :: s, r)
    | some _, none => none
    | none, _ => none
  | '\\' :: _ => none
  | c :: rest =>
    if c.toNat < 128 then (lexQuoted rest).map fun r => (BitVec.ofNat 8 c.toNat :: r.1, r.2) else none

/-- The bytes of an `x"..."` string after its opening quote (R112). -/
def lexHex : List Char → Option (Str × List Char)
  | '"' :: rest => some ([], rest)
  | h :: l :: rest =>
    match hexByte h l, lexHex rest with
    | some b, some (s, r) => some (b :: s, r)
    | some _, none => none
    | none, _ => none
  | [_] => none
  | [] => none

/-- A character that ends a word. -/
def endsWord (c : Char) : Bool := c == ' ' || c == '\t' || c == ',' || c == ';' || c == '"'

/-- The tokens of one line; `;` starts a comment (R112). The number bounds the tokens looked for. -/
def lexLine : Nat → List Char → Option (List Token)
  | 0, _ => none
  | _ + 1, [] => some []
  | _ + 1, ';' :: _ => some []
  | k + 1, ' ' :: rest => lexLine k rest
  | k + 1, '\t' :: rest => lexLine k rest
  | k + 1, ',' :: rest => (lexLine k rest).map (.comma :: ·)
  | k + 1, '"' :: rest => (lexQuoted rest).bind fun r => (lexLine k r.2).map (.str r.1 :: ·)
  | k + 1, 'x' :: '"' :: rest => (lexHex rest).bind fun r => (lexLine k r.2).map (.str r.1 :: ·)
  | k + 1, c :: rest =>
    let w := (c :: rest).takeWhile fun d => !endsWord d
    (lexLine k ((c :: rest).drop w.length)).map (.word w :: ·)

/-- Digits in a base, most significant first. -/
def digits (base : Nat) (cs : List Char) : Option Nat :=
  cs.foldl (fun acc c => acc.bind fun n => (hexDigit c).bind fun d => if d < base then some (base * n + d) else none)
    (some 0)

/-- A number is decimal or `0x` hexadecimal (R112). -/
def number : List Char → Option Nat
  | '0' :: 'x' :: c :: cs => digits 16 (c :: cs)
  | c :: cs => digits 10 (c :: cs)
  | [] => none

/-- A number that fits a 12-bit code operand. -/
def codeOperand (w : List Char) : Option Code :=
  (number w).bind fun n => if n < 4096 then some (BitVec.ofNat 12 n) else none

/-- A number that fits a 16-bit bucket count. -/
def countOperand (w : List Char) : Option Half :=
  (number w).bind fun n => if n < 65536 then some (BitVec.ofNat 16 n) else none

/-- A command whose mnemonic takes no operand (R112). -/
def plainCommand : Opcode → Option Instr
  | .htNews | .htNewc | .htPuts | .htPutc | .htGets | .htGetc | .htHass | .htHasc | .pkPush | .csAppend => none
  | o => some (o.build 0 [])

/-- A core mnemonic with its operands, in the operand order of R112. -/
def assembleCore (o : Opcode) (operands : List Token) : Option Instr :=
  match o, operands with
  | .htNews, [.word n] => (countOperand n).map .htNews
  | .htNewc, [.word n] => (countOperand n).map .htNewc
  | .htPuts, [.str k, .comma, .word v] => (codeOperand v).map (.htPuts k)
  | .htPutc, [.word k, .comma, .str v] => (codeOperand k).map (.htPutc · v)
  | .htGets, [.str k] => some (.htGets k)
  | .htGetc, [.word k] => (codeOperand k).map .htGetc
  | .htHass, [.str k] => some (.htHass k)
  | .htHasc, [.word k] => (codeOperand k).map .htHasc
  | .pkPush, [.word c] => (codeOperand c).map .pkPush
  | .csAppend, [.word c] => (codeOperand c).map .csAppend
  | o, [] => plainCommand o
  | _, _ => none

/-- The pseudo-instructions (R113). -/
inductive Pseudo where
  | put | get | contains | new | init | pair
  deriving DecidableEq, Repr

/-- The spelling of a pseudo-instruction (R113). -/
def Pseudo.ofName (w : List Char) : Option Pseudo :=
  if w = "HT.PUT".toList then some .put
  else if w = "HT.GET".toList then some .get
  else if w = "HT.CONTAINS".toList then some .contains
  else if w = "HT.NEW".toList then some .new
  else if w = "HT.INIT".toList then some .init
  else if w = "PK.PAIR".toList then some .pair
  else none

/-- The expansion of a pseudo-instruction: the S form for a string key or the kind `S2C`, the C form for a number or
`C2S` (R113). -/
def assemblePseudo (p : Pseudo) (operands : List Token) : Option (List Instr) :=
  match p, operands with
  | .put, .str k :: rest => (assembleCore .htPuts (.str k :: rest)).map ([·])
  | .put, .word k :: rest => (assembleCore .htPutc (.word k :: rest)).map ([·])
  | .get, [.str k] => (assembleCore .htGets [.str k]).map ([·])
  | .get, [.word k] => (assembleCore .htGetc [.word k]).map ([·])
  | .contains, [.str k] => (assembleCore .htHass [.str k]).map ([·])
  | .contains, [.word k] => (assembleCore .htHasc [.word k]).map ([·])
  | .new, [.word kind, .comma, .word n] =>
    if kind = "S2C".toList then (assembleCore .htNews [.word n]).map ([·])
    else if kind = "C2S".toList then (assembleCore .htNewc [.word n]).map ([·])
    else none
  | .init, [.word kind] =>
    if kind = "S2C".toList then some [.htInits] else if kind = "C2S".toList then some [.htInitc] else none
  | .pair, [.word a, .comma, .word b] =>
    match codeOperand a, codeOperand b with
    | some a, some b => some [.pkPush a, .pkPush b]
    | some _, none => none
    | none, _ => none
  | _, _ => none

/-- One line of text: its commands, none for a line that is not one. An empty line or a comment is no command. -/
def assembleLine (line : String) : Option (List Instr) :=
  match lexLine (line.toList.length + 1) line.toList with
  | none => none
  | some [] => some []
  | some (.word w :: operands) =>
    match Opcode.all.find? fun o => o.mnemonic.toList == w with
    | some o => (assembleCore o operands).map ([·])
    | none => (Pseudo.ofName w).bind fun p => assemblePseudo p operands
  | some (.comma :: _) => none
  | some (.str _ :: _) => none

end Sys2Proof.Machine
end

