-- ==== Sys2Proof/Machine/Functions.lean ====
section
/-! DEFINITION. The functions over whole streams that the spec gives beside its pseudocode: `pack` (R164), `unpack`
(R172), `codes` (R212) and `expand` (R251), the last two with the growth events of R221 and R253. They use an association
list in place of the bucket table; that the machine computes them is what the obligations say. -/

namespace Sys2Proof.Machine

/-- `(a[3:0], b[11:8])`, the middle byte of a group (R94, R164). -/
def packMid (a b : Code) : Byte := a.extractLsb' 0 4 ++ b.extractLsb' 8 4

/-- `pack` (R164). -/
def pack : List Code → List Byte
  | [] => []
  | [a] => [packB0 a, packB1 a]
  | a :: b :: rest => [packB0 a, packMid a b, packB2 b] ++ pack rest

/-- `unpack` (R172): a remainder of one or two bytes is dropped. -/
def unpack : List Byte → List Code
  | b0 :: b1 :: b2 :: rest => [unpackA b0 b1, unpackB b1 b2] ++ unpack rest
  | [] => []
  | [_] => []
  | [_, _] => []

/-- `D0` of R212: the 256 singles, string to code. -/
def singlesS : List (Str × Code) := allBytes.map fun b => ([b], single b)

/-- `D0` of R251: the 256 singles, code to string. -/
def singlesC : List (Code × Str) := allBytes.map fun b => (single b, [b])

/-- The table-reset check over an association list: the table, the next free code, and the event if there is one. -/
def freshIfFull {κ ν : Type} (d0 d : List (κ × ν)) (next : NextCode) : List (κ × ν) × NextCode × List Event :=
  if next = Config.codeLimit then (d0, Config.firstFree, [.tableReset]) else (d, next, [])

/-- `go` of R212: the codes emitted, and the growth events (R221). -/
def codesGo (d : List (Str × Code)) (next : NextCode) (p : Str) : List Byte → List Code × List Event
  | [] =>
    let (d, _, ev) := freshIfFull singlesS d next
    ((find d p).toList, ev)
  | b :: rest =>
    let (d, next, ev) := freshIfFull singlesS d next
    if (find d (p ++ [b])).isSome then
      let (cs, es) := codesGo d next (p ++ [b]) rest
      (cs, ev ++ es)
    else
      let (cs, es) := codesGo (d ++ [(p ++ [b], nextCode next)]) (next + 1) [b] rest
      ((find d p).toList ++ cs, ev ++ .assign (nextCode next) (p ++ [b]) :: es)

/-- `codes(S)` with the events of the compressor (R212, R221). -/
def codesRun : List Byte → List Code × List Event
  | [] => ([], [])
  | b :: rest => codesGo singlesS Config.firstFree [b] rest

/-- `codes(S)` (R212). -/
def codes (input : List Byte) : List Code := (codesRun input).1

/-- `go` of R251: the bytes written, and the growth events (R253). -/
def expandGo (d : List (Code × Str)) (next : NextCode) (prev : Code) : List Code → List Byte × List Event
  | [] => ([], [])
  | cur :: rest =>
    let (d, next, ev) := freshIfFull singlesC d next
    match find d prev with
    | none =>
      let (out, es) := expandGo d next prev rest
      (out, ev ++ es)
    | some ps =>
      let c := (find d cur).getD (ps ++ ps.take 1)
      let str := ps ++ c.take 1
      let (out, es) := expandGo (d ++ [(nextCode next, str)]) (next + 1) cur rest
      (c ++ out, ev ++ .assign (nextCode next) str :: es)

/-- `expand(cs)` with the events of the decompressor (R251, R253). -/
def expandRun : List Code → List Byte × List Event
  | [] => ([], [])
  | c0 :: rest =>
    let (out, es) := expandGo singlesC Config.firstFree c0 rest
    ((find singlesC c0).getD [] ++ out, es)

/-- `expand(cs)` (R251). -/
def expand (cs : List Code) : List Byte := (expandRun cs).1

/-- A growth event: `Assign` or `TableReset` (R221, R253). -/
def Event.isGrowth : Event → Bool
  | .assign _ _ => true
  | .tableReset => true
  | .read _ => false
  | .write _ _ => false

/-- What `IN` delivers from here: the bytes up to the first `EndOfStream`, and the answers that stay behind it. None
if a call on the way is never answered (R62, R318). -/
def streamOf : List ReadAnswer → Option (List Byte × List ReadAnswer)
  | [] => some ([], [])
  | .endOfStream :: rest => some ([], rest)
  | .byte b :: rest => (streamOf rest).map fun r => (b :: r.1, r.2)
  | .silent :: _ => none

end Sys2Proof.Machine
end

