-- ==== Sys2Proof/Safety.lean ====
section
/-! DEFINITION. What counts as a safe state and a safe environment, in the terms the statements use. -/

namespace Sys2Proof.Safety

open Sys2Proof.Machine

/-- Every entry stands in the bucket its key selects (R65, R132). -/
def placed (h : HashFn) : Dict → Prop
  | .s2c t => ∀ (i : Nat) (e : Str × Code), e ∈ t.getD i [] → idxStr h t.length e.1 = i
  | .c2s t => ∀ (i : Nat) (e : Code × Str), e ∈ t.getD i [] → idxCode t.length e.1 = i

/-- What holds between commands, for every history of commands and every environment. -/
structure Inv (s : State) : Prop where
  /-- No command finds another control state (R41, R101). -/
  rest : s.fsm.isRest = true
  /-- A table has 1..65535 buckets (R20, R23). -/
  buckets : ∀ d, s.di = some d → 1 ≤ d.size ∧ d.size ≤ 65535
  /-- Entries are where their keys say (R65). -/
  chains : ∀ d, s.di = some d → placed s.hash d
  /-- The cursor is a position of the sequence or its end (R29). -/
  cursor : s.cs.cursor ≤ s.cs.items.length
  /-- In phase `FIRST` the Bit Buffer is zero (R31). -/
  buffer : s.pk.phase = .first → s.pk = .clear
  /-- `NEXT` lies in 256..4096 (R33). -/
  next : 256 ≤ s.next.toNat ∧ s.next.toNat ≤ 4096
  /-- `ERR` holds a code of R42. -/
  err : s.sticky.err.toNat ≤ 6
  /-- `DONE` means that the last run ended normally (R41, R42). -/
  done : s.fsm = .done → s.sticky.done = true ∧ s.sticky.fail = false
  /-- `IDLE` means that no run has started and nothing has failed since reset (R41). -/
  idle : s.fsm = .idle → s.sticky.done = false ∧ s.sticky.fail = false ∧ s.sticky.skip = false

/-- A sink that refuses nothing and answers every call. -/
def accepting (sink : List WriteAnswer) : Prop := ∀ a ∈ sink, a = .ok

/-- An environment that answers every call a command can make: `IN` comes to an end, `OUT` accepts or refuses
(R310, R318). -/
def answering (s : State) : Prop := streamOf s.inp ≠ none ∧ ∀ a ∈ s.sink, a ≠ .silent

/-- The reserved opcode bytes, as R108 lists them. -/
def reservedOpcode (op : Byte) : Prop :=
  op.toNat = 0x00 ∨ (0x04 ≤ op.toNat ∧ op.toNat ≤ 0x0F) ∨ (0x1B ≤ op.toNat ∧ op.toNat ≤ 0x1F) ∨
  (0x22 ≤ op.toNat ∧ op.toNat ≤ 0x2F) ∨ (0x32 ≤ op.toNat ∧ op.toNat ≤ 0x3F) ∨
  (0x45 ≤ op.toNat ∧ op.toNat ≤ 0x4F) ∨ 0x52 ≤ op.toNat

/-- The core, at rest with `p` next on `CMD`, answers `p` with this error and changes nothing but `STATUS.ERR`
(R277). -/
def refusedWith (rc : RetCode) (p : Packet) : Prop :=
  ∀ (s : State) (rest : List Packet), s.fsm.isRest = true → s.cmd = p :: rest →
    step s = .next { s with cmd := rest, sticky := { s.sticky with err := rc.errField }, rsp := s.rsp ++ [.r rc 0] }

/-- A format C packet (R100). -/
def packetC (op : Byte) (imm : Half) : Packet := [op, hiByte imm, loByte imm]

/-- A format CS packet (R100). -/
def packetCS (op : Byte) (imm : Half) (str : Str) : Packet :=
  [op, hiByte imm, loByte imm, hiByte (BitVec.ofNat 16 str.length), loByte (BitVec.ofNat 16 str.length)] ++ str

/-- A format C operation with no operand: `imm16 = 0` is its encoding, every other value is `E_OPERAND` (R102). -/
def zeroForm (op : Byte) (i : Instr) : Prop :=
  encode i = packetC op 0 ∧ decode (packetC op 0) = .ok i ∧ ∀ imm : Half, imm ≠ 0 → refusedWith .eOperand (packetC op imm)

/-- A format C operation with a code operand: `imm16` below 4096 is its encoding, every other value is `E_OPERAND`
(R102). -/
def codeForm (op : Byte) (f : Code → Instr) : Prop :=
  ∀ imm : Half,
    (imm.toNat < 4096 → decode (packetC op imm) = .ok (f (imm.setWidth 12)) ∧ encode (f (imm.setWidth 12)) = packetC op imm) ∧
    (4096 ≤ imm.toNat → refusedWith .eOperand (packetC op imm))

/-- A format CS operation with a string and no number (R102, R103). -/
def zeroStrForm (op : Byte) (f : Str → Instr) : Prop :=
  ∀ str : Str, str.length ≤ 65535 →
    encode (f str) = packetCS op 0 str ∧ decode (packetCS op 0 str) = .ok (f str) ∧
    ∀ imm : Half, imm ≠ 0 → refusedWith .eOperand (packetCS op imm str)

/-- A format CS operation with a string and a code (R102, R103). -/
def codeStrForm (op : Byte) (f : Code → Str → Instr) : Prop :=
  ∀ (str : Str) (imm : Half), str.length ≤ 65535 →
    (imm.toNat < 4096 → decode (packetCS op imm str) = .ok (f (imm.setWidth 12) str) ∧
      encode (f (imm.setWidth 12) str) = packetCS op imm str) ∧
    (4096 ≤ imm.toNat → refusedWith .eOperand (packetCS op imm str))

/-- Commands one after another, each after the response of the one before (R79 (b), R101). -/
def execAll : List Instr → State → Result
  | [], s => .next s
  | i :: is, s =>
    match exec i s with
    | .next s => execAll is s
    | .fault f => .fault f
    | .refused r => .refused r

/-- The byte an accepted write adds to `OUT` (R63). -/
def acceptedByte : Event → Option Byte
  | .write b true => some b
  | .write _ false => none
  | .read _ => none
  | .assign _ _ => none
  | .tableReset => none

/-- A `read_byte` call. -/
def isRead : Event → Bool
  | .read _ => true
  | .write _ _ => false
  | .assign _ _ => false
  | .tableReset => false

/-- A `write_byte` call. -/
def isWrite : Event → Bool
  | .write _ _ => true
  | .read _ => false
  | .assign _ _ => false
  | .tableReset => false

/-- An insertion of an engine (R206, R240). -/
def isAssign : Event → Bool
  | .assign _ _ => true
  | .read _ => false
  | .write _ _ => false
  | .tableReset => false

/-- An error response: format R with a return code of 0x80 or more (R105, R106). -/
def isError : Response → Bool
  | .r rc _ => 0x80 ≤ rc.toByte.toNat
  | .rs _ _ _ => false

end Sys2Proof.Safety
end

