-- ==== Sys2Proof/Certificates/Slice0/Obligations.lean ====
section
/-! DEFINITION. The statements for the provers. Each docstring names the rule of spec/ it formalises. -/

open Sys2Proof Sys2Proof.Machine Sys2Proof.Safety

/-! ### Encodings -/

/-- The packets and responses R114 writes out. -/
def Obligations.SpecExamplesDecodeAndEncode : Prop :=
  decode [0x20, 0x00, 0xAB] = .ok (.pkPush 0x0AB) ∧
  decode [0x11, 0x00, 0x04] = .ok (.htNewc 4) ∧
  decode [0x14, 0x01, 0x00, 0x00, 0x02, 0x41, 0x42] = .ok (.htPuts [0x41, 0x42] 256) ∧
  decode [0x17, 0x01, 0x02] = .ok (.htGetc 258) ∧
  decode [0x50, 0x00, 0x00] = .ok .lzwCompress ∧
  (Response.rs .ok 0 [0x41, 0x42, 0x41]).bytes = [0x00, 0x00, 0x00, 0x00, 0x03, 0x41, 0x42, 0x41] ∧
  (Response.r .ok 256).bytes = [0x00, 0x01, 0x00] ∧
  (Response.r .nothing 0).bytes = [0x01, 0x00, 0x00]

/-- Decoding the encoding of any well-formed instruction gives it back, whatever its operands. -/
def Obligations.DecodeOfEncodeIsIdentity : Prop :=
  ∀ i : Instr, i.wellFormed = true → decode (encode i) = .ok i

/-- A packet the decoder accepts is the encoding of what it reads, so no instruction has a second encoding. -/
def Obligations.EncodeOfDecodeIsIdentity : Prop :=
  ∀ (p : Packet) (i : Instr), decode p = .ok i → encode i = p

/-- R108: a reserved opcode is answered `E_ILLEGAL`, whatever the packet's length, and only `STATUS.ERR` changes; every
other opcode byte is listed. -/
def Obligations.ReservedOpcodesAreIllegal : Prop :=
  (∀ (op : Byte) (p : List Byte), reservedOpcode op → refusedWith .eIllegal (op :: p)) ∧
  ∀ op : Byte, ¬ reservedOpcode op → ∃ o : Opcode, o.toByte = op ∧ Opcode.ofByte op = some o

/-- R109 (1), (2): a packet whose length does not fit its opcode's format is answered `E_ILLEGAL`. -/
def Obligations.WrongLengthsAreIllegal : Prop :=
  refusedWith .eIllegal [] ∧
  ∀ (o : Opcode) (p : List Byte),
    (o.format = .c → p.length ≠ 2 → refusedWith .eIllegal (o.toByte :: p)) ∧
    (o.format = .cs → (p.length < 4 ∨ p.length ≠ 4 + (half (p.getD 2 0) (p.getD 3 0)).toNat) →
      refusedWith .eIllegal (o.toByte :: p))

/-- R102: `imm16` outside its operand form is answered `E_OPERAND`, for all 25 operations. -/
def Obligations.BadOperandsAreRefused : Prop :=
  ∀ (o : Opcode) (imm : Half) (str : Str), str.length ≤ 65535 →
    (o.immForm = .code ∧ 4096 ≤ imm.toNat ∨ o.immForm = .n ∧ imm = 0 ∨ o.immForm = .zero ∧ imm ≠ 0) →
    (o.format = .c → refusedWith .eOperand (packetC o.toByte imm)) ∧
    (o.format = .cs → refusedWith .eOperand (packetCS o.toByte imm str))

/-- The textual examples of R112 to R114: text, its instructions, and their packets. -/
def Obligations.AssemblerExamples : Prop :=
  assembleLine "PK.PUSH 0x0AB" = some [.pkPush 0x0AB] ∧
  assembleLine "HT.NEWC 4" = some [.htNewc 4] ∧
  assembleLine "HT.PUTS \"AB\", 256 ; a comment" = some [.htPuts [0x41, 0x42] 256] ∧
  assembleLine "HT.PUT x\"4142\", 256" = some [.htPuts [0x41, 0x42] 256] ∧
  assembleLine "HT.PUT 1, \"\\x61\"" = some [.htPutc 1 [0x61]] ∧
  assembleLine "HT.GET \"A\"" = some [.htGets [0x41]] ∧
  assembleLine "HT.GET 258" = some [.htGetc 258] ∧
  assembleLine "HT.CONTAINS \"\"" = some [.htHass []] ∧
  assembleLine "HT.CONTAINS 7" = some [.htHasc 7] ∧
  assembleLine "HT.NEW S2C, 4" = some [.htNews 4] ∧
  assembleLine "HT.NEW C2S, 4" = some [.htNewc 4] ∧
  assembleLine "HT.INIT S2C" = some [.htInits] ∧
  assembleLine "HT.INIT C2S" = some [.htInitc] ∧
  assembleLine "PK.PAIR 0x0AB, 0x0CD" = some [.pkPush 0x0AB, .pkPush 0x0CD] ∧
  assembleLine "LZW.COMPRESS" = some [.lzwCompress]

/-! ### Steps, reset, whole-machine rules -/

/-- R101, R302: at rest, a packet that decodes is executed with the packet taken; with no packet nothing changes. The third
clause is the model's choice and no rule of the spec: a state with a table word placed runs that word's instruction in the
very next step, a run state put at `IDLE` for it (log entry 8, DESIGN CHOICE), the word's bits numbered as log entry 13
(DEDUCED) says. -/
def Obligations.StepRunsTheDecodedInstruction : Prop :=
  (∀ (s : State) (p : Packet) (rest : List Packet) (i : Instr),
    s.fsm.isRest = true → s.cmd = p :: rest → decode p = .ok i → step s = exec i { s with cmd := rest }) ∧
  (∀ s : State, s.fsm.isRest = true → s.cmd = [] → step s = .next s) ∧
  ∀ (s : State) (nbits w : Nat) (i : Instr), decodeTableWord nbits w = some i →
    step (s.withFetchWord nbits w) = exec i { s with fsm := if s.fsm.isRest then s.fsm else .idle }

/-- R101: one command taken, exactly one response, and the core at rest again. -/
def Obligations.EachCommandGetsOneResponse : Prop :=
  ∀ (s t : State) (p : Packet) (rest : List Packet),
    s.fsm.isRest = true → s.cmd = p :: rest → step s = .next t →
    t.cmd = rest ∧ t.fsm.isRest = true ∧ ∃ r : Response, t.rsp = s.rsp ++ [r]

/-- R46, R302: every value after hardware reset, by power-on and by `SYS.RESET`; after power-on the core waits for a
command. -/
def Obligations.ResetLeavesTheListedValues : Prop :=
  State.reset.diValid = false ∧ State.reset.di = none ∧ State.reset.cs.items = [] ∧ State.reset.cs.cursor = 0 ∧
  State.reset.pk.phase = .first ∧ State.reset.pk.buf0 = 0 ∧ State.reset.pk.buf1 = 0 ∧ State.reset.pk.buf2 = 0 ∧
  State.reset.next = 256 ∧ State.reset.pfx = [] ∧ State.reset.cur = 0 ∧ State.reset.prev = 0 ∧
  State.reset.fsm = .idle ∧ State.reset.fsm.number = 0 ∧ State.reset.status = 0x0000 ∧
  step State.reset = .next State.reset ∧
  ∀ s : State, ∃ t, exec .sysReset s = .next t ∧ t.di = none ∧ t.cs = ⟨[], 0⟩ ∧ t.pk = ⟨.first, 0, 0, 0⟩ ∧
    t.next = 256 ∧ t.pfx = [] ∧ t.cur = 0 ∧ t.prev = 0 ∧ t.fsm = .idle ∧ t.status = 0x0000

/-- The invariant holds at reset. -/
def Obligations.InvariantHoldsAtReset : Prop := Inv State.reset

/-- Every step from every state that meets the invariant leads to a state that meets it. -/
def Obligations.EveryStepKeepsTheInvariant : Prop :=
  ∀ s t : State, Inv s → step s = .next t → Inv t

/-- R262's range: at rest `NEXT` stays in 256..4095, so `SYS.RDNEXT` never answers 4096. -/
def Obligations.NextAtRestStaysBelow4096 : Prop :=
  (256 ≤ State.reset.next.toNat ∧ State.reset.next.toNat ≤ 4095) ∧
  ∀ s t : State, s.fsm.isRest = true → 256 ≤ s.next.toNat ∧ s.next.toNat ≤ 4095 → step s = .next t →
    256 ≤ t.next.toNat ∧ t.next.toNat ≤ 4095

/-- R318: with an environment that answers, every command ends in a next state. -/
def Obligations.EveryCommandCompletes : Prop :=
  ∀ (i : Instr) (s : State), answering s → ∃ t, exec i s = .next t

/-- R318, the other way round: a step from any state stops only at a call that is never answered, and holds there what
the core holds; the model refuses nothing and no run uses up its budget. -/
def Obligations.StepsStopOnlyAtASilentCollaborator : Prop :=
  ∀ s : State,
    (∀ r, step s ≠ .refused r) ∧
    ∀ f, step s = .fault f →
      (∃ (held : List Byte) (u : State), f = .readBlocked held u ∧ u.inp.head? = some .silent ∧ held.length ≤ 2) ∨
      (∃ (b : Byte) (u : State), f = .writeBlocked b u ∧ u.sink.head? = some .silent)

/-- R62, R63, R80: a step consumes the front of `IN`, and extends `OUT` by exactly the bytes of its accepted writes in
the order of the calls. -/
def Obligations.StreamsOnlyMoveForward : Prop :=
  ∀ s t : State, step s = .next t →
    (∃ k, t.inp = s.inp.drop k) ∧ (∃ k, t.sink = s.sink.drop k) ∧
    ∃ es : List Event, t.hist = s.hist ++ es ∧ t.out = s.out ++ es.filterMap acceptedByte

/-- R47: who may write what. -/
def Obligations.WriteOwnership : Prop :=
  ∀ (i : Instr) (s t : State), exec i s = .next t →
    t.hash = s.hash ∧ t.cmd = s.cmd ∧
    (t.di = s.di ∨ i.opcode ∈ [Opcode.htNews, .htNewc, .htInits, .htInitc, .htPuts, .htPutc, .lzwCompress,
      .lzwDecompress, .sysReset]) ∧
    (t.cs.items = s.cs.items ∨ i.opcode ∈ [Opcode.upGroup, .upAll, .csClear, .csAppend, .lzwDecompress, .sysReset]) ∧
    (i.opcode ∈ [Opcode.upGroup, .upAll, .csAppend] → s.cs.items <+: t.cs.items) ∧
    (t.cs.cursor = s.cs.cursor ∨ i.opcode ∈ [Opcode.csClear, .csReset, .csNext, .lzwDecompress, .sysReset]) ∧
    (t.pk = s.pk ∨ i.opcode ∈ [Opcode.pkPush, .pkFlush, .lzwCompress, .sysReset]) ∧
    (t.next = s.next ∨ i.opcode ∈ [Opcode.lzwCompress, .lzwDecompress, .sysReset]) ∧
    (t.pfx = s.pfx ∧ t.cur = s.cur ∨ i.opcode ∈ [Opcode.lzwCompress, .sysReset]) ∧
    (t.prev = s.prev ∨ i.opcode ∈ [Opcode.lzwDecompress, .sysReset]) ∧
    (t.sticky.done = s.sticky.done ∧ t.sticky.skip = s.sticky.skip ∨
      i.opcode ∈ [Opcode.lzwCompress, .lzwDecompress, .sysReset]) ∧
    (t.fsm = s.fsm ∧ t.sticky.fail = s.sticky.fail ∨ i.opcode ∈ [Opcode.lzwCompress, .lzwDecompress, .sysReset] ∨
      i.opcode ∈ [Opcode.pkPush, .pkFlush] ∧ t.rsp = s.rsp ++ [.r .eIo 0]) ∧
    (t.sticky.err = s.sticky.err ∨ i.opcode ∈ [Opcode.lzwCompress, .lzwDecompress, .sysReset] ∨
      ∃ r, t.rsp = s.rsp ++ [r] ∧ isError r = true) ∧
    (t.inp = s.inp ∨ i.opcode ∈ [Opcode.upGroup, .upAll, .lzwCompress, .lzwDecompress]) ∧
    (t.out = s.out ∧ t.sink = s.sink ∨ i.opcode ∈ [Opcode.pkPush, .pkFlush, .lzwCompress, .lzwDecompress])

/-! ### The status register -/

/-- R42, R43: each field of `STATUS`, and the numbers of `FSM` (R41). -/
def Obligations.StatusFieldsFollowTheState : Prop :=
  (∀ s : State,
    s.status.getLsbD 0 = s.sticky.done ∧ s.status.getLsbD 1 = s.sticky.fail ∧ s.status.getLsbD 2 = s.sticky.skip ∧
    (s.status.getLsbD 3 = true ↔ s.pk.phase = .second) ∧ (s.status.getLsbD 4 = true ↔ ∃ d, s.di = some d) ∧
    (s.status.getLsbD 5 = true ↔ ∃ b, s.di = some (.c2s b)) ∧
    (s.status.getLsbD 6 = true ↔ s.cs.cursor < s.cs.items.length) ∧ s.status.getLsbD 7 = false ∧
    s.status.extractLsb' 8 4 = s.fsm.number ∧ s.status.extractLsb' 12 4 = s.sticky.err) ∧
  [Fsm.idle, .awaitingFirstByte, .accumulating, .emit, .drain, .done, .unpacking, .dFirst, .dLoop, .failed].map
    Fsm.number = [0, 1, 2, 3, 4, 5, 6, 7, 8, 9]

/-- R261: `SYS.STATUS` answers the register and changes nothing; at rest its `FSMV` field reads 0, 5 or 9. -/
def Obligations.StatusReadsTheRegister : Prop :=
  zeroForm 0x02 .sysStatus ∧
  (∀ s : State, exec .sysStatus s = .next { s with rsp := s.rsp ++ [.r .ok s.status] }) ∧
  ∀ s : State, s.fsm.isRest = true →
    s.status.extractLsb' 8 4 = 0 ∨ s.status.extractLsb' 8 4 = 5 ∨ s.status.extractLsb' 8 4 = 9

/-- `SYS.RDNEXT` answers `NEXT` zero-extended and changes nothing (R262). -/
def Obligations.RdnextReadsNext : Prop :=
  zeroForm 0x03 .sysRdnext ∧
  ∀ s : State, exec .sysRdnext s = .next { s with rsp := s.rsp ++ [.r .ok (s.next.setWidth 16)] }

/-- R260: `SYS.RESET` leaves every piece of state of R46 at its value and answers `OK`, and touches neither `IN` nor `OUT`.
That the history, the channels and the parameter `hash_str` stay as well is the model's choice (log entry 7, DESIGN
CHOICE). -/
def Obligations.SysResetRestoresReset : Prop :=
  zeroForm 0x01 .sysReset ∧
  ∀ s : State, exec .sysReset s = .next { State.reset with
    hash := s.hash, inp := s.inp, sink := s.sink, out := s.out, cmd := s.cmd, hist := s.hist,
    rsp := s.rsp ++ [.r .ok 0] }

/-! ### Dictionary Index -/

/-- R135, R136: the constructors build `n` empty chains in place of any table; `n = 0` is `E_OPERAND`. That the packet with
`n = 0` decodes to the constructor, whose meaning then refuses it, is the model's choice (log entry 10, DEDUCED; R109 (3)
lists the test before the execution, with the same answer). -/
def Obligations.NewBuildsAnEmptyTable : Prop :=
  (∀ n : Half, decode (packetC 0x10 n) = .ok (.htNews n) ∧ decode (packetC 0x11 n) = .ok (.htNewc n) ∧
    encode (.htNews n) = packetC 0x10 n ∧ encode (.htNewc n) = packetC 0x11 n) ∧
  (∀ (s : State) (n : Half), n ≠ 0 → ∃ b : List (List (Str × Code)),
    exec (.htNews n) s = .next { s with di := some (.s2c b), rsp := s.rsp ++ [.r .ok n] } ∧
    b.length = n.toNat ∧ ∀ i, b.getD i [] = []) ∧
  (∀ (s : State) (n : Half), n ≠ 0 → ∃ b : List (List (Code × Str)),
    exec (.htNewc n) s = .next { s with di := some (.c2s b), rsp := s.rsp ++ [.r .ok n] } ∧
    b.length = n.toNat ∧ ∀ i, b.getD i [] = []) ∧
  ∀ s : State,
    exec (.htNews 0) s = .next { s with sticky := { s.sticky with err := 2 }, rsp := s.rsp ++ [.r .eOperand 0] } ∧
    exec (.htNewc 0) s = .next { s with sticky := { s.sticky with err := 2 }, rsp := s.rsp ++ [.r .eOperand 0] }

/-- R137: `HT.INITS` leaves 256 buckets holding exactly the 256 singles, `NEXT` not written. -/
def Obligations.InitsHoldsTheSingles : Prop :=
  zeroForm 0x12 .htInits ∧
  ∀ s : State, ∃ b : List (List (Str × Code)),
    exec .htInits s = .next { s with di := some (.s2c b), rsp := s.rsp ++ [.r .ok 256] } ∧
    b.length = 256 ∧ b.flatten.length = 256 ∧
    (∀ c : Byte, getS s.hash b [c] = some (c.setWidth 12)) ∧
    ∀ str : Str, str.length ≠ 1 → getS s.hash b str = none

/-- R138: `HT.INITC` leaves bucket `i` holding the one entry `(i, [i])`, `NEXT` not written. -/
def Obligations.InitcHoldsTheSingles : Prop :=
  zeroForm 0x13 .htInitc ∧
  ∀ s : State, ∃ b : List (List (Code × Str)),
    exec .htInitc s = .next { s with di := some (.c2s b), rsp := s.rsp ++ [.r .ok 256] } ∧
    b.length = 256 ∧ (∀ c : Byte, b.getD c.toNat [] = [(c.setWidth 12, [c])]) ∧
    (∀ c : Byte, getC b (c.setWidth 12) = some [c]) ∧
    ∀ c : Code, 256 ≤ c.toNat → getC b c = none

/-- R131: the S forms without an `S2C` table, the C forms without a `C2S` table and `HT.SIZE` without a table are
answered `E_NOINST` and change nothing but `STATUS.ERR`. -/
def Obligations.MissingTableIsRefused : Prop :=
  (∀ s : State, (∀ b, s.di ≠ some (.s2c b)) → ∀ i : Instr,
    ((∃ k v, i = .htPuts k v) ∨ (∃ k, i = .htGets k) ∨ ∃ k, i = .htHass k) →
    exec i s = .next { s with sticky := { s.sticky with err := 3 }, rsp := s.rsp ++ [.r .eNoinst 0] }) ∧
  (∀ s : State, (∀ b, s.di ≠ some (.c2s b)) → ∀ i : Instr,
    ((∃ k v, i = .htPutc k v) ∨ (∃ k, i = .htGetc k) ∨ ∃ k, i = .htHasc k) →
    exec i s = .next { s with sticky := { s.sticky with err := 3 }, rsp := s.rsp ++ [.r .eNoinst 0] }) ∧
  ∀ s : State, s.di = none →
    exec .htSize s = .next { s with sticky := { s.sticky with err := 3 }, rsp := s.rsp ++ [.r .eNoinst 0] }

/-- R132, R148: the bucket index of every key is in range, so the bound check never answers; the index of a code is the
code modulo `N` (R133). -/
def Obligations.BucketIndexIsAlwaysInRange : Prop :=
  ∀ (h : HashFn) (n : Nat), 0 < n →
    (∀ key : Str, 0 ≤ idxStr h n key ∧ idxStr h n key < n ∧ ∃ q : Int, hashStr h key = n * q + idxStr h n key) ∧
    ∀ key : Code, idxCode n key = (key.toNat % n : Nat)

/-- R140: `HT.PUTS` appends its entry at the tail of the key's chain and changes no other chain. -/
def Obligations.PutsAppendsAtTheTail : Prop :=
  codeStrForm 0x14 (fun c str => .htPuts str c) ∧
  ∀ (s : State) (b : List (List (Str × Code))) (key : Str) (value : Code),
    s.di = some (.s2c b) → 0 < b.length →
    ∃ (b' : List (List (Str × Code))) (i : Nat),
      exec (.htPuts key value) s = .next { s with di := some (.s2c b'), rsp := s.rsp ++ [.r .ok 0] } ∧
      idxStr s.hash b.length key = i ∧ i < b.length ∧ b'.length = b.length ∧
      b'.getD i [] = b.getD i [] ++ [(key, value)] ∧ ∀ j, j ≠ i → b'.getD j [] = b.getD j []

/-- R141: `HT.PUTC` appends its entry at the tail of chain `key mod N` and changes no other chain. -/
def Obligations.PutcAppendsAtTheTail : Prop :=
  codeStrForm 0x15 (fun c str => .htPutc c str) ∧
  ∀ (s : State) (b : List (List (Code × Str))) (key : Code) (value : Str),
    s.di = some (.c2s b) → 0 < b.length →
    ∃ b' : List (List (Code × Str)),
      exec (.htPutc key value) s = .next { s with di := some (.c2s b'), rsp := s.rsp ++ [.r .ok 0] } ∧
      b'.length = b.length ∧
      b'.getD (key.toNat % b.length) [] = b.getD (key.toNat % b.length) [] ++ [(key, value)] ∧
      ∀ j, j ≠ key.toNat % b.length → b'.getD j [] = b.getD j []

/-- R142: `HT.GETS` answers the first match in the key's chain, or `NONE`, and changes nothing. -/
def Obligations.GetsAnswersTheFirstMatch : Prop :=
  zeroStrForm 0x16 .htGets ∧
  ∀ (s : State) (b : List (List (Str × Code))) (key : Str),
    s.di = some (.s2c b) → 0 < b.length →
    (∀ v : Code, find (b.getD (idxStr s.hash b.length key).toNat []) key = some v →
      exec (.htGets key) s = .next { s with rsp := s.rsp ++ [.r .ok (v.setWidth 16)] }) ∧
    (find (b.getD (idxStr s.hash b.length key).toNat []) key = none →
      exec (.htGets key) s = .next { s with rsp := s.rsp ++ [.r .nothing 0] })

/-- R143, R104: `HT.GETC` answers the first match in the key's chain as a string, cut at 65535 bytes with `val16 = 1`, or
`NONE`, and changes nothing. -/
def Obligations.GetcAnswersTheFirstMatch : Prop :=
  codeForm 0x17 .htGetc ∧
  ∀ (s : State) (b : List (List (Code × Str))) (key : Code),
    s.di = some (.c2s b) → 0 < b.length →
    (∀ str : Str, find (b.getD (key.toNat % b.length) []) key = some str → str.length ≤ 65535 →
      exec (.htGetc key) s = .next { s with rsp := s.rsp ++ [.rs .ok 0 str] }) ∧
    (∀ str : Str, find (b.getD (key.toNat % b.length) []) key = some str → 65535 < str.length →
      exec (.htGetc key) s = .next { s with rsp := s.rsp ++ [.rs .ok 1 (str.take 65535)] }) ∧
    (find (b.getD (key.toNat % b.length) []) key = none →
      exec (.htGetc key) s = .next { s with rsp := s.rsp ++ [.r .nothing 0] })

/-- R144, R145: `HT.HASS` and `HT.HASC` answer 1 where the key's chain has the key, which is exactly where the get of the
same key answers `OK`, else 0, and change nothing. -/
def Obligations.ContainsAgreesWithGet : Prop :=
  zeroStrForm 0x18 .htHass ∧ codeForm 0x19 .htHasc ∧
  (∀ (s : State) (b : List (List (Str × Code))) (key : Str) (found : Bool), s.di = some (.s2c b) → 0 < b.length →
    found = (find (b.getD (idxStr s.hash b.length key).toNat []) key).isSome →
    exec (.htHass key) s = .next { s with rsp := s.rsp ++ [.r .ok (if found then 1 else 0)] } ∧
    (found = true ↔ ∃ v, exec (.htGets key) s = .next { s with rsp := s.rsp ++ [.r .ok v] })) ∧
  ∀ (s : State) (b : List (List (Code × Str))) (key : Code) (found : Bool), s.di = some (.c2s b) → 0 < b.length →
    found = (find (b.getD (key.toNat % b.length) []) key).isSome →
    exec (.htHasc key) s = .next { s with rsp := s.rsp ++ [.r .ok (if found then 1 else 0)] } ∧
    (found = true ↔ ∃ v str, exec (.htGetc key) s = .next { s with rsp := s.rsp ++ [.rs .ok v str] })

/-- R147: `HT.SIZE` answers the bucket count of a table of either kind, not the entry count, and changes nothing. -/
def Obligations.SizeAnswersTheBucketCount : Prop :=
  zeroForm 0x1A .htSize ∧
  (∀ (s : State) (b : List (List (Str × Code))), s.di = some (.s2c b) →
    exec .htSize s = .next { s with rsp := s.rsp ++ [.r .ok (BitVec.ofNat 16 b.length)] }) ∧
  (∀ (s : State) (b : List (List (Code × Str))), s.di = some (.c2s b) →
    exec .htSize s = .next { s with rsp := s.rsp ++ [.r .ok (BitVec.ofNat 16 b.length)] }) ∧
  ∀ s : State, s.di = none →
    exec .htSize s = .next { s with sticky := { s.sticky with err := 3 }, rsp := s.rsp ++ [.r .eNoinst 0] }

/-- R149, R146: after any sequence of puts into a fresh table, a get answers the earliest put of its key, whatever the
hash and the bucket count: the table refines a first-write-wins association list. -/
def Obligations.TableRefinesAnAssociationList : Prop :=
  (∀ (h : HashFn) (n : Nat) (puts : List (Str × Code)) (key : Str), 0 < n →
    getS h (puts.foldl (fun b e => putS h b e.1 e.2) (emptyTable _ n)) key = find puts key) ∧
  ∀ (n : Nat) (puts : List (Code × Str)) (key : Code), 0 < n →
    getC (puts.foldl (fun b e => putC b e.1 e.2) (emptyTable _ n)) key = find puts key

/-- R149, R9: what a run does does not depend on `hash_str`, but for the places of the entries. Two runs of
`LZW.COMPRESS` that differ in the hash alone leave tables with the same number of buckets and the same answer for every
key, and are equal in everything else; two such runs of `LZW.DECOMPRESS` leave the same table as well. -/
def Obligations.RunsDoNotDependOnTheHash : Prop :=
  (∀ (s t u : State) (h : HashFn),
    exec .lzwCompress s = .next t → exec .lzwCompress { s with hash := h } = .next u →
    { u with hash := t.hash, di := t.di } = t ∧
    ∃ b b' : List (List (Str × Code)), t.di = some (.s2c b) ∧ u.di = some (.s2c b') ∧ b'.length = b.length ∧
      ∀ key : Str, getS u.hash b' key = getS t.hash b key) ∧
  ∀ (s t u : State) (h : HashFn),
    exec .lzwDecompress s = .next t → exec .lzwDecompress { s with hash := h } = .next u →
    u.di = t.di ∧ { u with hash := t.hash } = t

/-! ### Bit Packer and Unpacker -/

/-- R161: `PK.PUSH`, first code of a pair, second code accepted, second code refused at its write number `k`. -/
def Obligations.PushBuffersThenWritesATriple : Prop :=
  codeForm 0x20 .pkPush ∧
  (∀ (s : State) (c : Code), s.pk.phase = .first →
    exec (.pkPush c) s = .next { s with
      pk := ⟨.second, c.extractLsb' 4 8, c.extractLsb' 0 4 ++ 0#4, 0⟩, rsp := s.rsp ++ [.r .ok 0] }) ∧
  (∀ (s : State) (c : Code), s.pk.phase = .second → accepting (s.sink.take 3) →
    ∃ b0 b1 b2 : Byte, b0 = s.pk.buf0 ∧ b1 = s.pk.buf1 ||| (c.extractLsb' 8 4).setWidth 8 ∧ b2 = c.extractLsb' 0 8 ∧
    exec (.pkPush c) s = .next { s with
      pk := ⟨.first, 0, 0, 0⟩, sink := s.sink.drop 3, out := s.out ++ [b0, b1, b2], rsp := s.rsp ++ [.r .ok 3],
      hist := s.hist ++ [.write b0 true, .write b1 true, .write b2 true] }) ∧
  ∀ (s : State) (c : Code) (k : Nat) (rest : List WriteAnswer), s.pk.phase = .second → k < 3 →
    s.sink = List.replicate k .ok ++ .ioError :: rest →
    ∃ b0 b1 b2 : Byte, b0 = s.pk.buf0 ∧ b1 = s.pk.buf1 ||| (c.extractLsb' 8 4).setWidth 8 ∧ b2 = c.extractLsb' 0 8 ∧
    exec (.pkPush c) s = .next { s with
      pk := ⟨.second, b0, b1, b2⟩, sink := rest, out := s.out ++ [b0, b1, b2].take k, fsm := .failed,
      sticky := { s.sticky with fail := true, err := 5 }, rsp := s.rsp ++ [.r .eIo 0],
      hist := s.hist ++ (([b0, b1, b2].take k).map fun b => .write b true) ++ [.write ([b0, b1, b2].getD k 0) false] }

/-- R163: `PK.FLUSH` with nothing pending, with a code pending and accepted, and refused at its write number `k`. -/
def Obligations.FlushWritesTheTail : Prop :=
  zeroForm 0x21 .pkFlush ∧
  (∀ s : State, s.pk.phase = .first → exec .pkFlush s = .next { s with rsp := s.rsp ++ [.r .ok 0] }) ∧
  (∀ s : State, s.pk.phase = .second → accepting (s.sink.take 2) →
    exec .pkFlush s = .next { s with
      pk := ⟨.first, 0, 0, 0⟩, sink := s.sink.drop 2, out := s.out ++ [s.pk.buf0, s.pk.buf1],
      rsp := s.rsp ++ [.r .ok 2], hist := s.hist ++ [.write s.pk.buf0 true, .write s.pk.buf1 true] }) ∧
  ∀ (s : State) (k : Nat) (rest : List WriteAnswer), s.pk.phase = .second → k < 2 →
    s.sink = List.replicate k .ok ++ .ioError :: rest →
    exec .pkFlush s = .next { s with
      sink := rest, out := s.out ++ [s.pk.buf0, s.pk.buf1].take k, fsm := .failed,
      sticky := { s.sticky with fail := true, err := 5 }, rsp := s.rsp ++ [.r .eIo 0],
      hist := s.hist ++ (([s.pk.buf0, s.pk.buf1].take k).map fun b => .write b true) ++
        [.write ([s.pk.buf0, s.pk.buf1].getD k 0) false] }

/-- R164: codes pushed from phase `FIRST` and one flush write `pack` of the codes, whose length is
`3 * floor(n/2) + 2 * (n mod 2)`. -/
def Obligations.PushesAndAFlushPack : Prop :=
  ∀ (s : State) (cs : List Code), s.pk.phase = .first → accepting s.sink →
    (∃ t, execAll (cs.map .pkPush ++ [.pkFlush]) s = .next t ∧ t.out = s.out ++ pack cs ∧ t.pk.phase = .first) ∧
    (pack cs).length = 3 * (cs.length / 2) + 2 * (cs.length % 2)

/-- R172, R94: unpacking what was packed gives the codes, less the last one of an odd number; packing what was unpacked
gives the bytes of whole groups. -/
def Obligations.PackAndUnpackAreInverse : Prop :=
  (∀ cs : List Code, cs.length % 2 = 0 → unpack (pack cs) = cs) ∧
  (∀ cs : List Code, cs.length % 2 = 1 → unpack (pack cs) = cs.dropLast) ∧
  (∀ bs : List Byte, bs.length % 3 = 0 → pack (unpack bs) = bs) ∧
  ∀ bs : List Byte, (unpack bs).length = 2 * (bs.length / 3)

/-- R170: `UP.GROUP` on a whole group, and on a stream that ends after 0, 1 or 2 bytes. -/
def Obligations.GroupAppendsTwoCodesOrNone : Prop :=
  zeroForm 0x30 .upGroup ∧
  (∀ (s : State) (b0 b1 b2 : Byte) (rest : List ReadAnswer), s.inp = [.byte b0, .byte b1, .byte b2] ++ rest →
    exec .upGroup s = .next { s with
      inp := rest, cs := ⟨s.cs.items ++ [b0 ++ b1.extractLsb' 4 4, b1.extractLsb' 0 4 ++ b2], s.cs.cursor⟩,
      rsp := s.rsp ++ [.r .ok 2], hist := s.hist ++ [.read (some b0), .read (some b1), .read (some b2)] }) ∧
  ∀ (s : State) (l : List Byte) (rest : List ReadAnswer), l.length < 3 →
    (s.inp = l.map .byte ++ .endOfStream :: rest ∨ s.inp = l.map .byte ∧ rest = []) →
    exec .upGroup s = .next { s with
      inp := rest, rsp := s.rsp ++ [.r .nothing (BitVec.ofNat 16 l.length)],
      hist := s.hist ++ (l.map fun b => .read (some b)) ++ [.read none] }

/-- R171: `UP.ALL` appends `unpack` of the whole stream, answers the number of tail bytes, and reads up to the first
`EndOfStream` and no further. -/
def Obligations.UpAllUnpacksTheStream : Prop :=
  zeroForm 0x31 .upAll ∧
  ∀ (s : State) (bs : List Byte) (rest : List ReadAnswer), streamOf s.inp = some (bs, rest) →
    exec .upAll s = .next { s with
      inp := rest, cs := ⟨s.cs.items ++ unpack bs, s.cs.cursor⟩,
      rsp := s.rsp ++ [.r .ok (BitVec.ofNat 16 (bs.length % 3))],
      hist := s.hist ++ (bs.map fun b => .read (some b)) ++ [.read none] }

/-! ### Code Sequence -/

/-- R181, R182, R183, R185: the Code Sequence operations that always succeed, each with all it changes. -/
def Obligations.SequenceOperations : Prop :=
  zeroForm 0x40 .csClear ∧ codeForm 0x41 .csAppend ∧ zeroForm 0x42 .csReset ∧ zeroForm 0x44 .csHasnext ∧
  ∀ s : State,
    exec .csClear s = .next { s with cs := ⟨[], 0⟩, rsp := s.rsp ++ [.r .ok 0] } ∧
    (∀ c : Code, exec (.csAppend c) s = .next { s with
      cs := ⟨s.cs.items ++ [c], s.cs.cursor⟩, rsp := s.rsp ++ [.r .ok 0] }) ∧
    exec .csReset s = .next { s with cs := ⟨s.cs.items, 0⟩, rsp := s.rsp ++ [.r .ok 0] } ∧
    (s.cs.cursor < s.cs.items.length → exec .csHasnext s = .next { s with rsp := s.rsp ++ [.r .ok 1] }) ∧
    (s.cs.items.length ≤ s.cs.cursor → exec .csHasnext s = .next { s with rsp := s.rsp ++ [.r .ok 0] })

/-- R184: `CS.NEXT` answers the element at the cursor and advances, or is `E_SEQEND` with the cursor not moved. -/
def Obligations.NextAdvancesOrEnds : Prop :=
  zeroForm 0x43 .csNext ∧
  (∀ (s : State) (v : Code), s.cs.items[s.cs.cursor]? = some v →
    exec .csNext s = .next { s with
      cs := ⟨s.cs.items, s.cs.cursor + 1⟩, rsp := s.rsp ++ [.r .ok (v.setWidth 16)] }) ∧
  ∀ s : State, s.cs.items.length ≤ s.cs.cursor →
    exec .csNext s = .next { s with sticky := { s.sticky with err := 4 }, rsp := s.rsp ++ [.r .eSeqend 0] }

/-- R186: after a rewind, `k` nexts answer the first `k` elements in order, and has-next answers 1 exactly while fewer
than all have been taken. -/
def Obligations.TraversalAnswersTheElementsInOrder : Prop :=
  ∀ (s : State) (k : Nat), k ≤ s.cs.items.length →
    ∃ t, execAll (.csReset :: List.replicate k .csNext) s = .next t ∧
      t.rsp = s.rsp ++ .r .ok 0 :: (s.cs.items.take k).map (fun c => .r .ok (c.setWidth 16)) ∧
      t.cs = ⟨s.cs.items, k⟩ ∧
      exec .csHasnext t = .next { t with rsp := t.rsp ++ [.r .ok (if k < s.cs.items.length then 1 else 0)] }

/-! ### Exceptions -/

/-- R280: the exception entry, for both causes. -/
def Obligations.ExceptionEntry : Prop :=
  ∀ s : State,
    takeException .outputIoError s = { s with
      sticky := { s.sticky with fail := true, err := 5 }, fsm := .failed, rsp := s.rsp ++ [.r .eIo 0] } ∧
    takeException .internalLookupMiss s = { s with
      sticky := { s.sticky with err := 6 }, fsm := .failed, rsp := s.rsp ++ [.r .eInternal 0] }

/-- R272, R281, R282: a command answered `E_IO` has taken the exception at its last call, a write that was refused; a
command that made a refused write is answered `E_IO`; `FAILED` is left only by a new run or by `SYS.RESET`. -/
def Obligations.RefusedWriteEndsTheCommand : Prop :=
  ∀ (i : Instr) (s t : State), exec i s = .next t →
    (t.rsp = s.rsp ++ [.r .eIo 0] →
      t.fsm = .failed ∧ t.sticky.fail = true ∧ t.sticky.err = 5 ∧
      ∃ (es : List Event) (b : Byte), t.hist = s.hist ++ es ++ [.write b false] ∧ ∀ e ∈ es, ∀ c, e ≠ .write c false) ∧
    (∀ (es : List Event) (b : Byte), t.hist = s.hist ++ es → .write b false ∈ es → t.rsp = s.rsp ++ [.r .eIo 0]) ∧
    (s.fsm = .failed → i ≠ .sysReset → i ≠ .lzwCompress → i ≠ .lzwDecompress → t.fsm = .failed)

/-- R206, R245: where a refused write falls inside an iteration. A compressor's insertion, increment and restart have not
happened; a decompressor's put has happened, its increment and its `PREV` update have not. -/
def Obligations.RefusedWriteKeepsPseudocodeOrder : Prop :=
  (∀ s t : State, compressEmit s = .raise .outputIoError t →
    t.di = s.di ∧ t.next = s.next ∧ t.pfx = s.pfx ∧ t.cur = s.cur) ∧
  ∀ (s t : State) (ps : Str) (cur : Code) (b : List (List (Code × Str))), s.di = some (.c2s b) →
    decompressCode ps cur s = .raise .outputIoError t →
    t.next = s.next ∧ t.prev = s.prev ∧
    ∃ str, t.di = some (.c2s (putC b (s.next.setWidth 12) str)) ∧
      (getC b cur = none → str = ps ++ ps.take 1) ∧ (∀ c, getC b cur = some c → str = ps ++ c.take 1)

/-! ### The engines -/

/-- R202, R232: the only transitions between control states, and the states in which a write can be refused. -/
def Obligations.EngineTransitions : Prop :=
  ∀ s t : State,
    (engineStep s = .ok () t → s.fsm.isRest = false → (s.fsm, t.fsm) ∈
      [(Fsm.awaitingFirstByte, Fsm.accumulating), (.awaitingFirstByte, .done), (.accumulating, .accumulating),
       (.accumulating, .emit), (.accumulating, .drain), (.emit, .accumulating), (.drain, .done),
       (.unpacking, .unpacking), (.unpacking, .dFirst), (.dFirst, .done), (.dFirst, .dLoop), (.dLoop, .done),
       (.dLoop, .dLoop)]) ∧
    (engineStep s = .raise .outputIoError t → s.fsm ∈ [Fsm.emit, .drain, .dFirst, .dLoop])

/-- R204, R205, R241, R304: the table reset happens when and only when the check finds `NEXT = 4096`, and touches nothing
but the table, `NEXT` and the history. -/
def Obligations.TableResetTouchesTheTableOnly : Prop :=
  (∀ s : State, s.next = 4096 →
    resetCheckS s = { s with di := some (.s2c (initS s.hash)), next := 256, hist := s.hist ++ [.tableReset] } ∧
    resetCheckC s = { s with di := some (.c2s initC), next := 256, hist := s.hist ++ [.tableReset] } ∧
    ((∃ b, s.di = some (.s2c b)) → (resetCheckS s).status = s.status) ∧
    ((∃ b, s.di = some (.c2s b)) → (resetCheckC s).status = s.status)) ∧
  ∀ s : State, s.next ≠ 4096 → resetCheckS s = s ∧ resetCheckC s = s

/-- R200, R212, R303: on a stream `S` and with no write refused, `LZW.COMPRESS` answers `OK` at `DONE`, writes
`pack (codes S)`, makes the assignments and table resets of the function, reads up to the first `EndOfStream`, and leaves
the Code Sequence and `PREV` alone. -/
def Obligations.CompressWritesThePackedCodes : Prop :=
  zeroForm 0x50 .lzwCompress ∧
  ∀ (s : State) (input : List Byte) (rest : List ReadAnswer),
    streamOf s.inp = some (input, rest) → accepting s.sink →
    ∃ (t : State) (es : List Event), exec .lzwCompress s = .next t ∧
      t.out = s.out ++ pack (codes input) ∧ t.rsp = s.rsp ++ [.r .ok 0] ∧ t.fsm = .done ∧
      t.sticky = ⟨true, false, false, 0⟩ ∧ t.pk = .clear ∧ t.inp = rest ∧ t.cs = s.cs ∧ t.prev = s.prev ∧
      t.hist = s.hist ++ es ∧ es.filter Event.isGrowth = (codesRun input).2

/-- R209, R210: empty and one-byte inputs. -/
def Obligations.CompressOfEmptyAndOfOneByte : Prop :=
  (∀ (s : State) (rest : List ReadAnswer), streamOf s.inp = some ([], rest) →
    exec .lzwCompress s = .next { s with
      di := some (.s2c (initS s.hash)), pk := .clear, next := 256, pfx := [], fsm := .done,
      sticky := ⟨true, false, false, 0⟩, inp := rest, rsp := s.rsp ++ [.r .ok 0], hist := s.hist ++ [.read none] }) ∧
  ∀ (s : State) (x : Byte) (rest : List ReadAnswer), streamOf s.inp = some ([x], rest) → accepting s.sink →
    ∃ (t : State) (b0 b1 : Byte), b0 = (x.extractLsb' 4 4).setWidth 8 ∧ b1 = x.extractLsb' 0 4 ++ 0#4 ∧
      exec .lzwCompress s = .next t ∧ t.fsm = .done ∧ t.rsp = s.rsp ++ [.r .ok 0] ∧ t.out = s.out ++ [b0, b1] ∧
      t.hist = s.hist ++ [.read (some x), .read none, .write b0 true, .write b1 true]

/-- R215: whatever the hash, the environment and the state before, a compressor run never meets `InternalLookupMiss`. -/
def Obligations.CompressNeverMissesItsString : Prop :=
  ∀ s t : State, exec .lzwCompress s = .next t →
    t.rsp = s.rsp ++ [.r .ok 0] ∧ t.fsm = .done ∨ t.rsp = s.rsp ++ [.r .eIo 0] ∧ t.fsm = .failed

/-- R213: a run on a non-empty input emits between one code and one for each byte, makes one insertion fewer than it emits
codes, and its output has `3 * floor(n/2) + 2 * (n mod 2)` bytes. R217: the string of code `256 + k` has at most `k + 2`
bytes. -/
def Obligations.CompressBounds : Prop :=
  ∀ input : List Byte,
    (input ≠ [] → 1 ≤ (codes input).length ∧
      ((codesRun input).2.filter isAssign).length + 1 = (codes input).length) ∧
    (codes input).length ≤ input.length ∧
    (pack (codes input)).length = 3 * ((codes input).length / 2) + 2 * ((codes input).length % 2) ∧
    ∀ (c : Code) (str : Str), .assign c str ∈ (codesRun input).2 → 2 ≤ str.length ∧ str.length + 254 ≤ c.toNat

/-- R230, R251, R303: on a stream whose codes are `cs` and with no write refused, `LZW.DECOMPRESS` answers `OK` with
`STATUS.SKIP` at `DONE`, writes `expand cs`, makes the assignments and table resets of the function, leaves the codes in
the Code Sequence all taken, and leaves the Bit Buffer, `PREFIX` and `CUR` alone. -/
def Obligations.DecompressWritesTheExpandedCodes : Prop :=
  zeroForm 0x51 .lzwDecompress ∧
  ∀ (s : State) (input : List Byte) (rest : List ReadAnswer),
    streamOf s.inp = some (input, rest) → accepting s.sink →
    ∃ (t : State) (es : List Event), exec .lzwDecompress s = .next t ∧
      t.out = s.out ++ expand (unpack input) ∧ t.fsm = .done ∧
      t.rsp = s.rsp ++ [.r .ok (if t.sticky.skip then 1 else 0)] ∧
      t.sticky.done = true ∧ t.sticky.fail = false ∧ t.sticky.err = 0 ∧ t.inp = rest ∧
      t.cs = ⟨unpack input, (unpack input).length⟩ ∧ t.pk = s.pk ∧ t.pfx = s.pfx ∧ t.cur = s.cur ∧
      t.hist = s.hist ++ es ∧ es.filter Event.isGrowth = (expandRun (unpack input)).2

/-- R238: a stream whose first code has no entry gives no output at all and sets `STATUS.SKIP`, whatever the sink.
R242: where the previous code has no entry, the current code is taken from the sequence and nothing else happens but
`STATUS.SKIP`. -/
def Obligations.AbsentCodesAreSkipped : Prop :=
  (∀ (s : State) (input : List Byte) (rest : List ReadAnswer) (c : Code) (cs : List Code),
    streamOf s.inp = some (input, rest) → unpack input = c :: cs → 256 ≤ c.toNat →
    ∃ t, exec .lzwDecompress s = .next t ∧ t.out = s.out ∧ t.rsp = s.rsp ++ [.r .ok 1] ∧ t.sticky.skip = true ∧
      t.prev = c ∧ t.next = 256 ∧ t.fsm = .done) ∧
  ∀ s : State, s.fsm = .dLoop → s.cs.cursor < s.cs.items.length → s.next ≠ 4096 → s.getCode s.prev = none →
    engineStep s = .ok () { s with
      cs := ⟨s.cs.items, s.cs.cursor + 1⟩, sticky := { s.sticky with skip := true } }

/-- R249: after a decompressor run that ended normally the keys of its table are exactly the codes below `NEXT`, and every
string in it is non-empty (R248). -/
def Obligations.DecompressorKeysAreBelowNext : Prop :=
  ∀ s t : State, exec .lzwDecompress s = .next t → t.fsm = .done →
    ∃ b, t.di = some (.c2s b) ∧ (∀ c : Code, (∃ str, getC b c = some str) ↔ c.toNat < t.next.toNat) ∧
      ∀ (c : Code) (str : Str), getC b c = some str → str ≠ [] ∧ str.length ≤ 3841

/-- R85: in a decompressor run every read precedes every write. -/
def Obligations.DecompressReadsBeforeItWrites : Prop :=
  ∀ s t : State, exec .lzwDecompress s = .next t →
    ∃ es : List Event, t.hist = s.hist ++ es ∧
      ∀ pre post, es = pre ++ post → (∃ e ∈ pre, isWrite e = true) → ∀ e ∈ post, isRead e = false

/-- R252: expanding the codes of any input gives the input back. -/
def Obligations.ExpandOfCodesIsTheInput : Prop :=
  ∀ input : List Byte, expand (codes input) = input

/-- R252 through the wire: an even number of codes comes back whole; of an odd number the last string, which is the
compressor's final `PREFIX`, is lost with the tail. -/
def Obligations.RoundTripThroughTheWire : Prop :=
  ∀ (s : State) (input : List Byte) (rest : List ReadAnswer),
    streamOf s.inp = some (input, rest) → accepting s.sink →
    ∃ t, exec .lzwCompress s = .next t ∧
      ((codes input).length % 2 = 0 → expand (unpack (pack (codes input))) = input) ∧
      ((codes input).length % 2 = 1 →
        expand (unpack (pack (codes input))) ++ t.pfx = input ∧ t.pfx ≠ [])

/-- R253: the compressor's assignments and table resets for an input are the decompressor's for its codes, but for a
table reset at the very end of the compressor's. -/
def Obligations.GrowthIsTheSameOnBothSides : Prop :=
  ∀ input : List Byte,
    (codesRun input).2 = (expandRun (codes input)).2 ∨
    (codesRun input).2 = (expandRun (codes input)).2 ++ [.tableReset]

/-- R250: a stream the compressor produced never sets `STATUS.SKIP`. -/
def Obligations.CompressorStreamsAreNeverSkipped : Prop :=
  ∀ (s : State) (input : List Byte) (rest : List ReadAnswer),
    streamOf s.inp = some (pack (codes input), rest) → accepting s.sink →
    ∃ t, exec .lzwDecompress s = .next t ∧ t.sticky.skip = false ∧ t.rsp = s.rsp ++ [.r .ok 0]
end

