-- ==== Sys2Proof/Laws/Decode.lean ====
section
/-! SUPPORT. The small lemmas of the encoding: the opcode map both ways, 16-bit fields and their bytes, code operands,
and the shapes of packet the decoder accepts. -/

namespace Sys2Proof

/-- The opcode map has each row's byte once. -/
@[simp] theorem Opcode.ofByte_toByte (o : Opcode) : Opcode.ofByte o.toByte = some o := by cases o <;> decide

/-- A byte that selects a row is that row's byte. -/
theorem Opcode.toByte_of_ofByte {b : Byte} {o : Opcode} (h : Opcode.ofByte b = some o) : o.toByte = b := by
  simpa using List.find?_some h

@[simp] theorem half_hi_lo (h : Half) : half (hiByte h) (loByte h) = h := by
  simp only [half, hiByte, loByte]
  ext i hi
  simp only [BitVec.getElem_append, BitVec.getElem_extractLsb']
  split
  · simp [BitVec.getLsbD_eq_getElem hi]
  · rw [show 8 + (i - 8) = i by omega, BitVec.getLsbD_eq_getElem hi]

@[simp] theorem hiByte_half (hi lo : Byte) : hiByte (half hi lo) = hi := by
  simp only [half, hiByte]
  ext i h
  rw [BitVec.getElem_extractLsb', ← BitVec.getLsbD_eq_getElem]
  exact BitVec.getLsbD_append.trans (by simp)

@[simp] theorem loByte_half (hi lo : Byte) : loByte (half hi lo) = lo := by
  simp only [half, loByte]
  ext i h
  rw [BitVec.getElem_extractLsb', ← BitVec.getLsbD_eq_getElem]
  exact BitVec.getLsbD_append.trans (by simp [h])

/-- A zero-extended code is a legal code operand (R102). -/
@[simp] theorem code_fits (c : Code) : (c.setWidth 16).extractLsb' 12 4 = 0#4 := by
  ext i hi
  simp [BitVec.getLsbD_setWidth]

@[simp] theorem immCode_zext (c : Code) : immCode (c.setWidth 16) = c := by
  simp only [immCode]
  ext i hi
  simp [hi, show i < 16 by omega]

/-- A legal code operand is the zero-extension of its code (R102). -/
theorem zext_immCode {imm : Half} (h : imm.toNat < 4096) : (immCode imm).setWidth 16 = imm := by
  apply BitVec.eq_of_toNat_eq
  simp [immCode, BitVec.extractLsb'_toNat]
  omega

/-- `imm16[15:12]` is zero exactly below 4096 (R102). -/
theorem code_fits_iff (imm : Half) : imm.extractLsb' 12 4 = 0#4 ↔ imm.toNat < 4096 := by
  have := imm.isLt
  rw [← BitVec.toNat_inj]
  simp [BitVec.extractLsb'_toNat, Nat.shiftRight_eq_div_pow]
  omega

/-- The row of an instruction built from a row is that row. -/
@[simp] theorem Opcode.opcode_build (o : Opcode) (imm : Half) (str : Str) : (o.build imm str).opcode = o := by cases o <;> rfl

/-- Every instruction is built by its row from its own fields. -/
@[simp] theorem Instr.build_fields (i : Instr) : i.opcode.build i.imm i.str = i := by
  cases i <;> simp [Instr.opcode, Instr.imm, Instr.str, Opcode.build]

end Sys2Proof
end

