-- ==== Sys2Proof/Laws/State.lean ====
section
/-! SUPPORT. What each named update of the state does to each field, one lemma for each, so that no proof unfolds a
record update. -/

namespace Sys2Proof.Machine

/-! ### State.log -/

@[simp] theorem log_di (s : State) (e : Event) : (s.log e).di = s.di := rfl
@[simp] theorem log_cs (s : State) (e : Event) : (s.log e).cs = s.cs := rfl
@[simp] theorem log_pk (s : State) (e : Event) : (s.log e).pk = s.pk := rfl
@[simp] theorem log_next (s : State) (e : Event) : (s.log e).next = s.next := rfl
@[simp] theorem log_pfx (s : State) (e : Event) : (s.log e).pfx = s.pfx := rfl
@[simp] theorem log_cur (s : State) (e : Event) : (s.log e).cur = s.cur := rfl
@[simp] theorem log_prev (s : State) (e : Event) : (s.log e).prev = s.prev := rfl
@[simp] theorem log_fsm (s : State) (e : Event) : (s.log e).fsm = s.fsm := rfl
@[simp] theorem log_sticky (s : State) (e : Event) : (s.log e).sticky = s.sticky := rfl
@[simp] theorem log_hash (s : State) (e : Event) : (s.log e).hash = s.hash := rfl
@[simp] theorem log_inp (s : State) (e : Event) : (s.log e).inp = s.inp := rfl
@[simp] theorem log_sink (s : State) (e : Event) : (s.log e).sink = s.sink := rfl
@[simp] theorem log_out (s : State) (e : Event) : (s.log e).out = s.out := rfl
@[simp] theorem log_cmd (s : State) (e : Event) : (s.log e).cmd = s.cmd := rfl
@[simp] theorem log_rsp (s : State) (e : Event) : (s.log e).rsp = s.rsp := rfl
@[simp] theorem log_hist (s : State) (e : Event) : (s.log e).hist = s.hist ++ [e] := rfl

/-! ### State.setErr -/

@[simp] theorem setErr_di (s : State) (rc : RetCode) : (s.setErr rc).di = s.di := rfl
@[simp] theorem setErr_cs (s : State) (rc : RetCode) : (s.setErr rc).cs = s.cs := rfl
@[simp] theorem setErr_pk (s : State) (rc : RetCode) : (s.setErr rc).pk = s.pk := rfl
@[simp] theorem setErr_next (s : State) (rc : RetCode) : (s.setErr rc).next = s.next := rfl
@[simp] theorem setErr_pfx (s : State) (rc : RetCode) : (s.setErr rc).pfx = s.pfx := rfl
@[simp] theorem setErr_cur (s : State) (rc : RetCode) : (s.setErr rc).cur = s.cur := rfl
@[simp] theorem setErr_prev (s : State) (rc : RetCode) : (s.setErr rc).prev = s.prev := rfl
@[simp] theorem setErr_fsm (s : State) (rc : RetCode) : (s.setErr rc).fsm = s.fsm := rfl
@[simp] theorem setErr_sticky (s : State) (rc : RetCode) : (s.setErr rc).sticky = { s.sticky with err := rc.errField } := rfl
@[simp] theorem setErr_hash (s : State) (rc : RetCode) : (s.setErr rc).hash = s.hash := rfl
@[simp] theorem setErr_inp (s : State) (rc : RetCode) : (s.setErr rc).inp = s.inp := rfl
@[simp] theorem setErr_sink (s : State) (rc : RetCode) : (s.setErr rc).sink = s.sink := rfl
@[simp] theorem setErr_out (s : State) (rc : RetCode) : (s.setErr rc).out = s.out := rfl
@[simp] theorem setErr_cmd (s : State) (rc : RetCode) : (s.setErr rc).cmd = s.cmd := rfl
@[simp] theorem setErr_rsp (s : State) (rc : RetCode) : (s.setErr rc).rsp = s.rsp := rfl
@[simp] theorem setErr_hist (s : State) (rc : RetCode) : (s.setErr rc).hist = s.hist := rfl

/-! ### State.setFail -/

@[simp] theorem setFail_di (s : State) : s.setFail.di = s.di := rfl
@[simp] theorem setFail_cs (s : State) : s.setFail.cs = s.cs := rfl
@[simp] theorem setFail_pk (s : State) : s.setFail.pk = s.pk := rfl
@[simp] theorem setFail_next (s : State) : s.setFail.next = s.next := rfl
@[simp] theorem setFail_pfx (s : State) : s.setFail.pfx = s.pfx := rfl
@[simp] theorem setFail_cur (s : State) : s.setFail.cur = s.cur := rfl
@[simp] theorem setFail_prev (s : State) : s.setFail.prev = s.prev := rfl
@[simp] theorem setFail_fsm (s : State) : s.setFail.fsm = s.fsm := rfl
@[simp] theorem setFail_sticky (s : State) : s.setFail.sticky = { s.sticky with fail := true } := rfl
@[simp] theorem setFail_hash (s : State) : s.setFail.hash = s.hash := rfl
@[simp] theorem setFail_inp (s : State) : s.setFail.inp = s.inp := rfl
@[simp] theorem setFail_sink (s : State) : s.setFail.sink = s.sink := rfl
@[simp] theorem setFail_out (s : State) : s.setFail.out = s.out := rfl
@[simp] theorem setFail_cmd (s : State) : s.setFail.cmd = s.cmd := rfl
@[simp] theorem setFail_rsp (s : State) : s.setFail.rsp = s.rsp := rfl
@[simp] theorem setFail_hist (s : State) : s.setFail.hist = s.hist := rfl

/-! ### State.setSkip -/

@[simp] theorem setSkip_di (s : State) : s.setSkip.di = s.di := rfl
@[simp] theorem setSkip_cs (s : State) : s.setSkip.cs = s.cs := rfl
@[simp] theorem setSkip_pk (s : State) : s.setSkip.pk = s.pk := rfl
@[simp] theorem setSkip_next (s : State) : s.setSkip.next = s.next := rfl
@[simp] theorem setSkip_pfx (s : State) : s.setSkip.pfx = s.pfx := rfl
@[simp] theorem setSkip_cur (s : State) : s.setSkip.cur = s.cur := rfl
@[simp] theorem setSkip_prev (s : State) : s.setSkip.prev = s.prev := rfl
@[simp] theorem setSkip_fsm (s : State) : s.setSkip.fsm = s.fsm := rfl
@[simp] theorem setSkip_sticky (s : State) : s.setSkip.sticky = { s.sticky with skip := true } := rfl
@[simp] theorem setSkip_hash (s : State) : s.setSkip.hash = s.hash := rfl
@[simp] theorem setSkip_inp (s : State) : s.setSkip.inp = s.inp := rfl
@[simp] theorem setSkip_sink (s : State) : s.setSkip.sink = s.sink := rfl
@[simp] theorem setSkip_out (s : State) : s.setSkip.out = s.out := rfl
@[simp] theorem setSkip_cmd (s : State) : s.setSkip.cmd = s.cmd := rfl
@[simp] theorem setSkip_rsp (s : State) : s.setSkip.rsp = s.rsp := rfl
@[simp] theorem setSkip_hist (s : State) : s.setSkip.hist = s.hist := rfl

/-! ### State.setDone -/

@[simp] theorem setDone_di (s : State) : s.setDone.di = s.di := rfl
@[simp] theorem setDone_cs (s : State) : s.setDone.cs = s.cs := rfl
@[simp] theorem setDone_pk (s : State) : s.setDone.pk = s.pk := rfl
@[simp] theorem setDone_next (s : State) : s.setDone.next = s.next := rfl
@[simp] theorem setDone_pfx (s : State) : s.setDone.pfx = s.pfx := rfl
@[simp] theorem setDone_cur (s : State) : s.setDone.cur = s.cur := rfl
@[simp] theorem setDone_prev (s : State) : s.setDone.prev = s.prev := rfl
@[simp] theorem setDone_fsm (s : State) : s.setDone.fsm = .done := rfl
@[simp] theorem setDone_sticky (s : State) : s.setDone.sticky = { s.sticky with done := true } := rfl
@[simp] theorem setDone_hash (s : State) : s.setDone.hash = s.hash := rfl
@[simp] theorem setDone_inp (s : State) : s.setDone.inp = s.inp := rfl
@[simp] theorem setDone_sink (s : State) : s.setDone.sink = s.sink := rfl
@[simp] theorem setDone_out (s : State) : s.setDone.out = s.out := rfl
@[simp] theorem setDone_cmd (s : State) : s.setDone.cmd = s.cmd := rfl
@[simp] theorem setDone_rsp (s : State) : s.setDone.rsp = s.rsp := rfl
@[simp] theorem setDone_hist (s : State) : s.setDone.hist = s.hist := rfl

/-! ### State.clearSticky -/

@[simp] theorem clearSticky_di (s : State) : s.clearSticky.di = s.di := rfl
@[simp] theorem clearSticky_cs (s : State) : s.clearSticky.cs = s.cs := rfl
@[simp] theorem clearSticky_pk (s : State) : s.clearSticky.pk = s.pk := rfl
@[simp] theorem clearSticky_next (s : State) : s.clearSticky.next = s.next := rfl
@[simp] theorem clearSticky_pfx (s : State) : s.clearSticky.pfx = s.pfx := rfl
@[simp] theorem clearSticky_cur (s : State) : s.clearSticky.cur = s.cur := rfl
@[simp] theorem clearSticky_prev (s : State) : s.clearSticky.prev = s.prev := rfl
@[simp] theorem clearSticky_fsm (s : State) : s.clearSticky.fsm = s.fsm := rfl
@[simp] theorem clearSticky_sticky (s : State) : s.clearSticky.sticky = .clear := rfl
@[simp] theorem clearSticky_hash (s : State) : s.clearSticky.hash = s.hash := rfl
@[simp] theorem clearSticky_inp (s : State) : s.clearSticky.inp = s.inp := rfl
@[simp] theorem clearSticky_sink (s : State) : s.clearSticky.sink = s.sink := rfl
@[simp] theorem clearSticky_out (s : State) : s.clearSticky.out = s.out := rfl
@[simp] theorem clearSticky_cmd (s : State) : s.clearSticky.cmd = s.cmd := rfl
@[simp] theorem clearSticky_rsp (s : State) : s.clearSticky.rsp = s.rsp := rfl
@[simp] theorem clearSticky_hist (s : State) : s.clearSticky.hist = s.hist := rfl

/-! ### respond -/

@[simp] theorem respond_di (rc : RetCode) (val : Half) (s : State) : (respond rc val s).di = s.di := rfl
@[simp] theorem respond_cs (rc : RetCode) (val : Half) (s : State) : (respond rc val s).cs = s.cs := rfl
@[simp] theorem respond_pk (rc : RetCode) (val : Half) (s : State) : (respond rc val s).pk = s.pk := rfl
@[simp] theorem respond_next (rc : RetCode) (val : Half) (s : State) : (respond rc val s).next = s.next := rfl
@[simp] theorem respond_pfx (rc : RetCode) (val : Half) (s : State) : (respond rc val s).pfx = s.pfx := rfl
@[simp] theorem respond_cur (rc : RetCode) (val : Half) (s : State) : (respond rc val s).cur = s.cur := rfl
@[simp] theorem respond_prev (rc : RetCode) (val : Half) (s : State) : (respond rc val s).prev = s.prev := rfl
@[simp] theorem respond_fsm (rc : RetCode) (val : Half) (s : State) : (respond rc val s).fsm = s.fsm := rfl
@[simp] theorem respond_sticky (rc : RetCode) (val : Half) (s : State) : (respond rc val s).sticky = s.sticky := rfl
@[simp] theorem respond_hash (rc : RetCode) (val : Half) (s : State) : (respond rc val s).hash = s.hash := rfl
@[simp] theorem respond_inp (rc : RetCode) (val : Half) (s : State) : (respond rc val s).inp = s.inp := rfl
@[simp] theorem respond_sink (rc : RetCode) (val : Half) (s : State) : (respond rc val s).sink = s.sink := rfl
@[simp] theorem respond_out (rc : RetCode) (val : Half) (s : State) : (respond rc val s).out = s.out := rfl
@[simp] theorem respond_cmd (rc : RetCode) (val : Half) (s : State) : (respond rc val s).cmd = s.cmd := rfl
@[simp] theorem respond_rsp (rc : RetCode) (val : Half) (s : State) : (respond rc val s).rsp = s.rsp ++ [.r rc val] := rfl
@[simp] theorem respond_hist (rc : RetCode) (val : Half) (s : State) : (respond rc val s).hist = s.hist := rfl

/-! ### respondStr -/

@[simp] theorem respondStr_di (str : Str) (s : State) : (respondStr str s).di = s.di := rfl
@[simp] theorem respondStr_cs (str : Str) (s : State) : (respondStr str s).cs = s.cs := rfl
@[simp] theorem respondStr_pk (str : Str) (s : State) : (respondStr str s).pk = s.pk := rfl
@[simp] theorem respondStr_next (str : Str) (s : State) : (respondStr str s).next = s.next := rfl
@[simp] theorem respondStr_pfx (str : Str) (s : State) : (respondStr str s).pfx = s.pfx := rfl
@[simp] theorem respondStr_cur (str : Str) (s : State) : (respondStr str s).cur = s.cur := rfl
@[simp] theorem respondStr_prev (str : Str) (s : State) : (respondStr str s).prev = s.prev := rfl
@[simp] theorem respondStr_fsm (str : Str) (s : State) : (respondStr str s).fsm = s.fsm := rfl
@[simp] theorem respondStr_sticky (str : Str) (s : State) : (respondStr str s).sticky = s.sticky := rfl
@[simp] theorem respondStr_hash (str : Str) (s : State) : (respondStr str s).hash = s.hash := rfl
@[simp] theorem respondStr_inp (str : Str) (s : State) : (respondStr str s).inp = s.inp := rfl
@[simp] theorem respondStr_sink (str : Str) (s : State) : (respondStr str s).sink = s.sink := rfl
@[simp] theorem respondStr_out (str : Str) (s : State) : (respondStr str s).out = s.out := rfl
@[simp] theorem respondStr_cmd (str : Str) (s : State) : (respondStr str s).cmd = s.cmd := rfl
@[simp] theorem respondStr_rsp (str : Str) (s : State) : (respondStr str s).rsp = s.rsp ++ [.rs .ok (if str.length > maxPayload then 1 else 0) (str.take maxPayload)] := rfl
@[simp] theorem respondStr_hist (str : Str) (s : State) : (respondStr str s).hist = s.hist := rfl

/-! ### respondError -/

@[simp] theorem respondError_di (rc : RetCode) (s : State) : (respondError rc s).di = s.di := rfl
@[simp] theorem respondError_cs (rc : RetCode) (s : State) : (respondError rc s).cs = s.cs := rfl
@[simp] theorem respondError_pk (rc : RetCode) (s : State) : (respondError rc s).pk = s.pk := rfl
@[simp] theorem respondError_next (rc : RetCode) (s : State) : (respondError rc s).next = s.next := rfl
@[simp] theorem respondError_pfx (rc : RetCode) (s : State) : (respondError rc s).pfx = s.pfx := rfl
@[simp] theorem respondError_cur (rc : RetCode) (s : State) : (respondError rc s).cur = s.cur := rfl
@[simp] theorem respondError_prev (rc : RetCode) (s : State) : (respondError rc s).prev = s.prev := rfl
@[simp] theorem respondError_fsm (rc : RetCode) (s : State) : (respondError rc s).fsm = s.fsm := rfl
@[simp] theorem respondError_sticky (rc : RetCode) (s : State) : (respondError rc s).sticky = { s.sticky with err := rc.errField } := rfl
@[simp] theorem respondError_hash (rc : RetCode) (s : State) : (respondError rc s).hash = s.hash := rfl
@[simp] theorem respondError_inp (rc : RetCode) (s : State) : (respondError rc s).inp = s.inp := rfl
@[simp] theorem respondError_sink (rc : RetCode) (s : State) : (respondError rc s).sink = s.sink := rfl
@[simp] theorem respondError_out (rc : RetCode) (s : State) : (respondError rc s).out = s.out := rfl
@[simp] theorem respondError_cmd (rc : RetCode) (s : State) : (respondError rc s).cmd = s.cmd := rfl
@[simp] theorem respondError_rsp (rc : RetCode) (s : State) : (respondError rc s).rsp = s.rsp ++ [.r rc 0] := rfl
@[simp] theorem respondError_hist (rc : RetCode) (s : State) : (respondError rc s).hist = s.hist := rfl

/-! ### respondBool -/

@[simp] theorem respondBool_di (b : Bool) (s : State) : (respondBool b s).di = s.di := rfl
@[simp] theorem respondBool_cs (b : Bool) (s : State) : (respondBool b s).cs = s.cs := rfl
@[simp] theorem respondBool_pk (b : Bool) (s : State) : (respondBool b s).pk = s.pk := rfl
@[simp] theorem respondBool_next (b : Bool) (s : State) : (respondBool b s).next = s.next := rfl
@[simp] theorem respondBool_pfx (b : Bool) (s : State) : (respondBool b s).pfx = s.pfx := rfl
@[simp] theorem respondBool_cur (b : Bool) (s : State) : (respondBool b s).cur = s.cur := rfl
@[simp] theorem respondBool_prev (b : Bool) (s : State) : (respondBool b s).prev = s.prev := rfl
@[simp] theorem respondBool_fsm (b : Bool) (s : State) : (respondBool b s).fsm = s.fsm := rfl
@[simp] theorem respondBool_sticky (b : Bool) (s : State) : (respondBool b s).sticky = s.sticky := rfl
@[simp] theorem respondBool_hash (b : Bool) (s : State) : (respondBool b s).hash = s.hash := rfl
@[simp] theorem respondBool_inp (b : Bool) (s : State) : (respondBool b s).inp = s.inp := rfl
@[simp] theorem respondBool_sink (b : Bool) (s : State) : (respondBool b s).sink = s.sink := rfl
@[simp] theorem respondBool_out (b : Bool) (s : State) : (respondBool b s).out = s.out := rfl
@[simp] theorem respondBool_cmd (b : Bool) (s : State) : (respondBool b s).cmd = s.cmd := rfl
@[simp] theorem respondBool_rsp (b : Bool) (s : State) : (respondBool b s).rsp = s.rsp ++ [.r .ok (if b then 1 else 0)] := rfl
@[simp] theorem respondBool_hist (b : Bool) (s : State) : (respondBool b s).hist = s.hist := rfl

/-! ### State.initS2C -/

@[simp] theorem initS2C_di (s : State) : s.initS2C.di = some (.s2c (initS s.hash)) := rfl
@[simp] theorem initS2C_cs (s : State) : s.initS2C.cs = s.cs := rfl
@[simp] theorem initS2C_pk (s : State) : s.initS2C.pk = s.pk := rfl
@[simp] theorem initS2C_next (s : State) : s.initS2C.next = s.next := rfl
@[simp] theorem initS2C_pfx (s : State) : s.initS2C.pfx = s.pfx := rfl
@[simp] theorem initS2C_cur (s : State) : s.initS2C.cur = s.cur := rfl
@[simp] theorem initS2C_prev (s : State) : s.initS2C.prev = s.prev := rfl
@[simp] theorem initS2C_fsm (s : State) : s.initS2C.fsm = s.fsm := rfl
@[simp] theorem initS2C_sticky (s : State) : s.initS2C.sticky = s.sticky := rfl
@[simp] theorem initS2C_hash (s : State) : s.initS2C.hash = s.hash := rfl
@[simp] theorem initS2C_inp (s : State) : s.initS2C.inp = s.inp := rfl
@[simp] theorem initS2C_sink (s : State) : s.initS2C.sink = s.sink := rfl
@[simp] theorem initS2C_out (s : State) : s.initS2C.out = s.out := rfl
@[simp] theorem initS2C_cmd (s : State) : s.initS2C.cmd = s.cmd := rfl
@[simp] theorem initS2C_rsp (s : State) : s.initS2C.rsp = s.rsp := rfl
@[simp] theorem initS2C_hist (s : State) : s.initS2C.hist = s.hist := rfl

/-! ### State.initC2S -/

@[simp] theorem initC2S_di (s : State) : s.initC2S.di = some (.c2s initC) := rfl
@[simp] theorem initC2S_cs (s : State) : s.initC2S.cs = s.cs := rfl
@[simp] theorem initC2S_pk (s : State) : s.initC2S.pk = s.pk := rfl
@[simp] theorem initC2S_next (s : State) : s.initC2S.next = s.next := rfl
@[simp] theorem initC2S_pfx (s : State) : s.initC2S.pfx = s.pfx := rfl
@[simp] theorem initC2S_cur (s : State) : s.initC2S.cur = s.cur := rfl
@[simp] theorem initC2S_prev (s : State) : s.initC2S.prev = s.prev := rfl
@[simp] theorem initC2S_fsm (s : State) : s.initC2S.fsm = s.fsm := rfl
@[simp] theorem initC2S_sticky (s : State) : s.initC2S.sticky = s.sticky := rfl
@[simp] theorem initC2S_hash (s : State) : s.initC2S.hash = s.hash := rfl
@[simp] theorem initC2S_inp (s : State) : s.initC2S.inp = s.inp := rfl
@[simp] theorem initC2S_sink (s : State) : s.initC2S.sink = s.sink := rfl
@[simp] theorem initC2S_out (s : State) : s.initC2S.out = s.out := rfl
@[simp] theorem initC2S_cmd (s : State) : s.initC2S.cmd = s.cmd := rfl
@[simp] theorem initC2S_rsp (s : State) : s.initC2S.rsp = s.rsp := rfl
@[simp] theorem initC2S_hist (s : State) : s.initC2S.hist = s.hist := rfl

/-! ### State.appendCodes -/

@[simp] theorem appendCodes_di (s : State) (l : List Code) : (s.appendCodes l).di = s.di := rfl
@[simp] theorem appendCodes_cs (s : State) (l : List Code) : (s.appendCodes l).cs = { s.cs with items := s.cs.items ++ l } := rfl
@[simp] theorem appendCodes_pk (s : State) (l : List Code) : (s.appendCodes l).pk = s.pk := rfl
@[simp] theorem appendCodes_next (s : State) (l : List Code) : (s.appendCodes l).next = s.next := rfl
@[simp] theorem appendCodes_pfx (s : State) (l : List Code) : (s.appendCodes l).pfx = s.pfx := rfl
@[simp] theorem appendCodes_cur (s : State) (l : List Code) : (s.appendCodes l).cur = s.cur := rfl
@[simp] theorem appendCodes_prev (s : State) (l : List Code) : (s.appendCodes l).prev = s.prev := rfl
@[simp] theorem appendCodes_fsm (s : State) (l : List Code) : (s.appendCodes l).fsm = s.fsm := rfl
@[simp] theorem appendCodes_sticky (s : State) (l : List Code) : (s.appendCodes l).sticky = s.sticky := rfl
@[simp] theorem appendCodes_hash (s : State) (l : List Code) : (s.appendCodes l).hash = s.hash := rfl
@[simp] theorem appendCodes_inp (s : State) (l : List Code) : (s.appendCodes l).inp = s.inp := rfl
@[simp] theorem appendCodes_sink (s : State) (l : List Code) : (s.appendCodes l).sink = s.sink := rfl
@[simp] theorem appendCodes_out (s : State) (l : List Code) : (s.appendCodes l).out = s.out := rfl
@[simp] theorem appendCodes_cmd (s : State) (l : List Code) : (s.appendCodes l).cmd = s.cmd := rfl
@[simp] theorem appendCodes_rsp (s : State) (l : List Code) : (s.appendCodes l).rsp = s.rsp := rfl
@[simp] theorem appendCodes_hist (s : State) (l : List Code) : (s.appendCodes l).hist = s.hist := rfl

/-! ### State.rewind -/

@[simp] theorem rewind_di (s : State) : s.rewind.di = s.di := rfl
@[simp] theorem rewind_cs (s : State) : s.rewind.cs = { s.cs with cursor := 0 } := rfl
@[simp] theorem rewind_pk (s : State) : s.rewind.pk = s.pk := rfl
@[simp] theorem rewind_next (s : State) : s.rewind.next = s.next := rfl
@[simp] theorem rewind_pfx (s : State) : s.rewind.pfx = s.pfx := rfl
@[simp] theorem rewind_cur (s : State) : s.rewind.cur = s.cur := rfl
@[simp] theorem rewind_prev (s : State) : s.rewind.prev = s.prev := rfl
@[simp] theorem rewind_fsm (s : State) : s.rewind.fsm = s.fsm := rfl
@[simp] theorem rewind_sticky (s : State) : s.rewind.sticky = s.sticky := rfl
@[simp] theorem rewind_hash (s : State) : s.rewind.hash = s.hash := rfl
@[simp] theorem rewind_inp (s : State) : s.rewind.inp = s.inp := rfl
@[simp] theorem rewind_sink (s : State) : s.rewind.sink = s.sink := rfl
@[simp] theorem rewind_out (s : State) : s.rewind.out = s.out := rfl
@[simp] theorem rewind_cmd (s : State) : s.rewind.cmd = s.cmd := rfl
@[simp] theorem rewind_rsp (s : State) : s.rewind.rsp = s.rsp := rfl
@[simp] theorem rewind_hist (s : State) : s.rewind.hist = s.hist := rfl

/-! ### State.assignStr -/

@[simp] theorem assignStr_cs (s : State) (k : Str) (v : Code) : (s.assignStr k v).cs = s.cs := by unfold State.assignStr; split <;> rfl
@[simp] theorem assignStr_pk (s : State) (k : Str) (v : Code) : (s.assignStr k v).pk = s.pk := by unfold State.assignStr; split <;> rfl
@[simp] theorem assignStr_next (s : State) (k : Str) (v : Code) : (s.assignStr k v).next = s.next := by unfold State.assignStr; split <;> rfl
@[simp] theorem assignStr_pfx (s : State) (k : Str) (v : Code) : (s.assignStr k v).pfx = s.pfx := by unfold State.assignStr; split <;> rfl
@[simp] theorem assignStr_cur (s : State) (k : Str) (v : Code) : (s.assignStr k v).cur = s.cur := by unfold State.assignStr; split <;> rfl
@[simp] theorem assignStr_prev (s : State) (k : Str) (v : Code) : (s.assignStr k v).prev = s.prev := by unfold State.assignStr; split <;> rfl
@[simp] theorem assignStr_fsm (s : State) (k : Str) (v : Code) : (s.assignStr k v).fsm = s.fsm := by unfold State.assignStr; split <;> rfl
@[simp] theorem assignStr_sticky (s : State) (k : Str) (v : Code) : (s.assignStr k v).sticky = s.sticky := by unfold State.assignStr; split <;> rfl
@[simp] theorem assignStr_hash (s : State) (k : Str) (v : Code) : (s.assignStr k v).hash = s.hash := by unfold State.assignStr; split <;> rfl
@[simp] theorem assignStr_inp (s : State) (k : Str) (v : Code) : (s.assignStr k v).inp = s.inp := by unfold State.assignStr; split <;> rfl
@[simp] theorem assignStr_sink (s : State) (k : Str) (v : Code) : (s.assignStr k v).sink = s.sink := by unfold State.assignStr; split <;> rfl
@[simp] theorem assignStr_out (s : State) (k : Str) (v : Code) : (s.assignStr k v).out = s.out := by unfold State.assignStr; split <;> rfl
@[simp] theorem assignStr_cmd (s : State) (k : Str) (v : Code) : (s.assignStr k v).cmd = s.cmd := by unfold State.assignStr; split <;> rfl
@[simp] theorem assignStr_rsp (s : State) (k : Str) (v : Code) : (s.assignStr k v).rsp = s.rsp := by unfold State.assignStr; split <;> rfl
@[simp] theorem assignStr_hist (s : State) (k : Str) (v : Code) : (s.assignStr k v).hist = s.hist ++ [.assign v k] := by unfold State.assignStr; split <;> rfl

/-! ### State.assignCode -/

@[simp] theorem assignCode_cs (s : State) (k : Code) (v : Str) : (s.assignCode k v).cs = s.cs := by unfold State.assignCode; split <;> rfl
@[simp] theorem assignCode_pk (s : State) (k : Code) (v : Str) : (s.assignCode k v).pk = s.pk := by unfold State.assignCode; split <;> rfl
@[simp] theorem assignCode_next (s : State) (k : Code) (v : Str) : (s.assignCode k v).next = s.next := by unfold State.assignCode; split <;> rfl
@[simp] theorem assignCode_pfx (s : State) (k : Code) (v : Str) : (s.assignCode k v).pfx = s.pfx := by unfold State.assignCode; split <;> rfl
@[simp] theorem assignCode_cur (s : State) (k : Code) (v : Str) : (s.assignCode k v).cur = s.cur := by unfold State.assignCode; split <;> rfl
@[simp] theorem assignCode_prev (s : State) (k : Code) (v : Str) : (s.assignCode k v).prev = s.prev := by unfold State.assignCode; split <;> rfl
@[simp] theorem assignCode_fsm (s : State) (k : Code) (v : Str) : (s.assignCode k v).fsm = s.fsm := by unfold State.assignCode; split <;> rfl
@[simp] theorem assignCode_sticky (s : State) (k : Code) (v : Str) : (s.assignCode k v).sticky = s.sticky := by unfold State.assignCode; split <;> rfl
@[simp] theorem assignCode_hash (s : State) (k : Code) (v : Str) : (s.assignCode k v).hash = s.hash := by unfold State.assignCode; split <;> rfl
@[simp] theorem assignCode_inp (s : State) (k : Code) (v : Str) : (s.assignCode k v).inp = s.inp := by unfold State.assignCode; split <;> rfl
@[simp] theorem assignCode_sink (s : State) (k : Code) (v : Str) : (s.assignCode k v).sink = s.sink := by unfold State.assignCode; split <;> rfl
@[simp] theorem assignCode_out (s : State) (k : Code) (v : Str) : (s.assignCode k v).out = s.out := by unfold State.assignCode; split <;> rfl
@[simp] theorem assignCode_cmd (s : State) (k : Code) (v : Str) : (s.assignCode k v).cmd = s.cmd := by unfold State.assignCode; split <;> rfl
@[simp] theorem assignCode_rsp (s : State) (k : Code) (v : Str) : (s.assignCode k v).rsp = s.rsp := by unfold State.assignCode; split <;> rfl
@[simp] theorem assignCode_hist (s : State) (k : Code) (v : Str) : (s.assignCode k v).hist = s.hist ++ [.assign k v] := by unfold State.assignCode; split <;> rfl

/-! ### State.bufferFirst -/

@[simp] theorem bufferFirst_di (c : Code) (s : State) : (s.bufferFirst c).di = s.di := rfl
@[simp] theorem bufferFirst_cs (c : Code) (s : State) : (s.bufferFirst c).cs = s.cs := rfl
@[simp] theorem bufferFirst_pk (c : Code) (s : State) : (s.bufferFirst c).pk = ⟨.second, packB0 c, packB1 c, 0⟩ := rfl
@[simp] theorem bufferFirst_next (c : Code) (s : State) : (s.bufferFirst c).next = s.next := rfl
@[simp] theorem bufferFirst_pfx (c : Code) (s : State) : (s.bufferFirst c).pfx = s.pfx := rfl
@[simp] theorem bufferFirst_cur (c : Code) (s : State) : (s.bufferFirst c).cur = s.cur := rfl
@[simp] theorem bufferFirst_prev (c : Code) (s : State) : (s.bufferFirst c).prev = s.prev := rfl
@[simp] theorem bufferFirst_fsm (c : Code) (s : State) : (s.bufferFirst c).fsm = s.fsm := rfl
@[simp] theorem bufferFirst_sticky (c : Code) (s : State) : (s.bufferFirst c).sticky = s.sticky := rfl
@[simp] theorem bufferFirst_hash (c : Code) (s : State) : (s.bufferFirst c).hash = s.hash := rfl
@[simp] theorem bufferFirst_inp (c : Code) (s : State) : (s.bufferFirst c).inp = s.inp := rfl
@[simp] theorem bufferFirst_sink (c : Code) (s : State) : (s.bufferFirst c).sink = s.sink := rfl
@[simp] theorem bufferFirst_out (c : Code) (s : State) : (s.bufferFirst c).out = s.out := rfl
@[simp] theorem bufferFirst_cmd (c : Code) (s : State) : (s.bufferFirst c).cmd = s.cmd := rfl
@[simp] theorem bufferFirst_rsp (c : Code) (s : State) : (s.bufferFirst c).rsp = s.rsp := rfl
@[simp] theorem bufferFirst_hist (c : Code) (s : State) : (s.bufferFirst c).hist = s.hist := rfl

/-! ### State.completePair -/

@[simp] theorem completePair_di (c : Code) (s : State) : (s.completePair c).di = s.di := rfl
@[simp] theorem completePair_cs (c : Code) (s : State) : (s.completePair c).cs = s.cs := rfl
@[simp] theorem completePair_pk (c : Code) (s : State) : (s.completePair c).pk = { s.pk with buf1 := s.pk.buf1 ||| packHi c, buf2 := packB2 c } := rfl
@[simp] theorem completePair_next (c : Code) (s : State) : (s.completePair c).next = s.next := rfl
@[simp] theorem completePair_pfx (c : Code) (s : State) : (s.completePair c).pfx = s.pfx := rfl
@[simp] theorem completePair_cur (c : Code) (s : State) : (s.completePair c).cur = s.cur := rfl
@[simp] theorem completePair_prev (c : Code) (s : State) : (s.completePair c).prev = s.prev := rfl
@[simp] theorem completePair_fsm (c : Code) (s : State) : (s.completePair c).fsm = s.fsm := rfl
@[simp] theorem completePair_sticky (c : Code) (s : State) : (s.completePair c).sticky = s.sticky := rfl
@[simp] theorem completePair_hash (c : Code) (s : State) : (s.completePair c).hash = s.hash := rfl
@[simp] theorem completePair_inp (c : Code) (s : State) : (s.completePair c).inp = s.inp := rfl
@[simp] theorem completePair_sink (c : Code) (s : State) : (s.completePair c).sink = s.sink := rfl
@[simp] theorem completePair_out (c : Code) (s : State) : (s.completePair c).out = s.out := rfl
@[simp] theorem completePair_cmd (c : Code) (s : State) : (s.completePair c).cmd = s.cmd := rfl
@[simp] theorem completePair_rsp (c : Code) (s : State) : (s.completePair c).rsp = s.rsp := rfl
@[simp] theorem completePair_hist (c : Code) (s : State) : (s.completePair c).hist = s.hist := rfl

/-! ### State.clearPacker -/

@[simp] theorem clearPacker_di (s : State) : s.clearPacker.di = s.di := rfl
@[simp] theorem clearPacker_cs (s : State) : s.clearPacker.cs = s.cs := rfl
@[simp] theorem clearPacker_pk (s : State) : s.clearPacker.pk = .clear := rfl
@[simp] theorem clearPacker_next (s : State) : s.clearPacker.next = s.next := rfl
@[simp] theorem clearPacker_pfx (s : State) : s.clearPacker.pfx = s.pfx := rfl
@[simp] theorem clearPacker_cur (s : State) : s.clearPacker.cur = s.cur := rfl
@[simp] theorem clearPacker_prev (s : State) : s.clearPacker.prev = s.prev := rfl
@[simp] theorem clearPacker_fsm (s : State) : s.clearPacker.fsm = s.fsm := rfl
@[simp] theorem clearPacker_sticky (s : State) : s.clearPacker.sticky = s.sticky := rfl
@[simp] theorem clearPacker_hash (s : State) : s.clearPacker.hash = s.hash := rfl
@[simp] theorem clearPacker_inp (s : State) : s.clearPacker.inp = s.inp := rfl
@[simp] theorem clearPacker_sink (s : State) : s.clearPacker.sink = s.sink := rfl
@[simp] theorem clearPacker_out (s : State) : s.clearPacker.out = s.out := rfl
@[simp] theorem clearPacker_cmd (s : State) : s.clearPacker.cmd = s.cmd := rfl
@[simp] theorem clearPacker_rsp (s : State) : s.clearPacker.rsp = s.rsp := rfl
@[simp] theorem clearPacker_hist (s : State) : s.clearPacker.hist = s.hist := rfl

/-! ### hardwareReset -/

@[simp] theorem hardwareReset_di (s : State) : (hardwareReset s).di = none := rfl
@[simp] theorem hardwareReset_cs (s : State) : (hardwareReset s).cs = .empty := rfl
@[simp] theorem hardwareReset_pk (s : State) : (hardwareReset s).pk = .clear := rfl
@[simp] theorem hardwareReset_next (s : State) : (hardwareReset s).next = 256 := rfl
@[simp] theorem hardwareReset_pfx (s : State) : (hardwareReset s).pfx = [] := rfl
@[simp] theorem hardwareReset_cur (s : State) : (hardwareReset s).cur = 0 := rfl
@[simp] theorem hardwareReset_prev (s : State) : (hardwareReset s).prev = 0 := rfl
@[simp] theorem hardwareReset_fsm (s : State) : (hardwareReset s).fsm = .idle := rfl
@[simp] theorem hardwareReset_sticky (s : State) : (hardwareReset s).sticky = .clear := rfl
@[simp] theorem hardwareReset_hash (s : State) : (hardwareReset s).hash = s.hash := rfl
@[simp] theorem hardwareReset_inp (s : State) : (hardwareReset s).inp = s.inp := rfl
@[simp] theorem hardwareReset_sink (s : State) : (hardwareReset s).sink = s.sink := rfl
@[simp] theorem hardwareReset_out (s : State) : (hardwareReset s).out = s.out := rfl
@[simp] theorem hardwareReset_cmd (s : State) : (hardwareReset s).cmd = s.cmd := rfl
@[simp] theorem hardwareReset_rsp (s : State) : (hardwareReset s).rsp = s.rsp := rfl
@[simp] theorem hardwareReset_hist (s : State) : (hardwareReset s).hist = s.hist := rfl

/-! ### placeCommand -/

@[simp] theorem placeCommand_di (p : Packet) (s : State) : (placeCommand p s).di = s.di := rfl
@[simp] theorem placeCommand_cs (p : Packet) (s : State) : (placeCommand p s).cs = s.cs := rfl
@[simp] theorem placeCommand_pk (p : Packet) (s : State) : (placeCommand p s).pk = s.pk := rfl
@[simp] theorem placeCommand_next (p : Packet) (s : State) : (placeCommand p s).next = s.next := rfl
@[simp] theorem placeCommand_pfx (p : Packet) (s : State) : (placeCommand p s).pfx = s.pfx := rfl
@[simp] theorem placeCommand_cur (p : Packet) (s : State) : (placeCommand p s).cur = s.cur := rfl
@[simp] theorem placeCommand_prev (p : Packet) (s : State) : (placeCommand p s).prev = s.prev := rfl
@[simp] theorem placeCommand_fsm (p : Packet) (s : State) : (placeCommand p s).fsm = if s.fsm.isRest then s.fsm else .idle := rfl
@[simp] theorem placeCommand_sticky (p : Packet) (s : State) : (placeCommand p s).sticky = s.sticky := rfl
@[simp] theorem placeCommand_hash (p : Packet) (s : State) : (placeCommand p s).hash = s.hash := rfl
@[simp] theorem placeCommand_inp (p : Packet) (s : State) : (placeCommand p s).inp = s.inp := rfl
@[simp] theorem placeCommand_sink (p : Packet) (s : State) : (placeCommand p s).sink = s.sink := rfl
@[simp] theorem placeCommand_out (p : Packet) (s : State) : (placeCommand p s).out = s.out := rfl
@[simp] theorem placeCommand_cmd (p : Packet) (s : State) : (placeCommand p s).cmd = p :: s.cmd := rfl
@[simp] theorem placeCommand_rsp (p : Packet) (s : State) : (placeCommand p s).rsp = s.rsp := rfl
@[simp] theorem placeCommand_hist (p : Packet) (s : State) : (placeCommand p s).hist = s.hist := rfl

end Sys2Proof.Machine
end

