-- ==== Sys2Proof/Laws/Ops.lean ====
section
/-! SUPPORT. What each shared operation can do, said once: a prover cites these and does not unfold the operation. -/

namespace Sys2Proof.Machine

variable {α β : Type} {s t : State}

/-! ### Sequencing -/

@[simp] theorem bind_ok (a : α) (s : State) (f : α → State → Res β) : (Res.ok a s).bind f = f a s := rfl
@[simp] theorem bind_raise (c : Cause) (s : State) (f : α → State → Res β) :
    (Res.raise c s).bind f = .raise c s := rfl
@[simp] theorem bind_stuck (e : Fault) (f : α → State → Res β) : (Res.stuck e).bind f = .stuck e := rfl

@[simp] theorem answer_ok (a : α) (s : State) (k : α → State → State) : (Res.ok a s).answer k = .next (k a s) := rfl
@[simp] theorem answer_raise (c : Cause) (s : State) (k : α → State → State) :
    (Res.raise c s).answer k = .next (takeException c s) := rfl
@[simp] theorem answer_stuck (e : Fault) (k : α → State → State) : (Res.stuck e).answer k = .fault e := rfl

theorem bind_assoc {γ : Type} (r : Res α) (f : α → State → Res β) (g : β → State → Res γ) :
    (r.bind f).bind g = r.bind fun a s => (f a s).bind g := by
  cases r <;> rfl

/-- A sequence ends normally exactly when both its parts do. -/
theorem bind_eq_ok {r : Res α} {f : α → State → Res β} {b : β} :
    r.bind f = .ok b t ↔ ∃ a u, r = .ok a u ∧ f a u = .ok b t := by
  cases r <;> simp

/-- A sequence raises where its first part does, or after it. -/
theorem bind_eq_raise {r : Res α} {f : α → State → Res β} {c : Cause} :
    r.bind f = .raise c t ↔ r = .raise c t ∨ ∃ a u, r = .ok a u ∧ f a u = .raise c t := by
  cases r <;> simp

/-- A sequence waits where its first part does, or after it. -/
theorem bind_eq_stuck {r : Res α} {f : α → State → Res β} {e : Fault} :
    r.bind f = .stuck e ↔ r = .stuck e ∨ ∃ a u, r = .ok a u ∧ f a u = .stuck e := by
  cases r <;> simp

/-- A command ends in a next state by a normal end or by an exception. -/
theorem answer_eq_next {r : Res α} {k : α → State → State} :
    r.answer k = .next t ↔ (∃ a u, r = .ok a u ∧ k a u = t) ∨ ∃ c u, r = .raise c u ∧ takeException c u = t := by
  cases r <;> simp

theorem answer_eq_fault {r : Res α} {k : α → State → State} {e : Fault} : r.answer k = .fault e ↔ r = .stuck e := by
  cases r <;> simp

/-- No command is refused by the model. -/
theorem answer_ne_refused {r : Res α} {k : α → State → State} {x : Refusal} : r.answer k ≠ .refused x := by
  cases r <;> simp

/-! ### Reads -/

/-- A read that is answered takes one answer of `IN` (none is left past the script's end) and records the call. -/
theorem readByte_ok {held : List Byte} {r : Option Byte} (h : readByte held s = .ok r t) :
    (∃ b rest, s.inp = .byte b :: rest ∧ r = some b ∧ t = { s with inp := rest, hist := s.hist ++ [.read (some b)] }) ∨
    (∃ rest, s.inp = .endOfStream :: rest ∧ r = none ∧ t = { s with inp := rest, hist := s.hist ++ [.read none] }) ∨
    (s.inp = [] ∧ r = none ∧ t = { s with hist := s.hist ++ [.read none] }) := by
  unfold readByte at h
  split at h <;> simp_all [State.log]
  all_goals obtain ⟨rfl, rfl⟩ := h; rfl

theorem readByte_ne_raise {held : List Byte} {c : Cause} : readByte held s ≠ .raise c t := by
  unfold readByte
  split <;> simp

theorem readByte_stuck {held : List Byte} {e : Fault} (h : readByte held s = .stuck e) :
    (∃ rest, s.inp = .silent :: rest) ∧ e = .readBlocked held s := by
  unfold readByte at h
  split at h <;> simp_all

/-- A read changes nothing but the script and the history. -/
theorem readByte_frame {held : List Byte} {r : Option Byte} (h : readByte held s = .ok r t) :
    t = { s with inp := t.inp, hist := t.hist } := by
  obtain ⟨b, rest, -, -, rfl⟩ | ⟨rest, -, -, rfl⟩ | ⟨-, -, rfl⟩ := readByte_ok h <;> rfl

/-! ### Writes -/

/-- A write that is accepted extends `OUT` by exactly its byte. -/
theorem emitByte_ok {b : Byte} {u : Unit} (h : emitByte b s = .ok u t) :
    (s.sink = [] ∨ s.sink = .ok :: t.sink) ∧
    t = { s with sink := s.sink.tail, out := s.out ++ [b], hist := s.hist ++ [.write b true] } := by
  unfold emitByte at h
  split at h <;> simp_all [State.log]
  all_goals subst h; simp_all

/-- A write that is refused appends nothing and raises `OutputIoError`. -/
theorem emitByte_raise {b : Byte} {c : Cause} (h : emitByte b s = .raise c t) :
    c = .outputIoError ∧ s.sink = .ioError :: t.sink ∧
    t = { s with sink := s.sink.tail, hist := s.hist ++ [.write b false] } := by
  unfold emitByte at h
  split at h <;> simp_all [State.log]
  obtain ⟨rfl, rfl⟩ := h; simp_all

theorem emitByte_stuck {b : Byte} {e : Fault} (h : emitByte b s = .stuck e) :
    (∃ rest, s.sink = .silent :: rest) ∧ e = .writeBlocked b s := by
  unfold emitByte at h
  split at h <;> simp_all

/-- However a write ends, it changes nothing but the script, `OUT` and the history. -/
theorem emitByte_frame_ok {b : Byte} {u : Unit} (h : emitByte b s = .ok u t) :
    t = { s with sink := t.sink, out := t.out, hist := t.hist } := by
  obtain ⟨-, rfl⟩ := emitByte_ok h; rfl

theorem emitByte_frame_raise {b : Byte} {c : Cause} (h : emitByte b s = .raise c t) :
    t = { s with sink := t.sink, out := t.out, hist := t.hist } := by
  obtain ⟨-, -, rfl⟩ := emitByte_raise h; rfl

/-- A string that is accepted extends `OUT` by exactly its bytes, in order. -/
theorem emitStr_ok {str : Str} {u : Unit} : ∀ {s : State}, emitStr str s = .ok u t →
    t = { s with sink := s.sink.drop str.length, out := s.out ++ str,
                 hist := s.hist ++ str.map fun b => .write b true } := by
  induction str with
  | nil => intro s h; simp [emitStr] at h; simp [h]
  | cons b str ih =>
    intro s h
    simp only [emitStr, bind_eq_ok] at h
    obtain ⟨_, v, hb, hs⟩ := h
    obtain ⟨-, rfl⟩ := emitByte_ok hb
    rw [ih hs]
    simp

/-- A string that is refused leaves a proper part of it in `OUT`. -/
theorem emitStr_raise {str : Str} {c : Cause} : ∀ {s : State}, emitStr str s = .raise c t →
    c = .outputIoError ∧ t = { s with sink := t.sink, out := t.out, hist := t.hist } ∧
    ∃ k, k < str.length ∧ t.out = s.out ++ str.take k := by
  induction str with
  | nil => intro s h; simp [emitStr] at h
  | cons b str ih =>
    intro s h
    simp only [emitStr, bind_eq_raise] at h
    obtain h | ⟨_, v, hb, hs⟩ := h
    · obtain ⟨rfl, -, rfl⟩ := emitByte_raise h
      exact ⟨rfl, rfl, 0, by simp, by simp⟩
    · obtain ⟨-, rfl⟩ := emitByte_ok hb
      obtain ⟨rfl, hf, k, hk, ho⟩ := ih hs
      exact ⟨rfl, hf, k + 1, by simpa using hk, by simp [ho]⟩

/-- Writing a string to a sink that accepts everything ends normally. -/
theorem emitStr_accepting {str : Str} : ∀ {s : State}, (∀ a ∈ s.sink, a = .ok) →
    ∃ t, emitStr str s = .ok () t ∧ ∀ a ∈ t.sink, a = .ok := by
  induction str with
  | nil => intro s h; exact ⟨s, rfl, h⟩
  | cons b str ih =>
    intro s h
    cases hs : s.sink with
    | nil => simp only [emitStr, emitByte, hs, bind_ok]; exact ih (by simp)
    | cons a rest =>
      obtain rfl : a = .ok := h a (by simp [hs])
      simp only [emitStr, emitByte, hs, bind_ok]
      exact ih (by simpa using fun a ha => h a (by simp [hs, ha]))

/-- Writing a string blocks only on an answer that is `silent`. -/
theorem emitStr_not_stuck {str : Str} {e : Fault} : ∀ {s : State}, (∀ a ∈ s.sink, a ≠ .silent) →
    emitStr str s ≠ .stuck e := by
  induction str with
  | nil => intro s _; simp [emitStr]
  | cons b str ih =>
    intro s h hst
    simp only [emitStr, bind_eq_stuck] at hst
    obtain hst | ⟨_, v, hb, hs⟩ := hst
    · obtain ⟨⟨rest, hr⟩, -⟩ := emitByte_stuck hst
      exact h _ (by simp [hr]) rfl
    · obtain ⟨-, rfl⟩ := emitByte_ok hb
      exact ih (by simpa using fun a ha => h a (List.mem_of_mem_tail ha)) hs

/-! ### The exception entry -/

/-- What taking an exception leaves alone: everything but `STATUS`, `FSM` and the response. -/
theorem takeException_frame (c : Cause) (s : State) :
    takeException c s = { s with sticky := (takeException c s).sticky, fsm := .failed, rsp := (takeException c s).rsp } := by
  cases c <;> rfl

@[simp] theorem takeException_fsm (c : Cause) (s : State) : (takeException c s).fsm = .failed := by cases c <;> rfl

theorem takeException_io_sticky (s : State) :
    (takeException .outputIoError s).sticky = { s.sticky with fail := true, err := 5 } := rfl

theorem takeException_io_rsp (s : State) : (takeException .outputIoError s).rsp = s.rsp ++ [.r .eIo 0] := rfl

theorem takeException_miss_sticky (s : State) :
    (takeException .internalLookupMiss s).sticky = { s.sticky with err := 6 } := rfl

theorem takeException_miss_rsp (s : State) : (takeException .internalLookupMiss s).rsp = s.rsp ++ [.r .eInternal 0] := rfl

/-! ### The dictionary store -/

section
variable {κ ν : Type} [DecidableEq κ]

/-- The first match of two chains one behind the other is the first chain's, or else the second's. -/
theorem find_append (c d : List (κ × ν)) (key : κ) : find (c ++ d) key = (find c key).or (find d key) := by
  induction c with
  | nil => simp [find]
  | cons e c ih => obtain ⟨k, v⟩ := e; by_cases h : k = key <;> simp [find, h, ih]

theorem find_singleton (k : κ) (v : ν) (key : κ) : find [(k, v)] key = if k = key then some v else none := by
  by_cases h : k = key <;> simp [find, h]

theorem find_some_mem {c : List (κ × ν)} {key : κ} {v : ν} (h : find c key = some v) : (key, v) ∈ c := by
  induction c with
  | nil => simp [find] at h
  | cons e c ih =>
    obtain ⟨k, w⟩ := e
    by_cases hk : k = key
    · simp [find, hk] at h; simp [hk, h]
    · simp [find, hk] at h; simp [ih h]

theorem find_eq_none {c : List (κ × ν)} {key : κ} : find c key = none ↔ ∀ e ∈ c, e.1 ≠ key := by
  induction c with
  | nil => simp [find]
  | cons e c ih => obtain ⟨k, v⟩ := e; by_cases h : k = key <;> simp [find, h, ih]

@[simp] theorem appendAt_length (t : List (List α)) (i : Nat) (e : α) : (appendAt t i e).length = t.length := by
  induction t generalizing i with
  | nil => rfl
  | cons c t ih => cases i <;> simp [appendAt, ih]

/-- `appendAt` adds its entry at the tail of one chain and leaves the others. -/
theorem appendAt_getD (t : List (List α)) (i j : Nat) (e : α) (hi : i < t.length) :
    (appendAt t i e).getD j [] = if j = i then t.getD i [] ++ [e] else t.getD j [] := by
  induction t generalizing i j with
  | nil => simp at hi
  | cons c t ih =>
    cases i with
    | zero => cases j <;> simp [appendAt]
    | succ i =>
      cases j with
      | zero => simp [appendAt]
      | succ j => simpa [appendAt] using ih i j (by simpa using hi)

/-- In range, a lookup is a scan of the key's chain (R139, R142). -/
theorem lookupAt_inRange (t : List (List (κ × ν))) (i : Nat) (key : κ) (hi : i < t.length) :
    lookupAt t (i : Int) key = find (t.getD i []) key := by
  have h : ¬((i : Int) < 0 ∨ (i : Int) ≥ t.length) := by omega
  simp only [lookupAt, if_neg h, Int.toNat_natCast]

end

/-- The index of a string is always in range (R132, R148). -/
theorem idxStr_range (h : HashFn) {n : Nat} (hn : 0 < n) (key : Str) : 0 ≤ idxStr h n key ∧ idxStr h n key < n := by
  have : (n : Int) ≠ 0 := by omega
  exact ⟨Int.emod_nonneg _ this, Int.emod_lt_of_pos _ (by omega)⟩

/-- The index of a code is always in range (R133, R148). -/
theorem idxCode_range {n : Nat} (hn : 0 < n) (key : Code) : 0 ≤ idxCode n key ∧ idxCode n key < n := by
  have : (n : Int) ≠ 0 := by omega
  exact ⟨Int.emod_nonneg _ this, Int.emod_lt_of_pos _ (by omega)⟩

/-- The index of a code is the code modulo the bucket count (R133). -/
theorem idxCode_toNat (n : Nat) (key : Code) : (idxCode n key).toNat = key.toNat % n := by
  simp only [idxCode, ← Int.natCast_emod, Int.toNat_natCast]

@[simp] theorem putS_length (h : HashFn) (t : List (List (Str × Code))) (k : Str) (v : Code) :
    (putS h t k v).length = t.length := by simp [putS]

@[simp] theorem putC_length (t : List (List (Code × Str))) (k : Code) (v : Str) : (putC t k v).length = t.length := by
  simp [putC]

@[simp] theorem emptyTable_length (α : Type) (n : Nat) : (emptyTable α n).length = n := by simp [emptyTable]

theorem emptyTable_getD (α : Type) (n i : Nat) : (emptyTable α n).getD i [] = [] := by
  by_cases h : i < n <;> simp [emptyTable, h]

theorem foldl_length {t : List (List α)} {f : List (List α) → Byte → List (List α)}
    (hf : ∀ t b, (f t b).length = t.length) (l : List Byte) : (l.foldl f t).length = t.length := by
  induction l generalizing t with
  | nil => rfl
  | cons b l ih => simp [ih, hf]

@[simp] theorem initS_length (h : HashFn) : (initS h).length = 256 := by
  rw [initS, foldl_length (fun t b => putS_length h t _ _), emptyTable_length]; rfl

@[simp] theorem initC_length : initC.length = 256 := by
  rw [initC, foldl_length (fun t b => putC_length t _ _), emptyTable_length]; rfl

/-- The check of R131 answers with the table's operation or with `E_NOINST`. -/
theorem withS2C_cases (s : State) (f : List (List (Str × Code)) → Result) :
    (∃ t, s.di = some (.s2c t) ∧ withS2C s f = f t) ∨
    ((∀ t, s.di ≠ some (.s2c t)) ∧ withS2C s f = .next (respondError .eNoinst s)) := by
  unfold withS2C; split <;> simp_all

theorem withC2S_cases (s : State) (f : List (List (Code × Str)) → Result) :
    (∃ t, s.di = some (.c2s t) ∧ withC2S s f = f t) ∨
    ((∀ t, s.di ≠ some (.c2s t)) ∧ withC2S s f = .next (respondError .eNoinst s)) := by
  unfold withC2S; split <;> simp_all

/-- The fetch takes the oldest packet of `CMD` and changes nothing else. -/
theorem takeCommand_some {p : Packet} (h : takeCommand s = some (p, t)) :
    s.cmd = p :: t.cmd ∧ t = { s with cmd := t.cmd } := by
  unfold takeCommand at h
  split at h <;> simp_all
  obtain ⟨rfl, rfl⟩ := h; simp

end Sys2Proof.Machine
end

