-- ==== Sys2Proof/Laws/Units.lean ====
section
/-! SUPPORT. What the bodies of the unit operations can do, said once for the commands and the engines that share
them. -/

namespace Sys2Proof.Machine

variable {s t : State}

/-! ### Bit Packer -/

/-- The first code of a pair is buffered (R161). -/
theorem pkPushBody_first (c : Code) (h : s.pk.phase = .first) : pkPushBody c s = .ok 0 (s.bufferFirst c) := by
  simp [pkPushBody, h]

/-- The three bytes of a pair whose second code is `c`, as the buffer holds them (R161). -/
def pairBytes (c : Code) (p : Packer) : List Byte := [p.buf0, p.buf1 ||| packHi c, packB2 c]

/-- The second code of a pair is three writes and a clear (R161). -/
theorem pkPushBody_second (c : Code) (h : s.pk.phase = .second) :
    pkPushBody c s = (emitStr (pairBytes c s.pk) (s.completePair c)).bind fun _ s => .ok 3 s.clearPacker := by
  simp [pkPushBody, h, pairBytes]

/-- The second code of a pair, accepted: three bytes written in order and the buffer cleared (R161). -/
theorem pkPushBody_second_ok {c : Code} {n : Half} (hp : s.pk.phase = .second) (h : pkPushBody c s = .ok n t) :
    n = 3 ∧ t = { s with pk := .clear, sink := s.sink.drop 3, out := s.out ++ pairBytes c s.pk,
                         hist := s.hist ++ (pairBytes c s.pk).map fun b => .write b true } := by
  simp only [pkPushBody_second c hp, bind_eq_ok, Res.ok.injEq] at h
  obtain ⟨_, u, hu, rfl, rfl⟩ := h
  rw [emitStr_ok hu]
  exact ⟨rfl, rfl⟩

/-- The second code of a pair, refused at one of its writes: the bytes before it are written, the completed triple and
the phase stay (R31, R161). -/
theorem pkPushBody_raise {c : Code} {x : Cause} (h : pkPushBody c s = .raise x t) :
    s.pk.phase = .second ∧ x = .outputIoError ∧
    (∃ k, k < 3 ∧ t.out = s.out ++ (pairBytes c s.pk).take k) ∧
    t = { s.completePair c with sink := t.sink, out := t.out, hist := t.hist } := by
  cases hp : s.pk.phase with
  | first => simp [pkPushBody_first c hp] at h
  | second =>
    simp only [pkPushBody_second c hp, bind_eq_raise, reduceCtorEq, and_false, exists_false, or_false] at h
    obtain ⟨rfl, hf, k, hk, ho⟩ := emitStr_raise h
    exact ⟨rfl, rfl, ⟨k, by simpa [pairBytes] using hk, by simpa using ho⟩, hf⟩

/-- A push waits only on an answer that is `silent`. -/
theorem pkPushBody_not_stuck {c : Code} {e : Fault} (hs : ∀ a ∈ s.sink, a ≠ .silent) : pkPushBody c s ≠ .stuck e := by
  intro h
  cases hp : s.pk.phase with
  | first => simp [pkPushBody_first c hp] at h
  | second =>
    simp only [pkPushBody_second c hp, bind_eq_stuck, reduceCtorEq, and_false, exists_false, or_false] at h
    exact emitStr_not_stuck (by simpa using hs) h

/-- With nothing pending a flush is a no-op (R163). -/
theorem pkFlushBody_first (h : s.pk.phase = .first) : pkFlushBody s = .ok 0 s := by simp [pkFlushBody, h]

/-- With a code pending a flush is two writes and a clear (R163). -/
theorem pkFlushBody_second (h : s.pk.phase = .second) :
    pkFlushBody s = (emitStr [s.pk.buf0, s.pk.buf1] s).bind fun _ s => .ok 2 s.clearPacker := by
  simp [pkFlushBody, h]

/-- A flush that is accepted writes the first two bytes of the buffer and clears it (R163). -/
theorem pkFlushBody_second_ok {n : Half} (hp : s.pk.phase = .second) (h : pkFlushBody s = .ok n t) :
    n = 2 ∧ t = { s with pk := .clear, sink := s.sink.drop 2, out := s.out ++ [s.pk.buf0, s.pk.buf1],
                         hist := s.hist ++ [.write s.pk.buf0 true, .write s.pk.buf1 true] } := by
  simp only [pkFlushBody_second hp, bind_eq_ok, Res.ok.injEq] at h
  obtain ⟨_, u, hu, rfl, rfl⟩ := h
  rw [emitStr_ok hu]
  exact ⟨rfl, rfl⟩

/-- A flush that is refused leaves the buffer and the phase (R163). -/
theorem pkFlushBody_raise {x : Cause} (h : pkFlushBody s = .raise x t) :
    s.pk.phase = .second ∧ x = .outputIoError ∧
    (∃ k, k < 2 ∧ t.out = s.out ++ [s.pk.buf0, s.pk.buf1].take k) ∧
    t = { s with sink := t.sink, out := t.out, hist := t.hist } := by
  cases hp : s.pk.phase with
  | first => simp [pkFlushBody_first hp] at h
  | second =>
    simp only [pkFlushBody_second hp, bind_eq_raise, reduceCtorEq, and_false, exists_false, or_false] at h
    obtain ⟨rfl, hf, k, hk, ho⟩ := emitStr_raise h
    exact ⟨rfl, rfl, ⟨k, by simpa using hk, ho⟩, hf⟩

/-- A flush waits only on an answer that is `silent`. -/
theorem pkFlushBody_not_stuck {e : Fault} (hs : ∀ a ∈ s.sink, a ≠ .silent) : pkFlushBody s ≠ .stuck e := by
  intro h
  cases hp : s.pk.phase with
  | first => simp [pkFlushBody_first hp] at h
  | second =>
    simp only [pkFlushBody_second hp, bind_eq_stuck, reduceCtorEq, and_false, exists_false, or_false] at h
    exact emitStr_not_stuck hs h

/-! ### Bit Unpacker -/

/-- A group read that is answered: a whole group appended, or a short one dropped (R170). -/
theorem upGroupBody_ok {r : GroupEnd} (h : upGroupBody s = .ok r t) :
    (∃ b0 b1 b2, s.inp = .byte b0 :: .byte b1 :: .byte b2 :: t.inp ∧ r = .whole ∧
      t = { s with inp := t.inp, cs := ⟨s.cs.items ++ [unpackA b0 b1, unpackB b1 b2], s.cs.cursor⟩,
                   hist := s.hist ++ [.read (some b0), .read (some b1), .read (some b2)] }) ∨
    (∃ l : List Byte, l.length < 3 ∧ r = .ended (BitVec.ofNat 16 l.length) ∧
      (s.inp = l.map .byte ++ .endOfStream :: t.inp ∨ (s.inp = l.map .byte ∧ t.inp = [])) ∧
      t = { s with inp := t.inp, hist := s.hist ++ (l.map fun b => .read (some b)) ++ [.read none] }) := by
  simp only [upGroupBody, bind_eq_ok] at h
  obtain ⟨r0, u0, h0, h⟩ := h
  obtain ⟨b0, i0, hi0, rfl, rfl⟩ | ⟨i0, hi0, rfl, rfl⟩ | ⟨hi0, rfl, rfl⟩ := readByte_ok h0
  · simp only [bind_eq_ok] at h
    obtain ⟨r1, u1, h1, h⟩ := h
    obtain ⟨b1, i1, hi1, rfl, rfl⟩ | ⟨i1, hi1, rfl, rfl⟩ | ⟨hi1, rfl, rfl⟩ := readByte_ok h1
    · simp only [bind_eq_ok] at h
      obtain ⟨r2, u2, h2, h⟩ := h
      obtain ⟨b2, i2, hi2, rfl, rfl⟩ | ⟨i2, hi2, rfl, rfl⟩ | ⟨hi2, rfl, rfl⟩ := readByte_ok h2
      · simp only [Res.ok.injEq] at h
        obtain ⟨rfl, rfl⟩ := h
        refine .inl ⟨b0, b1, b2, ?_, rfl, ?_⟩ <;> simp_all [State.appendCodes]
      · simp only [Res.ok.injEq] at h
        obtain ⟨rfl, rfl⟩ := h
        refine .inr ⟨[b0, b1], by simp, rfl, ?_⟩; simp_all
      · simp only [Res.ok.injEq] at h
        obtain ⟨rfl, rfl⟩ := h
        refine .inr ⟨[b0, b1], by simp, rfl, ?_⟩; simp_all
    · simp only [Res.ok.injEq] at h
      obtain ⟨rfl, rfl⟩ := h
      refine .inr ⟨[b0], by simp, rfl, ?_⟩; simp_all
    · simp only [Res.ok.injEq] at h
      obtain ⟨rfl, rfl⟩ := h
      refine .inr ⟨[b0], by simp, rfl, ?_⟩; simp_all
  · simp only [Res.ok.injEq] at h
    obtain ⟨rfl, rfl⟩ := h
    refine .inr ⟨[], by simp, rfl, ?_⟩; simp_all
  · simp only [Res.ok.injEq] at h
    obtain ⟨rfl, rfl⟩ := h
    refine .inr ⟨[], by simp, rfl, ?_⟩; simp_all

/-- Unpacking writes nothing, so it never raises (R233, R284). -/
theorem upGroupBody_ne_raise {c : Cause} : upGroupBody s ≠ .raise c t := by
  intro h
  simp only [upGroupBody, bind_eq_raise] at h
  obtain h | ⟨r0, u0, -, h⟩ := h
  · exact readByte_ne_raise h
  cases r0 with
  | none => simp at h
  | some b0 =>
    simp only [bind_eq_raise] at h
    obtain h | ⟨r1, u1, -, h⟩ := h
    · exact readByte_ne_raise h
    cases r1 with
    | none => simp at h
    | some b1 =>
      simp only [bind_eq_raise] at h
      obtain h | ⟨r2, u2, -, h⟩ := h
      · exact readByte_ne_raise h
      cases r2 <;> simp at h

/-- A group read waits only on an answer that is `silent`, with the bytes read so far held (R32). -/
theorem upGroupBody_stuck {e : Fault} (h : upGroupBody s = .stuck e) :
    ∃ (l : List Byte) (rest : List ReadAnswer) (u : State),
      l.length < 3 ∧ s.inp = l.map .byte ++ .silent :: rest ∧ e = .readBlocked l u ∧
      u = { s with inp := .silent :: rest, hist := s.hist ++ l.map fun b => .read (some b) } := by
  simp only [upGroupBody, bind_eq_stuck] at h
  obtain h | ⟨r0, u0, h0, h⟩ := h
  · obtain ⟨⟨rest, hr⟩, rfl⟩ := readByte_stuck h
    exact ⟨[], rest, s, by simp, by simp [hr], rfl, by simp [← hr]⟩
  obtain ⟨b0, i0, hi0, rfl, rfl⟩ | ⟨i0, hi0, rfl, rfl⟩ | ⟨hi0, rfl, rfl⟩ := readByte_ok h0
  rotate_left
  · simp at h
  · simp at h
  simp only [bind_eq_stuck] at h
  obtain h | ⟨r1, u1, h1, h⟩ := h
  · obtain ⟨⟨rest, hr⟩, rfl⟩ := readByte_stuck h
    exact ⟨[b0], rest, _, by simp, by simp_all, rfl, by simp_all⟩
  obtain ⟨b1, i1, hi1, rfl, rfl⟩ | ⟨i1, hi1, rfl, rfl⟩ | ⟨hi1, rfl, rfl⟩ := readByte_ok h1
  rotate_left
  · simp at h
  · simp at h
  simp only [bind_eq_stuck] at h
  obtain h | ⟨r2, u2, h2, h⟩ := h
  · obtain ⟨⟨rest, hr⟩, rfl⟩ := readByte_stuck h
    exact ⟨[b0, b1], rest, _, by simp, by simp_all, rfl, by simp_all⟩
  cases r2 <;> simp at h

/-! ### Code Sequence -/

/-- A fetch gives the element at the cursor and advances it by one (R184). -/
theorem csTake_some {v : Code} (h : csTake s = some (v, t)) :
    s.cs.cursor < s.cs.items.length ∧ s.cs.items[s.cs.cursor]? = some v ∧
    t = { s with cs := ⟨s.cs.items, s.cs.cursor + 1⟩ } := by
  unfold csTake at h
  split at h
  · simp at h
  · simp only [Option.map_eq_some_iff, Prod.mk.injEq] at h
    obtain ⟨v', hv, rfl, rfl⟩ := h
    exact ⟨by omega, hv, rfl⟩

/-- A fetch fails exactly at the end (R184). -/
theorem csTake_none : csTake s = none ↔ s.cs.items.length ≤ s.cs.cursor := by
  unfold csTake
  split <;> simp_all

/-- `has_next` is true exactly when a fetch succeeds (R185). -/
theorem csMore_iff : s.csMore = true ↔ s.cs.cursor < s.cs.items.length := by simp [State.csMore]

/-! ### Tables of the engines -/

/-- An insertion of the compressor goes through the table's put (R206). -/
theorem assignStr_di {tb : List (List (Str × Code))} (h : s.di = some (.s2c tb)) (k : Str) (v : Code) :
    (s.assignStr k v).di = some (.s2c (putS s.hash tb k v)) := by
  simp [State.assignStr, h]

/-- An insertion of the decompressor goes through the table's put (R240). -/
theorem assignCode_di {tb : List (List (Code × Str))} (h : s.di = some (.c2s tb)) (k : Code) (v : Str) :
    (s.assignCode k v).di = some (.c2s (putC tb k v)) := by
  simp [State.assignCode, h]

end Sys2Proof.Machine
end

