-- ==== Sys2Proof/Laws/Engine.lean ====
section
/-! SUPPORT. What the rule of each control state of the engines can do, said once, and the two ways to go through a run. -/

namespace Sys2Proof.Machine

variable {s t : State}

/-! ### Compressor -/

/-- `AWAITING_FIRST_BYTE`: a byte becomes the running string, the end of the input ends the run (R203). -/
theorem compressFirst_ok {u : Unit} (h : compressFirst s = .ok u t) :
    (∃ b rest, s.inp = .byte b :: rest ∧
      t = { s with inp := rest, hist := s.hist ++ [.read (some b)], pfx := [b], fsm := .accumulating }) ∨
    ((s.inp = .endOfStream :: t.inp ∨ s.inp = [] ∧ t.inp = []) ∧
      t = { s with inp := t.inp, hist := s.hist ++ [.read none], sticky := { s.sticky with done := true }, fsm := .done }) := by
  simp only [compressFirst, bind_eq_ok] at h
  obtain ⟨r, v, hr, h⟩ := h
  obtain ⟨b, rest, hi, rfl, rfl⟩ | ⟨rest, hi, rfl, rfl⟩ | ⟨hi, rfl, rfl⟩ := readByte_ok hr <;>
    simp only [Res.ok.injEq, true_and] at h <;> subst h
  · exact .inl ⟨b, rest, hi, rfl⟩
  · exact .inr ⟨.inl hi, rfl⟩
  · exact .inr ⟨.inr ⟨hi, hi⟩, by simp [State.setDone, hi]⟩

/-- The check of the compressor, where it finds the table full (R205). -/
theorem resetCheckS_full (h : s.next = 4096) :
    resetCheckS s = { s with di := some (.s2c (initS s.hash)), next := 256, hist := s.hist ++ [.tableReset] } := by
  simp [resetCheckS, Config.codeLimit, h, State.initS2C, State.log, Config.firstFree]

/-- The check of the compressor, where a code is free (R205). -/
theorem resetCheckS_free (h : s.next ≠ 4096) : resetCheckS s = s := if_neg h

/-- `ACCUMULATING`, after its check: the end of the input, a longer string, or a miss (R204). -/
theorem compressAccumulate_ok {u : Unit} (h : compressAccumulate s = .ok u t) :
    ((s.inp = .endOfStream :: t.inp ∨ s.inp = [] ∧ t.inp = []) ∧
      t = { resetCheckS s with inp := t.inp, hist := (resetCheckS s).hist ++ [.read none], fsm := .drain }) ∨
    ∃ b, s.inp = .byte b :: t.inp ∧
      ((resetCheckS s).hasStr (s.pfx ++ [b]) = true ∧
        t = { resetCheckS s with inp := t.inp, hist := (resetCheckS s).hist ++ [.read (some b)], cur := b,
                                 pfx := s.pfx ++ [b], fsm := .accumulating } ∨
      (resetCheckS s).hasStr (s.pfx ++ [b]) = false ∧
        t = { resetCheckS s with inp := t.inp, hist := (resetCheckS s).hist ++ [.read (some b)], cur := b,
                                 fsm := .emit }) := by
  have hp : (resetCheckS s).pfx = s.pfx := by
    by_cases hn : s.next = 4096
    · rw [resetCheckS_full hn]
    · rw [resetCheckS_free hn]
  have hq : (resetCheckS s).inp = s.inp := by
    by_cases hn : s.next = 4096
    · rw [resetCheckS_full hn]
    · rw [resetCheckS_free hn]
  simp only [compressAccumulate, bind_eq_ok] at h
  obtain ⟨r, v, hr, h⟩ := h
  obtain ⟨b, rest, hi, rfl, rfl⟩ | ⟨rest, hi, rfl, rfl⟩ | ⟨hi, rfl, rfl⟩ := readByte_ok hr
  · refine .inr ⟨b, ?_⟩
    simp only [hp] at h
    split at h <;> simp only [Res.ok.injEq, true_and] at h <;> subst h
    · exact ⟨by simp [← hq, hi], .inl ⟨‹_›, rfl⟩⟩
    · exact ⟨by simp [← hq, hi], .inr ⟨Bool.eq_false_iff.mpr ‹¬ _›, by simp [hp]⟩⟩
  all_goals
    simp only [Res.ok.injEq, true_and] at h
    subst h
    exact .inl ⟨by simp [← hq, hi], by simp⟩

/-- The code of `PREFIX` and the push of it (R206, R208). -/
theorem emitPfx_ok {n : Half} (h : emitPfx s = .ok n t) : ∃ c, s.getStr s.pfx = some c ∧ pkPushBody c s = .ok n t := by
  unfold emitPfx at h
  split at h <;> simp_all

/-- What raises at an emission: a string the table does not have, or a refused write (R206, R208, R215). -/
theorem emitPfx_raise {x : Cause} (h : emitPfx s = .raise x t) :
    s.getStr s.pfx = none ∧ x = .internalLookupMiss ∧ t = s ∨
    ∃ c, s.getStr s.pfx = some c ∧ pkPushBody c s = .raise x t := by
  unfold emitPfx at h
  split at h <;> simp_all

/-- `EMIT`: the push, then the insertion, the increment and the restart of the string (R206). -/
theorem compressEmit_ok {u : Unit} (h : compressEmit s = .ok u t) :
    ∃ c n v, s.getStr s.pfx = some c ∧ pkPushBody c s = .ok n v ∧
      t = { v.assignStr (v.pfx ++ [v.cur]) (nextCode v.next) with
            next := v.next + 1, pfx := [v.cur], fsm := .accumulating } := by
  simp only [compressEmit, bind_eq_ok, Res.ok.injEq, true_and] at h
  obtain ⟨n, v, hv, rfl⟩ := h
  obtain ⟨c, hc, hp⟩ := emitPfx_ok hv
  refine ⟨c, n, v, hc, hp, ?_⟩
  cases hd : v.di with
  | none => simp [State.assignStr, hd]
  | some d => cases d <;> simp [State.assignStr, hd]

/-- `EMIT` raises only in its push, before any other change (R206). -/
theorem compressEmit_raise {x : Cause} (h : compressEmit s = .raise x t) : emitPfx s = .raise x t := by
  simpa [compressEmit, bind_eq_raise] using h

/-- `DRAIN`: the last code pushed, the flush, and the normal end (R208). -/
theorem compressDrain_ok {u : Unit} (h : compressDrain s = .ok u t) :
    ∃ c n m v w, s.getStr s.pfx = some c ∧ pkPushBody c s = .ok n v ∧ pkFlushBody v = .ok m w ∧ t = w.setDone := by
  simp only [compressDrain, bind_eq_ok, Res.ok.injEq, true_and] at h
  obtain ⟨n, v, hv, m, w, hw, rfl⟩ := h
  obtain ⟨c, hc, hp⟩ := emitPfx_ok hv
  exact ⟨c, n, m, v, w, hc, hp, hw, rfl⟩

/-- `DRAIN` raises in its push or in its flush (R208). -/
theorem compressDrain_raise {x : Cause} (h : compressDrain s = .raise x t) :
    emitPfx s = .raise x t ∨ ∃ n v, emitPfx s = .ok n v ∧ pkFlushBody v = .raise x t := by
  simp only [compressDrain, bind_eq_raise, reduceCtorEq, and_false, exists_false, or_false] at h
  exact h

/-! ### Decompressor -/

/-- `UNPACKING`: a whole group, or the end of the input and the first table (R233). -/
theorem decompressUnpack_ok {u : Unit} (h : decompressUnpack s = .ok u t) :
    (∃ v, upGroupBody s = .ok .whole v ∧ t = { v with fsm := .unpacking }) ∨
    ∃ n v, upGroupBody s = .ok (.ended n) v ∧
      t = { v with cs := ⟨v.cs.items, 0⟩, di := some (.c2s initC), next := 256, fsm := .dFirst } := by
  simp only [decompressUnpack, bind_eq_ok] at h
  obtain ⟨r, v, hr, h⟩ := h
  cases r with
  | whole => simp at h; exact .inl ⟨v, hr, h.symm⟩
  | ended n => simp [State.initC2S, State.rewind, Config.firstFree] at h; exact .inr ⟨n, v, hr, h.symm⟩

/-- Unpacking makes no write, so it never raises (R233). -/
theorem decompressUnpack_ne_raise {x : Cause} : decompressUnpack s ≠ .raise x t := by
  intro h
  simp only [decompressUnpack, bind_eq_raise] at h
  obtain h | ⟨r, v, -, h⟩ := h
  · exact upGroupBody_ne_raise h
  · cases r <;> simp at h

/-- The check of the decompressor, where it finds the table full (R241). -/
theorem resetCheckC_full (h : s.next = 4096) :
    resetCheckC s = { s with di := some (.c2s initC), next := 256, hist := s.hist ++ [.tableReset] } := by
  simp [resetCheckC, Config.codeLimit, h, State.initC2S, State.log, Config.firstFree]

/-- The check of the decompressor, where a code is free (R241). -/
theorem resetCheckC_free (h : s.next ≠ 4096) : resetCheckC s = s := if_neg h

/-- `D_FIRST`: no code at all, the first string written, or the first code absent (R237, R238). -/
theorem decompressFirst_ok {u : Unit} (h : decompressFirst s = .ok u t) :
    (csTake s = none ∧ t = s.setDone) ∨
    ∃ c v, csTake s = some (c, v) ∧
      ((∃ str u' w, { v with prev := c }.getCode c = some str ∧ emitStr str { v with prev := c } = .ok u' w ∧
          t = { w with fsm := .dLoop }) ∨
        ({ v with prev := c }.getCode c = none ∧ t = { ({ v with prev := c } : State).setSkip with fsm := .dLoop })) := by
  unfold decompressFirst at h
  split at h
  · rename_i hc
    simp at h
    exact .inl ⟨hc, h.symm⟩
  · rename_i c v hc
    refine .inr ⟨c, v, hc, ?_⟩
    dsimp only at h
    split at h
    · rename_i str hs
      simp only [bind_eq_ok, Res.ok.injEq, true_and] at h
      obtain ⟨u', w, hw, rfl⟩ := h
      exact .inl ⟨str, u', w, hs, hw, rfl⟩
    · rename_i hs
      simp only [Res.ok.injEq, true_and] at h
      exact .inr ⟨hs, h.symm⟩

/-- The string written and the string put for a code, given the previous string (R243, R244). -/
def codeStrings (ps : Str) (found : Option Str) : Str × Str :=
  match found with
  | none => (ps ++ firstOf ps, ps ++ firstOf ps)
  | some str => (str, ps ++ firstOf str)

/-- One code: the put, the writes, the increment (R243 to R246). -/
theorem decompressCode_eq (ps : Str) (cur : Code) (s : State) :
    decompressCode ps cur s =
      (emitStr (codeStrings ps (s.getCode cur)).1
        (s.assignCode (nextCode s.next) (codeStrings ps (s.getCode cur)).2)).bind fun _ s =>
      .ok () { s with next := s.next + 1, prev := cur, fsm := .dLoop } := by
  unfold decompressCode
  cases s.getCode cur <;> rfl

/-- `D_LOOP`: the end, a skip, or one code (R240). -/
theorem decompressLoop_eq (s : State) :
    (s.cs.items.length ≤ s.cs.cursor ∧ decompressLoop s = .ok () s.setDone) ∨
    ∃ cur v, csTake (resetCheckC s) = some (cur, v) ∧
      ((v.getCode v.prev = none ∧ decompressLoop s = .ok () { v.setSkip with fsm := .dLoop }) ∨
        ∃ ps, v.getCode v.prev = some ps ∧ decompressLoop s = decompressCode ps cur v) := by
  by_cases hm : s.csMore = true
  · refine .inr ?_
    have hk : (resetCheckC s).cs = s.cs := by
      by_cases hn : s.next = 4096
      · rw [resetCheckC_full hn]
      · rw [resetCheckC_free hn]
    have hlt := csMore_iff.mp hm
    cases hc : csTake (resetCheckC s) with
    | none => rw [csTake_none, hk] at hc; omega
    | some p =>
      obtain ⟨cur, v⟩ := p
      refine ⟨cur, v, rfl, ?_⟩
      simp only [decompressLoop, hm, if_true, hc]
      cases hg : v.getCode v.prev <;> simp
  · refine .inl ⟨by simpa [csMore_iff] using hm, ?_⟩
    simp [decompressLoop, hm]

/-! ### Runs -/

/-- A run at rest has ended. -/
theorem runEngine_rest (k : Nat) (h : s.fsm.isRest = true) : runEngine (k + 1) s = .ok () s := by simp [runEngine, h]

/-- A run that has not ended takes the rule of its control state. -/
theorem runEngine_step (k : Nat) (h : s.fsm.isRest = false) :
    runEngine (k + 1) s = (engineStep s).bind fun _ s => runEngine k s := by
  simp [runEngine, h]

/-- A property the rules keep holds where a run ends, at rest; and where it raises, the raise is that of one rule from a
state with the property. -/
theorem runEngine_induct {P : State → Prop}
    (hstep : ∀ s t, P s → s.fsm.isRest = false → engineStep s = .ok () t → P t) :
    ∀ (k : Nat) (s : State), P s →
      (∀ t, runEngine k s = .ok () t → P t ∧ t.fsm.isRest = true) ∧
      (∀ x t, runEngine k s = .raise x t → ∃ v, P v ∧ v.fsm.isRest = false ∧ engineStep v = .raise x t)
  | 0, s, _ => by simp [runEngine]
  | k + 1, s, hs => by
    cases hr : s.fsm.isRest with
    | true =>
      rw [runEngine_rest k hr]
      refine ⟨fun t ht => ?_, fun x t ht => by simp at ht⟩
      obtain rfl : s = t := by simpa using ht
      exact ⟨hs, hr⟩
    | false =>
      rw [runEngine_step k hr]
      refine ⟨fun t ht => ?_, fun x t ht => ?_⟩
      · obtain ⟨_, v, hv, ht⟩ := bind_eq_ok.mp ht
        exact (runEngine_induct hstep k v (hstep s v hs hr hv)).1 t ht
      · obtain ht | ⟨_, v, hv, ht⟩ := bind_eq_raise.mp ht
        · exact ⟨s, hs, hr, ht⟩
        · exact (runEngine_induct hstep k v (hstep s v hs hr hv)).2 x t ht

end Sys2Proof.Machine
end

