-- ==== Sys2Proof/Laws/PerInstr.lean ====
section
/-! SUPPORT. What holds of every instruction as syntax, one lemma for each constructor. -/

namespace Sys2Proof.Laws.EncodedForm

/-- The encoding of an instruction starts with an opcode byte the map lists as the instruction's row (R107), its `imm16`
has the form the row asks for (R102), and its length is the one the row's format fixes (R100). -/
def Statement (i : Instr) : Prop :=
  (encode i).head? = some i.opcode.toByte ∧ Opcode.ofByte i.opcode.toByte = some i.opcode ∧
  i.opcode.immForm.fits i.imm = true ∧
  (i.opcode.format = .c → (encode i).length = 3) ∧ (i.opcode.format = .cs → (encode i).length = 5 + i.str.length)

/-- A row of format C: nothing follows the header. -/
theorem of_c {i : Instr} (hf : i.opcode.format = .c) (hi : i.opcode.immForm.fits i.imm = true) : Statement i := by
  refine ⟨rfl, Opcode.ofByte_toByte _, hi, fun _ => ?_, fun h => ?_⟩
  · simp [encode, hf, Format.tail]
  · simp [hf] at h

/-- A row of format CS: `len16` and the string follow the header. -/
theorem of_cs {i : Instr} (hf : i.opcode.format = .cs) (hi : i.opcode.immForm.fits i.imm = true) : Statement i := by
  refine ⟨rfl, Opcode.ofByte_toByte _, hi, fun h => ?_, fun _ => ?_⟩
  · simp [hf] at h
  · simp [encode, hf, Format.tail]; omega

/-- The code operand of a code row fits. -/
theorem fits_zext (c : Code) : ImmForm.code.fits (c.setWidth 16) = true := by simp [ImmForm.fits]

theorem sysReset : Statement .sysReset := of_c rfl rfl
theorem sysStatus : Statement .sysStatus := of_c rfl rfl
theorem sysRdnext : Statement .sysRdnext := of_c rfl rfl
theorem htNews (n : Half) : Statement (.htNews n) := of_c rfl rfl
theorem htNewc (n : Half) : Statement (.htNewc n) := of_c rfl rfl
theorem htInits : Statement .htInits := of_c rfl rfl
theorem htInitc : Statement .htInitc := of_c rfl rfl
theorem htPuts (key : Str) (value : Code) : Statement (.htPuts key value) := of_cs rfl (fits_zext _)
theorem htPutc (key : Code) (value : Str) : Statement (.htPutc key value) := of_cs rfl (fits_zext _)
theorem htGets (key : Str) : Statement (.htGets key) := of_cs rfl rfl
theorem htGetc (key : Code) : Statement (.htGetc key) := of_c rfl (fits_zext _)
theorem htHass (key : Str) : Statement (.htHass key) := of_cs rfl rfl
theorem htHasc (key : Code) : Statement (.htHasc key) := of_c rfl (fits_zext _)
theorem htSize : Statement .htSize := of_c rfl rfl
theorem pkPush (code : Code) : Statement (.pkPush code) := of_c rfl (fits_zext _)
theorem pkFlush : Statement .pkFlush := of_c rfl rfl
theorem upGroup : Statement .upGroup := of_c rfl rfl
theorem upAll : Statement .upAll := of_c rfl rfl
theorem csClear : Statement .csClear := of_c rfl rfl
theorem csAppend (code : Code) : Statement (.csAppend code) := of_c rfl (fits_zext _)
theorem csReset : Statement .csReset := of_c rfl rfl
theorem csNext : Statement .csNext := of_c rfl rfl
theorem csHasnext : Statement .csHasnext := of_c rfl rfl
theorem lzwCompress : Statement .lzwCompress := of_c rfl rfl
theorem lzwDecompress : Statement .lzwDecompress := of_c rfl rfl

end Sys2Proof.Laws.EncodedForm
end

