-- ==== Sys2Proof/Tests/Slice0.lean ====
section
/-! SUPPORT. The model's own tests. Expected values are those of spec/95_test_vectors.md or worked by hand from the rule
named; the witnesses show that the hypotheses of the statements can be met, at the ends of their ranges. -/

namespace Sys2Proof.Tests

open Sys2Proof Sys2Proof.Machine Sys2Proof.Safety

/-! ### Helpers -/

/-- The reset state with the reference hash, which the kernel can evaluate, and these bytes on `IN`. -/
def fresh (input : List Byte) : State := { State.reset with hash := .reference, inp := input.map .byte }

/-- A field of a next state. -/
def got {α : Type} (f : State → α) : Result → Option α
  | .next t => some (f t)
  | .fault _ => none
  | .refused _ => none

/-- The bytes of the response to one instruction, run as a command on `CMD`. -/
def reply (p : Packet) (s : State) : Option Packet :=
  got (fun t => (t.rsp.getLast?.map Response.bytes).getD []) (step { s with cmd := [p] })

/-- A `C2S` table of four chains: chain 1 holds keys 1, 5, 1. -/
def tableC : List (List (Code × Str)) := [[], [(1, [0x61]), (5, [0x62]), (1, [0x7A])], [], []]

/-- An `S2C` table of four chains: under H31 the keys "a" and "ab" are in chain 1 and "" in chain 0 (L2.2). -/
def tableS : List (List (Str × Code)) := [[([], 0)], [([0x61], 7), ([0x61, 0x62], 4095), ([0x61], 9)], [], []]

def withC : State := { fresh [] with di := some (.c2s tableC) }
def withS : State := { fresh [] with di := some (.s2c tableS) }

/-- A code sequence of two elements, the cursor at `k`. -/
def seqAt (k : Nat) : State := { fresh [] with cs := ⟨[4095, 0], k⟩ }

/-- A first code `0x0AB` pending, and this sink. -/
def pending (sink : List WriteAnswer) : State := { fresh [] with pk := ⟨.second, 0x0A, 0xB0, 0⟩, sink := sink }

/-! ### WellFormed: each check refuses an ill-formed term -/

theorem test_wf_news_zero : (Instr.htNews 0).wellFormed = false := by decide
theorem test_wf_newc_zero : (Instr.htNewc 0).wellFormed = false := by decide
/-- The shortest string that fits no packet, and the longest that fits one (R103). -/
def tooLong : Str := List.replicate 65536 0
def longest : Str := List.replicate 65535 0

theorem tooLong_length : ¬ tooLong.length ≤ maxPayload := by rw [tooLong, List.length_replicate]; decide
theorem longest_length : longest.length ≤ maxPayload := by rw [longest, List.length_replicate]; decide

theorem test_wf_puts_long (v : Code) : (Instr.htPuts tooLong v).wellFormed = false := by
  simp [Instr.wellFormed, tooLong_length]
theorem test_wf_putc_long (k : Code) : (Instr.htPutc k tooLong).wellFormed = false := by
  simp [Instr.wellFormed, tooLong_length]
theorem test_wf_gets_long : (Instr.htGets tooLong).wellFormed = false := by simp [Instr.wellFormed, tooLong_length]
theorem test_wf_hass_long : (Instr.htHass tooLong).wellFormed = false := by simp [Instr.wellFormed, tooLong_length]
theorem test_wf_puts_longest (v : Code) : (Instr.htPuts longest v).wellFormed = true := by
  simp [Instr.wellFormed, longest_length]

/-! ### Decoding: a packet for every constructor, written out from R100, R102 and R107 -/

theorem test_decode_sys :
    decode [0x01, 0x00, 0x00] = .ok .sysReset ∧ decode [0x02, 0x00, 0x00] = .ok .sysStatus ∧
    decode [0x03, 0x00, 0x00] = .ok .sysRdnext := ⟨rfl, rfl, rfl⟩

theorem test_decode_ht_tables :
    decode [0x10, 0x00, 0x04] = .ok (.htNews 4) ∧ decode [0x11, 0xFF, 0xFF] = .ok (.htNewc 65535) ∧
    decode [0x12, 0x00, 0x00] = .ok .htInits ∧ decode [0x13, 0x00, 0x00] = .ok .htInitc ∧
    decode [0x1A, 0x00, 0x00] = .ok .htSize := ⟨rfl, rfl, rfl, rfl, rfl⟩

theorem test_decode_ht_strings :
    decode [0x14, 0x0F, 0xFF, 0x00, 0x02, 0x61, 0x62] = .ok (.htPuts [0x61, 0x62] 4095) ∧
    decode [0x15, 0x00, 0x01, 0x00, 0x01, 0x7A] = .ok (.htPutc 1 [0x7A]) ∧
    decode [0x16, 0x00, 0x00, 0x00, 0x00] = .ok (.htGets []) ∧
    decode [0x18, 0x00, 0x00, 0x00, 0x02, 0x62, 0x61] = .ok (.htHass [0x62, 0x61]) := ⟨rfl, rfl, rfl, rfl⟩

theorem test_decode_ht_codes :
    decode [0x17, 0x01, 0x02] = .ok (.htGetc 0x102) ∧ decode [0x19, 0x0F, 0xFF] = .ok (.htHasc 0xFFF) := ⟨rfl, rfl⟩

theorem test_decode_pk_up :
    decode [0x20, 0x0C, 0xD0] = .ok (.pkPush 0xCD0) ∧ decode [0x21, 0x00, 0x00] = .ok .pkFlush ∧
    decode [0x30, 0x00, 0x00] = .ok .upGroup ∧ decode [0x31, 0x00, 0x00] = .ok .upAll := ⟨rfl, rfl, rfl, rfl⟩

theorem test_decode_cs :
    decode [0x40, 0x00, 0x00] = .ok .csClear ∧ decode [0x41, 0x01, 0x00] = .ok (.csAppend 256) ∧
    decode [0x42, 0x00, 0x00] = .ok .csReset ∧ decode [0x43, 0x00, 0x00] = .ok .csNext ∧
    decode [0x44, 0x00, 0x00] = .ok .csHasnext := ⟨rfl, rfl, rfl, rfl, rfl⟩

theorem test_decode_lzw :
    decode [0x50, 0x00, 0x00] = .ok .lzwCompress ∧ decode [0x51, 0x00, 0x00] = .ok .lzwDecompress := ⟨rfl, rfl⟩

/-- The opcode table's own numbering: the first string byte of a format CS row is bits 47:40. -/
theorem test_table_word :
    decodeTableWord 24 0x2000AB = some (.pkPush 0x0AB) ∧ decodeTableWord 24 0x100000 = some (.htNews 0) ∧
    decodeTableWord 40 0x0000160000 = some (.htGets []) ∧
    decodeTableWord 48 0x610001140007 = some (.htPuts [0x61] 7) ∧
    decodeTableWord 24 0xFF0000 = none := ⟨rfl, rfl, rfl, rfl, rfl⟩

/-- The command errors of L2.12, by the reason of R109. -/
theorem test_decode_errors :
    decode [0xFF, 0x00, 0x00] = .error (.reservedOpcode 0xFF) ∧ decode [0x20, 0x10, 0x00] = .error (.badOperand .pkPush) ∧
    decode [0x02, 0x00, 0x01] = .error (.badOperand .sysStatus) ∧ decode [0x02, 0x00] = .error .tooShort ∧
    decode [0x14, 0x01, 0x00, 0x00, 0x03, 0x41, 0x42] = .error (.wrongLength .htPuts) ∧
    decode [0x16, 0x00, 0x00, 0x00] = .error (.wrongLength .htGets) ∧
    decode [0x20, 0x00, 0x00, 0xAB] = .error (.wrongLength .pkPush) := ⟨rfl, rfl, rfl, rfl, rfl, rfl, rfl⟩

theorem test_reply_errors :
    reply [0xFF, 0x12, 0x34, 0x56] (fresh []) = some [0x81, 0x00, 0x00] ∧
    reply [0x51, 0x01, 0x00] (fresh []) = some [0x82, 0x00, 0x00] ∧
    reply [0x16, 0x00, 0x01, 0x00, 0x00] (fresh []) = some [0x82, 0x00, 0x00] := ⟨rfl, rfl, rfl⟩

/-! ### One step of each instruction -/

/-- R260: the sequence, the phase and the error are back at reset; `IN` is not touched. -/
theorem test_sys_reset :
    got (fun t => (t.cs, t.pk.phase, t.status, t.inp)) (exec .sysReset { pending [] with cs := ⟨[1], 1⟩, inp := [.byte 7] })
      = some (.empty, .first, 0, [.byte 7]) := by decide

/-- L2.11, L2.4: reset, and a sequence with more. -/
theorem test_sys_status : reply [0x02, 0, 0] (fresh []) = some [0, 0, 0] ∧ reply [0x02, 0, 0] (seqAt 0) = some [0, 0, 0x40] := by
  decide

/-- L2.11 and the largest value the register can hold (R33). -/
theorem test_sys_rdnext :
    reply [0x03, 0, 0] (fresh []) = some [0, 0x01, 0x00] ∧
    reply [0x03, 0, 0] { fresh [] with next := 4096 } = some [0, 0x10, 0x00] := by decide

/-- L2.1: a constructor replaces the table; a count of zero is refused. -/
theorem test_ht_news :
    got (fun t => (t.di, t.status)) (exec (.htNews 1) withC) = some (some (.s2c [[]]), 0x0010) ∧
    reply [0x10, 0, 0] withC = some [0x82, 0, 0] := by decide

theorem test_ht_newc :
    got (fun t => (t.di, t.status)) (exec (.htNewc 1) withS) = some (some (.c2s [[]]), 0x0030) ∧
    reply [0x11, 0, 0] withS = some [0x82, 0, 0] := by decide

/-- L2.2: with H31, bucket `i` holds exactly `([i], i)`. -/
theorem test_ht_inits :
    got (fun t => match t.di with | some (.s2c b) => (b.length, b.getD 65 []) | some (.c2s _) => (0, []) | none => (0, []))
      (exec .htInits (fresh [])) = some (256, [([65], 65)]) := by decide +kernel

/-- L2.1: every bucket `i` holds exactly `(i, [i])`. -/
theorem test_ht_initc :
    got (fun t => match t.di with | some (.c2s b) => (b.length, b.getD 255 []) | some (.s2c _) => (0, []) | none => (0, []))
      (exec .htInitc (fresh [])) = some (256, [(255, [255])]) := by decide +kernel

/-- L2.2: a duplicate key is stored at the tail; the empty string is a legal key. -/
theorem test_ht_puts :
    got State.di (exec (.htPuts [0x61] 300) withS) =
      some (some (.s2c [[([], 0)], [([0x61], 7), ([0x61, 0x62], 4095), ([0x61], 9), ([0x61], 300)], [], []])) ∧
    reply [0x14, 0, 0, 0, 0] withC = some [0x83, 0, 0] := by decide

/-- L2.1: 9 mod 4 = 1. -/
theorem test_ht_putc :
    got State.di (exec (.htPutc 9 []) withC) =
      some (some (.c2s [[], [(1, [0x61]), (5, [0x62]), (1, [0x7A]), (9, [])], [], []])) := by decide

/-- L2.2: the first match, a longer key, the empty key, a miss. -/
theorem test_ht_gets :
    reply [0x16, 0, 0, 0, 1, 0x61] withS = some [0, 0, 7] ∧ reply [0x16, 0, 0, 0, 2, 0x61, 0x62] withS = some [0, 0x0F, 0xFF] ∧
    reply [0x16, 0, 0, 0, 0] withS = some [0, 0, 0] ∧ reply [0x16, 0, 0, 0, 1, 0x62] withS = some [1, 0, 0] := by decide

/-- L2.1: the first match, behind a colliding entry, a miss in the same chain. -/
theorem test_ht_getc :
    reply [0x17, 0, 1] withC = some [0, 0, 0, 0, 1, 0x61] ∧ reply [0x17, 0, 5] withC = some [0, 0, 0, 0, 1, 0x62] ∧
    reply [0x17, 0, 9] withC = some [1, 0, 0] := by decide

theorem test_ht_hass :
    reply [0x18, 0, 0, 0, 2, 0x61, 0x62] withS = some [0, 0, 1] ∧
    reply [0x18, 0, 0, 0, 2, 0x62, 0x61] withS = some [0, 0, 0] := by decide

theorem test_ht_hasc :
    reply [0x19, 0, 5] withC = some [0, 0, 1] ∧ reply [0x19, 0, 2] withC = some [0, 0, 0] ∧
    reply [0x19, 0, 1] withS = some [0x83, 0, 0] := by decide

theorem test_ht_size :
    reply [0x1A, 0, 0] withC = some [0, 0, 4] ∧ reply [0x1A, 0, 0] (fresh []) = some [0x83, 0, 0] := by decide

/-- Program P1: `0A B0 CD`. -/
theorem test_pk_push :
    got (fun t => (t.pk, t.out)) (exec (.pkPush 0x0AB) (fresh [])) = some (⟨.second, 0x0A, 0xB0, 0⟩, []) ∧
    got (fun t => (t.pk, t.out)) (exec (.pkPush 0x0CD) (pending [])) = some (.clear, [0x0A, 0xB0, 0xCD]) := by decide

/-- L2.13: a refused second write leaves the completed triple and the phase. -/
theorem test_pk_push_refused :
    got (fun t => (t.pk, t.out, t.fsm, t.status)) (exec (.pkPush 0x0CD) (pending [.ok, .ioError])) =
      some (⟨.second, 0x0A, 0xB0, 0xCD⟩, [0x0A], .failed, 0x590A) := by decide

/-- L2.3: a tail; nothing pending. -/
theorem test_pk_flush :
    got (fun t => (t.pk, t.out)) (exec .pkFlush (pending [])) = some (.clear, [0x0A, 0xB0]) ∧
    reply [0x21, 0, 0] (fresh []) = some [0, 0, 0] := by decide

/-- L2.4. -/
theorem test_up_group :
    got (fun t => (t.cs.items, t.inp)) (exec .upGroup (fresh [0x0A, 0xBC, 0xD0, 0x12])) =
      some ([0x0AB, 0xCD0], [.byte 0x12]) ∧
    reply [0x30, 0, 0] (fresh [0xAA, 0xBB]) = some [1, 0, 2] := by decide

/-- L2.4: two groups and a tail of one byte. -/
theorem test_up_all :
    got (fun t => (t.cs, t.rsp)) (exec .upAll (fresh [0xFF, 0xFF, 0xFF, 0x12, 0x34, 0x56, 0x7F])) =
      some (⟨[4095, 4095, 0x123, 0x456], 0⟩, [.r .ok 1]) := by decide

/-- L2.5. -/
theorem test_cs_clear : got State.cs (exec .csClear (seqAt 1)) = some ⟨[], 0⟩ := by decide
theorem test_cs_append : got State.cs (exec (.csAppend 256) (seqAt 1)) = some ⟨[4095, 0, 256], 1⟩ := by decide
theorem test_cs_reset : got State.cs (exec .csReset (seqAt 2)) = some ⟨[4095, 0], 0⟩ := by decide
theorem test_cs_next :
    reply [0x43, 0, 0] (seqAt 0) = some [0, 0x0F, 0xFF] ∧ reply [0x43, 0, 0] (seqAt 2) = some [0x84, 0, 0] ∧
    got (fun t => t.cs.cursor) (exec .csNext (seqAt 2)) = some 2 := by decide
theorem test_cs_hasnext :
    reply [0x44, 0, 0] (seqAt 1) = some [0, 0, 1] ∧ reply [0x44, 0, 0] (seqAt 2) = some [0, 0, 0] := by decide

/-- L2.6: "ABA", an odd number of codes. -/
theorem test_lzw_compress :
    got (fun t => (t.out, t.next, t.pfx, t.status)) (exec .lzwCompress (fresh [0x41, 0x42, 0x41])) =
      some ([0x04, 0x10, 0x42, 0x04, 0x10], 258, [0x41], 0x0511) := by decide +kernel

/-- L2.8: `65, 256`, the synthesis case at the second code. -/
theorem test_lzw_decompress :
    got (fun t => (t.out, t.next, t.prev, t.status)) (exec .lzwDecompress (fresh [0x04, 0x11, 0x00])) =
      some ([0x41, 0x41, 0x41], 257, 256, 0x0531) := by decide +kernel

/-! ### The rules of the engines, one at a time -/

/-- L2.13: a write refused in `EMIT` leaves the string, `NEXT` and the completed triple. -/
def emitting (sink : List WriteAnswer) : State :=
  { pending sink with di := some (.s2c tableS), fsm := .emit, next := 4095, pfx := [0x61], cur := 0x62 }

theorem test_emit_order :
    compressEmit (emitting [.ioError]) = .raise .outputIoError
      { emitting [] with pk := ⟨.second, 0x0A, 0xB0, 7⟩, hist := [.write 0x0A false] } := by decide

/-- A decompressor at a code, with this `PREV` and these codes left. -/
def looping (prev : Code) (codes : List Code) (next : NextCode) (sink : List WriteAnswer) : State :=
  { withC with fsm := .dLoop, prev := prev, cs := ⟨codes, 0⟩, next := next, sink := sink }

/-- R245: a write refused in `D_LOOP` comes after the put and before the increment. -/
theorem test_loop_order :
    (match decompressLoop (looping 1 [5] 256 [.ioError]) with
      | .raise .outputIoError t => some (t.next, t.prev, t.getCode 256)
      | .raise .internalLookupMiss _ => none
      | .ok _ _ => none
      | .stuck _ => none) = some (256, 1, some [0x61, 0x62]) := by decide

/-- R242: the code is taken, nothing else but `SKIP`. -/
theorem test_loop_skip :
    decompressLoop (looping 9 [5] 256 []) =
      .ok () { looping 9 [5] 256 [] with cs := ⟨[5], 1⟩, sticky := ⟨false, false, true, 0⟩ } := by decide

/-- R204: the check finds `NEXT = 4096` before the read. -/
theorem test_accumulate_resets :
    (match compressAccumulate { fresh [0x42] with fsm := .accumulating, next := 4096, pfx := [0x41] } with
      | .ok _ t => some (t.next, t.fsm, t.hist)
      | .raise _ _ => none
      | .stuck _ => none) = some (256, .emit, [.tableReset, .read (some 0x42)]) := by decide +kernel

/-! ### Witnesses: the hypotheses of each statement can be met -/

/-- DecodeOfEncodeIsIdentity, at the ends of the operands. -/
theorem witness_wellFormed (v : Code) :
    (Instr.htNews 65535).wellFormed = true ∧ (Instr.htNewc 1).wellFormed = true ∧ (Instr.htPutc 4095 []).wellFormed = true ∧
    (Instr.htPuts longest v).wellFormed = true := ⟨rfl, rfl, rfl, test_wf_puts_longest v⟩

/-- EncodeOfDecodeIsIdentity. -/
theorem witness_decodes : decode [0x17, 0x0F, 0xFF] = .ok (.htGetc 4095) := rfl

/-- ReservedOpcodesAreIllegal: the bytes at both ends of each range, and the listed bytes beside them. -/
theorem witness_reserved :
    (∀ op ∈ ([0x00, 0x04, 0x0F, 0x1B, 0x1F, 0x22, 0x2F, 0x32, 0x3F, 0x45, 0x4F, 0x52, 0xFF] : List Byte), reservedOpcode op) ∧
    ∀ op ∈ ([0x01, 0x03, 0x10, 0x1A, 0x20, 0x21, 0x30, 0x31, 0x40, 0x44, 0x50, 0x51] : List Byte), ¬ reservedOpcode op := by
  unfold reservedOpcode; decide

/-- The hypotheses inside `refusedWith`, `StepRunsTheDecodedInstruction` and `EachCommandGetsOneResponse`. -/
def waiting (p : Packet) : State := { fresh [] with cmd := [p] }

theorem witness_waiting :
    (waiting [0xFF]).fsm.isRest = true ∧ (waiting [0xFF]).cmd = [0xFF] :: [] ∧
    got State.rsp (step (waiting [0xFF])) = some [.r .eIllegal 0] := by decide

/-- WrongLengthsAreIllegal: too short, too long, and one string byte too few. -/
theorem witness_lengths :
    Opcode.format .pkPush = .c ∧ [0x00].length ≠ 2 ∧ [0, 0, 0].length ≠ 2 ∧ Opcode.format .htGets = .cs ∧
    ([0, 0, 0] : List Byte).length < 4 ∧
    ([0, 0, 0, 1] : List Byte).length ≠ 4 + (half (([0, 0, 0, 1] : List Byte).getD 2 0) (([0, 0, 0, 1] : List Byte).getD 3 0)).toNat := by
  decide

/-- BadOperandsAreRefused: each form at the first value it refuses. -/
theorem witness_operands :
    Opcode.immForm .pkPush = .code ∧ 4096 ≤ (4096 : Half).toNat ∧ Opcode.immForm .htPuts = .code ∧ Opcode.format .htPuts = .cs ∧
    Opcode.immForm .htNews = .n ∧ Opcode.format .htNews = .c ∧ Opcode.immForm .htGets = .zero ∧ (1 : Half) ≠ 0 ∧
    longest.length ≤ 65535 := ⟨rfl, by decide, rfl, rfl, rfl, rfl, rfl, by decide, longest_length⟩

/-- StepRunsTheDecodedInstruction: a command waiting, no command, a table word, also in the middle of a run. -/
theorem witness_step :
    decode [0x43, 0, 0] = .ok .csNext ∧ (fresh []).fsm.isRest = true ∧ (fresh []).cmd = [] ∧
    decodeTableWord 24 0x430000 = some .csNext ∧ (emitting []).fsm.isRest = false := by decide

/-- EachCommandGetsOneResponse, EveryStepKeepsTheInvariant, StreamsOnlyMoveForward: a step that has a next state. -/
theorem witness_next :
    got State.rsp (step (waiting [0x02, 0, 0])) = some [.r .ok 0] ∧ got State.rsp (step (waiting [0x43, 0, 0])) = some [.r .eSeqend 0] := by
  decide

/-- EveryStepKeepsTheInvariant: a state with a table, a sequence, a pending code and a command meets the invariant. -/
theorem witness_inv :
    Inv { waiting [0x02, 0, 0] with di := some (.c2s tableC), cs := ⟨[1], 1⟩, pk := ⟨.second, 1, 0x10, 0⟩, next := 4096 } where
  rest := rfl
  buckets := by rintro d ⟨⟩; decide
  chains := by
    rintro d ⟨⟩ i e he
    match i with
    | 0 | 2 | 3 => simp [tableC] at he
    | 1 => simp [tableC] at he; rcases he with rfl | rfl | rfl <;> rfl
    | i + 4 => simp [tableC] at he
  cursor := by decide
  buffer := by intro h; simp at h
  next := by decide
  err := by decide
  done := by decide
  idle := by decide

/-- NextAtRestStaysBelow4096: both ends. -/
theorem witness_next_range :
    (fresh []).fsm.isRest = true ∧ 256 ≤ (256 : NextCode).toNat ∧ (4095 : NextCode).toNat ≤ 4095 ∧
    step { fresh [] with next := 4095 } = .next { fresh [] with next := 4095 } := ⟨rfl, by decide, by decide, rfl⟩

/-- EveryCommandCompletes: an input, a refusing sink. -/
theorem witness_answering : answering { fresh [1, 2, 3] with sink := [.ok, .ioError] } := by
  refine ⟨by decide, ?_⟩
  simp

/-- StepsStopOnlyAtASilentCollaborator: a source that never answers, a sink that never answers. -/
theorem witness_stuck :
    step { waiting [0x30, 0, 0] with inp := [.byte 1, .byte 2, .silent] } =
      .fault (.readBlocked [1, 2] { fresh [] with inp := [.silent], hist := [.read (some 1), .read (some 2)] }) ∧
    step { pending [.silent] with cmd := [[0x21, 0, 0]] } = .fault (.writeBlocked 0x0A (pending [.silent])) := ⟨rfl, rfl⟩

/-- WriteOwnership, RefusedWriteEndsTheCommand: a command with a next state, answered `OK`, an error, `E_IO`; and a command
in `FAILED` that is no run. -/
theorem witness_exec :
    got State.rsp (exec .csClear (fresh [])) = some [.r .ok 0] ∧
    got State.rsp (exec .htSize (fresh [])) = some [.r .eNoinst 0] ∧
    got (fun t => (t.rsp, t.fsm, t.hist)) (exec .pkFlush (pending [.ok, .ioError])) =
      some ([.r .eIo 0], .failed, [.write 0x0A true, .write 0xB0 false]) ∧
    got State.fsm (exec .csClear { fresh [] with fsm := .failed }) = some .failed := by decide

/-- NewBuildsAnEmptyTable, InitsHoldsTheSingles, InitcHoldsTheSingles. -/
theorem witness_tables : (1 : Half) ≠ 0 ∧ (65535 : Half) ≠ 0 ∧ ([] : Str).length ≠ 1 ∧ ([0, 0] : Str).length ≠ 1 ∧
    256 ≤ (256 : Code).toNat ∧ 256 ≤ (4095 : Code).toNat := by decide

/-- MissingTableIsRefused: no table, and a table of the other kind. -/
theorem witness_missing :
    (∀ b, (fresh []).di ≠ some (.s2c b)) ∧ (∀ b, withC.di ≠ some (.s2c b)) ∧ (∀ b, withS.di ≠ some (.c2s b)) ∧
    (fresh []).di = none := by
  refine ⟨?_, ?_, ?_, rfl⟩ <;> intro b h <;> simp [withC, withS, fresh, State.reset] at h

/-- The statements on puts, gets, contains and size: a table of each kind with at least one chain. -/
theorem witness_table :
    withS.di = some (.s2c tableS) ∧ 0 < tableS.length ∧ withC.di = some (.c2s tableC) ∧ 0 < tableC.length := by decide

/-- GetsAnswersTheFirstMatch: a match and a miss in the same chain. -/
theorem witness_gets :
    find (tableS.getD (idxStr withS.hash tableS.length [0x61]).toNat []) [0x61] = some 7 ∧
    find (tableS.getD (idxStr withS.hash tableS.length [0x65]).toNat []) [0x65] = none := by decide

/-- GetcAnswersTheFirstMatch: a match, a miss, the longest string sent whole and the shortest that is cut. -/
theorem witness_getc :
    find (tableC.getD ((5 : Code).toNat % tableC.length) []) 5 = some [0x62] ∧
    find (tableC.getD ((9 : Code).toNat % tableC.length) []) 9 = none ∧
    find ((([[(0, longest)]] : List (List (Code × Str))).getD ((0 : Code).toNat % 1)) []) 0 = some longest ∧
    longest.length ≤ 65535 ∧
    find ((([[(0, tooLong)]] : List (List (Code × Str))).getD ((0 : Code).toNat % 1)) []) 0 = some tooLong ∧
    65535 < tooLong.length :=
  ⟨by decide, by decide, rfl, longest_length, rfl, Nat.lt_of_not_le tooLong_length⟩

/-- ContainsAgreesWithGet: a get that answers `OK`, and one that does not. -/
theorem witness_contains :
    exec (.htGets [0x61]) withS = .next { withS with rsp := withS.rsp ++ [.r .ok 7] } ∧
    (∀ v, exec (.htGets [0x62]) withS ≠ .next { withS with rsp := withS.rsp ++ [.r .ok v] }) ∧
    exec (.htGetc 5) withC = .next { withC with rsp := withC.rsp ++ [.rs .ok 0 [0x62]] } ∧
    ∀ v str, exec (.htGetc 9) withC ≠ .next { withC with rsp := withC.rsp ++ [.rs .ok v str] } := by
  refine ⟨rfl, fun v h => ?_, rfl, fun v str h => ?_⟩
  · exact absurd ((show exec (.htGets [0x62]) withS = .next { withS with rsp := [.r .nothing 0] } from rfl).symm.trans h)
      (by simp [withS, fresh, State.reset])
  · exact absurd ((show exec (.htGetc 9) withC = .next { withC with rsp := [.r .nothing 0] } from rfl).symm.trans h)
      (by simp [withC, fresh, State.reset])

/-- RunsDoNotDependOnTheHash, CompressNeverMissesItsString, DecompressorKeysAreBelowNext, DecompressReadsBeforeItWrites:
runs that end, with either hash. -/
theorem witness_runs :
    (∃ t, exec .lzwCompress (fresh []) = .next t) ∧ (∃ t, exec .lzwCompress { fresh [] with hash := .given } = .next t) ∧
    (∃ t, exec .lzwDecompress (fresh []) = .next t ∧ t.fsm = .done) ∧
    ∃ t, exec .lzwDecompress { fresh [] with hash := .given } = .next t :=
  ⟨⟨_, rfl⟩, ⟨_, rfl⟩, ⟨_, rfl, rfl⟩, ⟨_, rfl⟩⟩

/-- PushBuffersThenWritesATriple, FlushWritesTheTail: both phases, sinks that accept, and sinks that refuse the first and
the last write. -/
theorem witness_packer :
    (fresh []).pk.phase = .first ∧ (pending []).pk.phase = .second ∧ accepting ((pending [.ok, .ok, .ok, .ioError]).sink.take 3) ∧
    accepting ((pending [.ok, .ok, .ioError]).sink.take 2) ∧
    (pending [.ioError]).sink = List.replicate 0 .ok ++ .ioError :: [] ∧
    (pending [.ok, .ok, .ioError, .ok]).sink = List.replicate 2 .ok ++ .ioError :: [.ok] ∧
    (pending [.ok, .ioError]).sink = List.replicate 1 .ok ++ .ioError :: [] :=
  ⟨rfl, rfl, by simp [accepting, pending], by simp [accepting, pending], rfl, rfl, rfl⟩

/-- PushesAndAFlushPack: an accepting sink, of finite and of no script. -/
theorem witness_accepting :
    (fresh []).pk.phase = .first ∧ accepting (fresh []).sink ∧ accepting [.ok, .ok] := by
  refine ⟨rfl, ?_, ?_⟩ <;> simp [accepting, fresh, State.reset]

/-- PackAndUnpackAreInverse: even, odd, whole groups. -/
theorem witness_parity :
    ([] : List Code).length % 2 = 0 ∧ ([1, 2] : List Code).length % 2 = 0 ∧ ([1] : List Code).length % 2 = 1 ∧
    ([] : List Byte).length % 3 = 0 ∧ ([1, 2, 3] : List Byte).length % 3 = 0 := by decide

/-- GroupAppendsTwoCodesOrNone: a whole group with more behind it; streams that end after 0 and after 2 bytes, by an
answer and by the end of the script. -/
theorem witness_group :
    (fresh [1, 2, 3, 4]).inp = [.byte 1, .byte 2, .byte 3] ++ [.byte 4] ∧
    ({ fresh [] with inp := [.endOfStream, .byte 1] } : State).inp = ([] : List Byte).map .byte ++ .endOfStream :: [.byte 1] ∧
    ([] : List Byte).length < 3 ∧ (fresh [1, 2]).inp = ([1, 2] : List Byte).map .byte ∧ ([1, 2] : List Byte).length < 3 := by
  decide

/-- UpAllUnpacksTheStream and the statements on runs: a stream that ends by the script's end, and one by an answer. -/
theorem witness_stream :
    streamOf (fresh [1, 2]).inp = some ([1, 2], []) ∧ streamOf [] = some ([], []) ∧
    streamOf [.byte 7, .endOfStream, .byte 8] = some ([7], [.byte 8]) := by decide

/-- SequenceOperations, NextAdvancesOrEnds, TraversalAnswersTheElementsInOrder: the last element, the end, all of them. -/
theorem witness_sequence :
    (seqAt 1).cs.cursor < (seqAt 1).cs.items.length ∧ (seqAt 2).cs.items.length ≤ (seqAt 2).cs.cursor ∧
    (seqAt 1).cs.items[(seqAt 1).cs.cursor]? = some 0 ∧ 0 ≤ (seqAt 0).cs.items.length ∧ 2 ≤ (seqAt 0).cs.items.length := by
  decide

/-- RefusedWriteKeepsPseudocodeOrder: the compressor's case is `test_emit_order`; the decompressor's with the current code
present and absent. -/
theorem witness_refused :
    (looping 1 [5] 256 [.ioError]).di = some (.c2s tableC) ∧
    (∃ t, decompressCode [0x61] 5 (looping 1 [] 4095 [.ioError]) = .raise .outputIoError t) ∧
    (∃ t, decompressCode [0x61] 9 (looping 1 [] 256 [.ok, .ioError]) = .raise .outputIoError t) ∧
    getC tableC 5 = some [0x62] ∧ getC tableC 9 = none :=
  ⟨rfl, ⟨_, rfl⟩, ⟨_, rfl⟩, by decide, by decide⟩

/-- EngineTransitions: a rule that ends, and one whose write is refused. -/
theorem witness_transition :
    (∃ t, engineStep (emitting []) = .ok () t) ∧ (emitting []).fsm.isRest = false ∧
    ∃ t, engineStep (emitting [.ioError]) = .raise .outputIoError t := ⟨⟨_, rfl⟩, rfl, ⟨_, rfl⟩⟩

/-- TableResetTouchesTheTableOnly: the full table of each kind, and the value before. -/
theorem witness_full :
    ({ withS with next := 4096 } : State).next = 4096 ∧ (∃ b, withS.di = some (.s2c b)) ∧ (∃ b, withC.di = some (.c2s b)) ∧
    ({ withS with next := 4095 } : State).next ≠ 4096 := ⟨rfl, ⟨_, rfl⟩, ⟨_, rfl⟩, by decide⟩

/-- CompressOfEmptyAndOfOneByte, CompressWritesThePackedCodes, DecompressWritesTheExpandedCodes. -/
theorem witness_compress :
    streamOf (fresh []).inp = some ([], []) ∧ streamOf (fresh [0xFF]).inp = some ([0xFF], []) ∧ accepting (fresh [0xFF]).sink := by
  refine ⟨rfl, rfl, ?_⟩
  simp [accepting, fresh, State.reset]

/-- CompressBounds, RoundTripThroughTheWire: "AB" has two codes and one assignment, "A" one code (L2.6). -/
theorem witness_codes :
    ([0x41] : List Byte) ≠ [] ∧ (codes [0x41, 0x42]).length % 2 = 0 ∧ (codes [0x41]).length % 2 = 1 ∧
    .assign 256 [0x41, 0x42] ∈ (codesRun [0x41, 0x42]).2 := by decide +kernel

/-- AbsentCodesAreSkipped: the smallest and the largest absent first code (L2.9), and a loop state whose `PREV` is absent. -/
theorem witness_absent :
    unpack [0x10, 0x00, 0x41] = 256 :: [0x041] ∧ unpack [0xFF, 0xFF, 0xFF] = 4095 :: [4095] ∧
    streamOf (fresh [0xFF, 0xFF, 0xFF]).inp = some ([0xFF, 0xFF, 0xFF], []) ∧
    (looping 9 [5] 256 []).fsm = .dLoop ∧ (looping 9 [5] 256 []).cs.cursor < (looping 9 [5] 256 []).cs.items.length ∧
    (looping 9 [5] 256 []).next ≠ 4096 ∧ (looping 9 [5] 256 []).getCode (looping 9 [5] 256 []).prev = none := by decide

/-- CompressorStreamsAreNeverSkipped: "AB" is the stream `04 10 42` (L2.6). -/
theorem witness_own_stream :
    streamOf (fresh [0x04, 0x10, 0x42]).inp = some (pack (codes [0x41, 0x42]), []) ∧ accepting (fresh [0x04]).sink := by
  refine ⟨by decide +kernel, ?_⟩
  simp [accepting, fresh, State.reset]

end Sys2Proof.Tests
end

section
/-! SUPPORT. What holds wherever a command or a piece of pseudocode ends: one rule for each shared operation, so that an
invariant and a frame go through the same rules. -/

namespace Sys2Proof.Machine

variable {α β : Type} {s t : State} {P Q : State → Prop}

/-- Every next state of this outcome has `Q`; an outcome that is no next state says nothing. -/
def Ensures (Q : State → Prop) : Result → Prop
  | .next t => Q t
  | .fault _ => True
  | .refused _ => True

theorem Ensures.of_next {r : Result} (h : Ensures Q r) (hr : r = .next t) : Q t := by
  subst hr; exact h

/-- Every state in which the pseudocode ends has `P`, whether it ends normally or by a raise. -/
def Res.Ends (P : State → Prop) : Res α → Prop
  | .ok _ t => P t
  | .raise _ t => P t
  | .stuck _ => True

theorem Res.Ends.of_ok {r : Res α} {a : α} (h : r.Ends P) (hr : r = .ok a t) : P t := by
  subst hr; exact h

theorem Res.Ends.of_raise {r : Res α} {c : Cause} (h : r.Ends P) (hr : r = .raise c t) : P t := by
  subst hr; exact h

/-- Sequencing: the second part starts where the first ended normally; a raise of the first ends the whole. -/
theorem Res.Ends.bind {r : Res α} {f : α → State → Res β} (h : r.Ends P) (hPQ : ∀ u, P u → Q u)
    (hf : ∀ a u, P u → (f a u).Ends Q) : (r.bind f).Ends Q := by
  cases r with
  | ok a u => exact hf a u h
  | raise c u => exact hPQ u h
  | stuck e => trivial

/-- A command ends by its response or by the exception entry. -/
theorem Res.Ends.answer {r : Res α} {k : α → State → State} (h : r.Ends P) (hok : ∀ a u, P u → Q (k a u))
    (hraise : ∀ c u, r = .raise c u → P u → Q (takeException c u)) : Ensures Q (r.answer k) := by
  cases r with
  | ok a u => exact hok a u h
  | raise c u => exact hraise c u rfl h
  | stuck e => trivial

/-! ### Predicates that a read, a write or a move of the packer cannot break -/

/-- A read does not break `P`: it moves the script of `IN` and the history (R62). -/
def ReadStable (P : State → Prop) : Prop := ∀ s inp hist, P s → P { s with inp := inp, hist := hist }

/-- A write does not break `P`: it moves the script of the sink, `OUT` and the history (R63). -/
def WriteStable (P : State → Prop) : Prop :=
  ∀ s sink out hist, P s → P { s with sink := sink, out := out, hist := hist }

/-- In phase `FIRST` the Bit Buffer is zero (R31). -/
def Packer.Tidy (p : Packer) : Prop := p.phase = .first → p = .clear

/-- Moving the packer from tidy to tidy does not break `P` (R31). -/
def PackerStable (P : State → Prop) : Prop := ∀ s pk, pk.Tidy → P s → P { s with pk := pk }

theorem Packer.tidy_clear : Packer.clear.Tidy := fun _ => rfl

theorem Packer.tidy_of_second {p : Packer} (h : p.phase = .second) : p.Tidy := fun hf => by simp [h] at hf

theorem readByte_ends (hr : ReadStable P) (held : List Byte) (h : P s) : (readByte held s).Ends P := by
  cases hb : readByte held s with
  | ok r t => rw [readByte_frame hb]; exact hr _ _ _ h
  | raise c t => exact absurd hb readByte_ne_raise
  | stuck e => trivial

theorem emitStr_ends (hw : WriteStable P) (str : Str) (h : P s) : (emitStr str s).Ends P := by
  cases hb : emitStr str s with
  | ok u t => rw [emitStr_ok hb]; exact hw _ _ _ _ h
  | raise c t =>
    obtain ⟨-, hframe, -⟩ := emitStr_raise hb
    rw [hframe]
    exact hw _ _ _ _ h
  | stuck e => trivial

theorem pkPushBody_ends (hw : WriteStable P) (hp : PackerStable P) (c : Code) (h : P s) : (pkPushBody c s).Ends P := by
  cases hph : s.pk.phase with
  | first =>
    rw [pkPushBody_first c hph]
    exact hp s _ (Packer.tidy_of_second rfl) h
  | second =>
    rw [pkPushBody_second c hph]
    have hpair : P (s.completePair c) := hp s _ (Packer.tidy_of_second hph) h
    exact (emitStr_ends hw _ hpair).bind (fun _ => id) fun _ u hu => hp u _ Packer.tidy_clear hu

theorem pkFlushBody_ends (hw : WriteStable P) (hp : PackerStable P) (h : P s) : (pkFlushBody s).Ends P := by
  cases hph : s.pk.phase with
  | first => rw [pkFlushBody_first hph]; exact h
  | second =>
    rw [pkFlushBody_second hph]
    exact (emitStr_ends hw _ h).bind (fun _ => id) fun _ u hu => hp u _ Packer.tidy_clear hu

/-- Appending to the sequence does not break `P` (R182). -/
def AppendStable (P : State → Prop) : Prop := ∀ s codes, P s → P (s.appendCodes codes)

theorem upGroupBody_ends (hr : ReadStable P) (ha : AppendStable P) (h : P s) : (upGroupBody s).Ends P := by
  refine (readByte_ends hr _ h).bind (fun _ => id) fun r0 u0 h0 => ?_
  cases r0 with
  | none => exact h0
  | some b0 =>
    refine (readByte_ends hr _ h0).bind (fun _ => id) fun r1 u1 h1 => ?_
    cases r1 with
    | none => exact h1
    | some b1 =>
      refine (readByte_ends hr _ h1).bind (fun _ => id) fun r2 u2 h2 => ?_
      cases r2 with
      | none => exact h2
      | some b2 => exact ha u2 _ h2

theorem upAllLoop_ends (hr : ReadStable P) (ha : AppendStable P) (k : Nat) (h : P s) : (upAllLoop k s).Ends P := by
  induction k generalizing s with
  | zero => trivial
  | succ k ih =>
    refine (upGroupBody_ends hr ha h).bind (fun _ => id) fun r u hu => ?_
    cases r with
    | ended n => exact hu
    | whole => exact ih hu

theorem emitPfx_ends (hw : WriteStable P) (hp : PackerStable P) (h : P s) : (emitPfx s).Ends P := by
  unfold emitPfx
  cases s.getStr s.pfx with
  | none => exact h
  | some c => exact pkPushBody_ends hw hp c h

/-- A run whose rules keep `P` is answered from a state at rest with `P`, or takes its exception from a state with `P`. -/
theorem runEngine_ensures {k : Unit → State → State} (n : Nat) (hstep : ∀ s, P s → (engineStep s).Ends P) (h : P s)
    (hok : ∀ u, P u → u.fsm.isRest = true → Q (k () u)) (hraise : ∀ c u, P u → Q (takeException c u)) :
    Ensures Q ((runEngine n s).answer k) := by
  have hrun := runEngine_induct (fun s _ hs _ he => (hstep s hs).of_ok he) n s h
  cases hr : runEngine n s with
  | ok a u =>
    obtain ⟨hu, hrest⟩ := hrun.1 u hr
    exact hok u hu hrest
  | raise c u =>
    obtain ⟨v, hv, -, he⟩ := hrun.2 c u hr
    exact hraise c u ((hstep v hv).of_raise he)
  | stuck e => trivial

/-! ### Tables and the step -/

theorem withS2C_ensures {f : List (List (Str × Code)) → Result} (hf : ∀ b, s.di = some (.s2c b) → Ensures Q (f b))
    (herr : Q (respondError .eNoinst s)) : Ensures Q (withS2C s f) := by
  obtain ⟨b, hb, hw⟩ | ⟨-, hw⟩ := withS2C_cases s f
  · rw [hw]; exact hf b hb
  · rw [hw]; exact herr

theorem withC2S_ensures {f : List (List (Code × Str)) → Result} (hf : ∀ b, s.di = some (.c2s b) → Ensures Q (f b))
    (herr : Q (respondError .eNoinst s)) : Ensures Q (withC2S s f) := by
  obtain ⟨b, hb, hw⟩ | ⟨-, hw⟩ := withC2S_cases s f
  · rw [hw]; exact hf b hb
  · rw [hw]; exact herr

/-- An insertion of the compressor touches the table and the history only (R206, R221). -/
theorem assignStr_frame (s : State) (k : Str) (v : Code) :
    s.assignStr k v = { s with di := (s.assignStr k v).di, hist := s.hist ++ [.assign v k] } := by
  unfold State.assignStr
  split <;> rfl

/-- An insertion of the decompressor touches the table and the history only (R240, R253). -/
theorem assignCode_frame (s : State) (k : Code) (v : Str) :
    s.assignCode k v = { s with di := (s.assignCode k v).di, hist := s.hist ++ [.assign k v] } := by
  unfold State.assignCode
  split <;> rfl

/-- What the core does at rest: wait with no command, refuse a packet that is none, or execute its instruction (R101,
R109, R302). -/
theorem step_rest_cases (h : s.fsm.isRest = true) :
    (s.cmd = [] ∧ step s = .next s) ∨
    ∃ p rest, s.cmd = p :: rest ∧
      ((∃ e, decode p = .error e ∧ step s = .next (refuseCommand e { s with cmd := rest })) ∨
        ∃ i, decode p = .ok i ∧ step s = exec i { s with cmd := rest }) := by
  have hstep : step s = match takeCommand s with
      | none => .next s
      | some (p, s) =>
        match decode p with
        | .error e => .next (refuseCommand e s)
        | .ok i => exec i s := by
    unfold step
    cases hf : s.fsm <;> simp [Fsm.isRest, hf] at h <;> rfl
  cases hc : s.cmd with
  | nil => exact .inl ⟨rfl, by rw [hstep]; simp [takeCommand, hc]⟩
  | cons p rest =>
    refine .inr ⟨p, rest, rfl, ?_⟩
    cases hd : decode p with
    | error e => exact .inl ⟨e, rfl, by rw [hstep]; simp [takeCommand, hc, hd]⟩
    | ok i => exact .inr ⟨i, rfl, by rw [hstep]; simp [takeCommand, hc, hd]⟩

end Sys2Proof.Machine
end

section
/-! SUPPORT. The invariant through tables, units, engine rules and commands (O11, O12). -/

namespace Sys2Proof.Safety

open Sys2Proof.Machine

variable {s t : State}

/-! ### Tables -/

/-- A table that is sound: 1..65535 buckets, every entry in the bucket of its key (R23, R65). -/
def TableOk (h : HashFn) (d : Dict) : Prop := (1 ≤ d.size ∧ d.size ≤ 65535) ∧ placed h d

/-- One more entry in the bucket of its key keeps all entries where their keys say, for a key of either kind. -/
theorem placed_appendAt {κ ν : Type} {idx : κ → Int} {b : List (List (κ × ν))} {key : κ} {value : ν}
    (hb : ∀ i, ∀ e ∈ b.getD i [], idx e.1 = i) (hkey : 0 ≤ idx key ∧ idx key < b.length) :
    ∀ i, ∀ e ∈ (appendAt b (idx key).toNat (key, value)).getD i [], idx e.1 = i := by
  intro i e he
  obtain ⟨h0, hlt⟩ := hkey
  rw [appendAt_getD b _ _ _ (by omega)] at he
  split at he
  · rename_i hi
    obtain he | he := List.mem_append.mp he
    · rw [hi]; exact hb _ e he
    · obtain rfl := List.mem_singleton.mp he
      simp only
      omega
  · exact hb i e he

theorem TableOk.putS {h : HashFn} {b : List (List (Str × Code))} (hb : TableOk h (.s2c b)) (key : Str) (value : Code) :
    TableOk h (.s2c (putS h b key value)) := by
  obtain ⟨hsize, hplaced⟩ := hb
  refine ⟨by simpa [Dict.size] using hsize, fun i e he => ?_⟩
  rw [putS_length]
  exact placed_appendAt hplaced (idxStr_range h hsize.1 key) i e he

theorem TableOk.putC {h : HashFn} {b : List (List (Code × Str))} (hb : TableOk h (.c2s b)) (key : Code) (value : Str) :
    TableOk h (.c2s (putC b key value)) := by
  obtain ⟨hsize, hplaced⟩ := hb
  refine ⟨by simpa [Dict.size] using hsize, fun i e he => ?_⟩
  rw [putC_length]
  exact placed_appendAt hplaced (idxCode_range hsize.1 key) i e he

theorem tableOk_emptyS (h : HashFn) {n : Nat} (hn : 1 ≤ n ∧ n ≤ 65535) : TableOk h (.s2c (emptyTable _ n)) :=
  ⟨by simpa [Dict.size] using hn, fun i e he => by rw [emptyTable_getD] at he; simp at he⟩

theorem tableOk_emptyC (h : HashFn) {n : Nat} (hn : 1 ≤ n ∧ n ≤ 65535) : TableOk h (.c2s (emptyTable _ n)) :=
  ⟨by simpa [Dict.size] using hn, fun i e he => by rw [emptyTable_getD] at he; simp at he⟩

/-- The table of the 256 singles is sound whatever the hash (R137). -/
theorem tableOk_initS (h : HashFn) : TableOk h (.s2c (initS h)) :=
  List.foldlRecOn (motive := fun b => TableOk h (.s2c b)) allBytes _ (tableOk_emptyS h (by decide))
    fun _ hb b _ => hb.putS [b] (single b)

/-- The table of the 256 singles is sound (R138). -/
theorem tableOk_initC (h : HashFn) : TableOk h (.c2s initC) :=
  List.foldlRecOn (motive := fun b => TableOk h (.c2s b)) allBytes _ (tableOk_emptyC h (by decide))
    fun _ hb b _ => hb.putC (single b) [b]

/-! ### The part of the invariant that holds in the middle of a run too -/

/-- The units are sound: the part of `Inv` that does not speak of `FSM`. -/
structure UnitsOk (s : State) : Prop where
  /-- A table, if there is one, is sound (R23, R65). -/
  table : ∀ d, s.di = some d → TableOk s.hash d
  /-- The cursor is a position of the sequence or its end (R29). -/
  cursor : s.cs.cursor ≤ s.cs.items.length
  /-- In phase `FIRST` the Bit Buffer is zero (R31). -/
  buffer : s.pk.Tidy
  /-- `NEXT` lies in 256..4096 (R33). -/
  next : 256 ≤ s.next.toNat ∧ s.next.toNat ≤ 4096
  /-- `ERR` holds a code of R42. -/
  err : s.sticky.err.toNat ≤ 6

theorem Inv.units (h : Inv s) : UnitsOk s where
  table d hd := ⟨h.buckets d hd, h.chains d hd⟩
  cursor := h.cursor
  buffer := h.buffer
  next := h.next
  err := h.err

/-- At rest, sound units and the agreement of `DONE` and `IDLE` with the sticky bits are the invariant. -/
theorem UnitsOk.inv (h : UnitsOk s) (rest : s.fsm.isRest = true)
    (done : s.fsm = .done → s.sticky.done = true ∧ s.sticky.fail = false)
    (idle : s.fsm = .idle → s.sticky.done = false ∧ s.sticky.fail = false ∧ s.sticky.skip = false) : Inv s where
  rest := rest
  buckets d hd := (h.table d hd).1
  chains d hd := (h.table d hd).2
  cursor := h.cursor
  buffer := h.buffer
  next := h.next
  err := h.err
  done := done
  idle := idle

/-- A table put into `DI`. -/
theorem table_of_some {h : HashFn} {d : Dict} (hd : TableOk h d) : ∀ e, some d = some e → TableOk h e := by
  rintro e ⟨⟩; exact hd

theorem UnitsOk.table_assignStr (h : UnitsOk s) (key : Str) (value : Code) :
    ∀ d, (s.assignStr key value).di = some d → TableOk s.hash d := by
  intro d hd
  cases hs : s.di with
  | none => simp [State.assignStr, hs] at hd
  | some b =>
    cases b with
    | s2c b =>
      rw [assignStr_di hs] at hd
      exact table_of_some ((h.table _ hs).putS key value) d hd
    | c2s b => exact h.table d (by simpa [State.assignStr, hs] using hd)

theorem UnitsOk.table_assignCode (h : UnitsOk s) (key : Code) (value : Str) :
    ∀ d, (s.assignCode key value).di = some d → TableOk s.hash d := by
  intro d hd
  cases hs : s.di with
  | none => simp [State.assignCode, hs] at hd
  | some b =>
    cases b with
    | s2c b => exact h.table d (by simpa [State.assignCode, hs] using hd)
    | c2s b =>
      rw [assignCode_di hs] at hd
      exact table_of_some ((h.table _ hs).putC key value) d hd

theorem errField_le (rc : RetCode) : rc.errField.toNat ≤ 6 := by cases rc <;> decide

/-- Whatever was raised in a state with sound units, the exception entry ends at rest in `FAILED` with the invariant
(R280). -/
theorem UnitsOk.inv_takeException (h : UnitsOk s) (c : Cause) : Inv (takeException c s) := by
  have hfsm := takeException_fsm c s
  refine UnitsOk.inv ?_ (by rw [hfsm]; rfl) (by simp) (by simp)
  cases c with
  | outputIoError => exact { h with err := errField_le .eIo }
  | internalLookupMiss => exact { h with err := errField_le .eInternal }

/-! ### The rules of the engines -/

/-- What every control state of a run keeps: sound units, `FAIL` clear since the start, `DONE` set at the normal end, and a
free code where the compressor is about to insert (R33, R201 to R208, R231 to R246). -/
structure RunInv (s : State) : Prop extends UnitsOk s where
  fail : s.sticky.fail = false
  started : s.fsm ≠ .idle
  done : s.fsm = .done → s.sticky.done = true
  room : s.fsm = .emit → s.next.toNat ≤ 4095

/-- The run invariant where the table-reset check has just been made: a code is free (R205, R241). -/
structure CheckedInv (s : State) : Prop extends RunInv s where
  free : s.next.toNat ≤ 4095

theorem RunInv.readStable : ReadStable RunInv := fun _ _ _ h => { h with }
theorem RunInv.writeStable : WriteStable RunInv := fun _ _ _ _ h => { h with }
theorem CheckedInv.readStable : ReadStable CheckedInv := fun _ _ _ h => { h with }
theorem CheckedInv.writeStable : WriteStable CheckedInv := fun _ _ _ _ h => { h with }
theorem CheckedInv.packerStable : PackerStable CheckedInv := fun _ _ hp h => { h with buffer := hp }
theorem RunInv.packerStable : PackerStable RunInv := fun _ _ hp h => { h with buffer := hp }

theorem RunInv.appendStable : AppendStable RunInv := fun s codes h =>
  { h with cursor := h.cursor.trans (by simp) }

theorem firstFree_range : 256 ≤ Config.firstFree.toNat ∧ Config.firstFree.toNat ≤ 4096 := by decide

theorem firstFree_free : Config.firstFree.toNat ≤ 4095 := by decide

/-- One more assigned code keeps `NEXT` in range where one was free (R33). -/
theorem CheckedInv.next_succ (h : CheckedInv s) : 256 ≤ (s.next + 1).toNat ∧ (s.next + 1).toNat ≤ 4096 := by
  have := h.free
  have := h.next.1
  have hone : (1 : NextCode).toNat = 1 := rfl
  rw [BitVec.toNat_add, hone]
  omega

/-- `NEXT` other than `CODE_LIMIT` is below it (R33). -/
theorem UnitsOk.next_free (h : UnitsOk s) (hn : s.next ≠ 4096) : s.next.toNat ≤ 4095 := by
  have hne : s.next.toNat ≠ 4096 := fun he => hn (BitVec.eq_of_toNat_eq he)
  have := h.next.2
  omega

theorem RunInv.resetCheckS (h : RunInv s) : CheckedInv (resetCheckS s) := by
  by_cases hn : s.next = 4096
  · rw [resetCheckS_full hn]
    exact { h with table := table_of_some (tableOk_initS _), next := firstFree_range,
                    room := fun _ => firstFree_free, free := firstFree_free }
  · rw [resetCheckS_free hn]
    exact { h with free := h.next_free hn }

theorem RunInv.resetCheckC (h : RunInv s) : CheckedInv (resetCheckC s) := by
  by_cases hn : s.next = 4096
  · rw [resetCheckC_full hn]
    exact { h with table := table_of_some (tableOk_initC _), next := firstFree_range,
                    room := fun _ => firstFree_free, free := firstFree_free }
  · rw [resetCheckC_free hn]
    exact { h with free := h.next_free hn }

theorem RunInv.setDone (h : RunInv s) : RunInv s.setDone :=
  { h with started := nofun, done := fun _ => rfl, room := nofun }

theorem compressFirst_keeps_runInv (h : RunInv s) : (compressFirst s).Ends RunInv := by
  refine (readByte_ends RunInv.readStable _ h).bind (fun _ => id) fun r u hu => ?_
  cases r with
  | none => exact hu.setDone
  | some b => exact { hu with started := nofun, done := nofun, room := nofun }

theorem compressAccumulate_keeps_runInv (h : RunInv s) : (compressAccumulate s).Ends RunInv := by
  refine (readByte_ends CheckedInv.readStable _ h.resetCheckS).bind (fun _ => (·.toRunInv)) fun r u hu => ?_
  cases r with
  | none => exact { hu with started := nofun, done := nofun, room := nofun }
  | some b =>
    dsimp only
    split
    · exact { hu with started := nofun, done := nofun, room := nofun }
    · exact { hu with started := nofun, done := nofun, room := fun _ => hu.free }

theorem compressEmit_keeps_runInv (h : RunInv s) (hemit : s.fsm = .emit) : (compressEmit s).Ends RunInv := by
  have hchecked : CheckedInv s := { h with free := h.room hemit }
  refine (emitPfx_ends CheckedInv.writeStable CheckedInv.packerStable hchecked).bind (fun _ => (·.toRunInv))
    fun n u hu => ?_
  dsimp only
  rw [assignStr_frame]
  exact { hu with table := hu.table_assignStr _ _, next := hu.next_succ, started := nofun, done := nofun, room := nofun }

theorem compressDrain_keeps_runInv (h : RunInv s) : (compressDrain s).Ends RunInv := by
  refine (emitPfx_ends RunInv.writeStable RunInv.packerStable h).bind (fun _ => id) fun n u hu => ?_
  exact (pkFlushBody_ends RunInv.writeStable RunInv.packerStable hu).bind (fun _ => id) fun m v hv => hv.setDone

theorem decompressUnpack_keeps_runInv (h : RunInv s) : (decompressUnpack s).Ends RunInv := by
  refine (upGroupBody_ends RunInv.readStable RunInv.appendStable h).bind (fun _ => id) fun r u hu => ?_
  cases r with
  | whole => exact { hu with started := nofun, done := nofun, room := nofun }
  | ended n =>
    exact { hu with table := table_of_some (tableOk_initC _), cursor := Nat.zero_le _, next := firstFree_range,
                    started := nofun, done := nofun, room := nofun }

theorem decompressFirst_keeps_runInv (h : RunInv s) : (decompressFirst s).Ends RunInv := by
  unfold decompressFirst
  cases hc : csTake s with
  | none => exact h.setDone
  | some p =>
    obtain ⟨c, v⟩ := p
    obtain ⟨hlt, -, rfl⟩ := csTake_some hc
    dsimp only
    have htaken : RunInv { s with cs := ⟨s.cs.items, s.cs.cursor + 1⟩, prev := c } := { h with cursor := hlt }
    split
    · exact (emitStr_ends RunInv.writeStable _ htaken).bind (fun _ => id) fun _ u hu =>
        { hu with started := nofun, done := nofun, room := nofun }
    · exact { htaken with started := nofun, done := nofun, room := nofun }

theorem decompressCode_keeps_runInv (ps : Str) (cur : Code) (h : CheckedInv s) : (decompressCode ps cur s).Ends RunInv := by
  rw [decompressCode_eq, assignCode_frame]
  have hput : CheckedInv { s with
      di := (s.assignCode (nextCode s.next) (codeStrings ps (s.getCode cur)).2).di
      hist := s.hist ++ [.assign (nextCode s.next) (codeStrings ps (s.getCode cur)).2] } :=
    { h with table := h.table_assignCode _ _ }
  exact (emitStr_ends CheckedInv.writeStable _ hput).bind (fun _ => (·.toRunInv)) fun _ u hu =>
    { hu with next := hu.next_succ, started := nofun, done := nofun, room := nofun }

theorem decompressLoop_keeps_runInv (h : RunInv s) : (decompressLoop s).Ends RunInv := by
  obtain ⟨-, he⟩ | ⟨cur, v, hc, hcase⟩ := decompressLoop_eq s
  · rw [he]; exact h.setDone
  · obtain ⟨hlt, -, hv⟩ := csTake_some hc
    have htaken : CheckedInv v := by rw [hv]; exact { h.resetCheckC with cursor := hlt }
    obtain ⟨-, he⟩ | ⟨ps, -, he⟩ := hcase
    · rw [he]; exact { htaken with started := nofun, done := nofun, room := nofun }
    · rw [he]; exact decompressCode_keeps_runInv ps cur htaken

/-- Every rule of every control state keeps the run invariant, also where its write is refused. -/
theorem engineStep_keeps_runInv (s : State) (h : RunInv s) : (engineStep s).Ends RunInv := by
  unfold engineStep
  cases hf : s.fsm with
  | awaitingFirstByte => exact compressFirst_keeps_runInv h
  | accumulating => exact compressAccumulate_keeps_runInv h
  | emit => exact compressEmit_keeps_runInv h hf
  | drain => exact compressDrain_keeps_runInv h
  | unpacking => exact decompressUnpack_keeps_runInv h
  | dFirst => exact decompressFirst_keeps_runInv h
  | dLoop => exact decompressLoop_keeps_runInv h
  | idle | done | failed => exact h

/-! ### Commands -/

theorem Inv.respond (h : Inv s) (rc : RetCode) (val : Half) : Inv (respond rc val s) := { h with }

theorem Inv.respondStr (h : Inv s) (str : Str) : Inv (respondStr str s) := { h with }

theorem Inv.respondError (h : Inv s) (rc : RetCode) : Inv (respondError rc s) := { h with err := errField_le rc }

theorem Inv.withTable (h : Inv s) {d : Dict} (hd : TableOk s.hash d) : Inv { s with di := some d } :=
  { h with buckets := fun e he => (table_of_some hd e he).1, chains := fun e he => (table_of_some hd e he).2 }

theorem Inv.withSeq (h : Inv s) (cs : CodeSeq) (hcs : cs.cursor ≤ cs.items.length) : Inv { s with cs := cs } :=
  { h with cursor := hcs }

theorem Inv.readStable : ReadStable Inv := fun _ _ _ h => { h with }
theorem Inv.writeStable : WriteStable Inv := fun _ _ _ _ h => { h with }
theorem Inv.packerStable : PackerStable Inv := fun _ _ hp h => { h with buffer := hp }
theorem Inv.appendStable : AppendStable Inv := fun s _ h => h.withSeq _ (h.cursor.trans (by simp))

/-- Hardware reset establishes the invariant from any state (R46). -/
theorem inv_hardwareReset (s : State) : Inv (hardwareReset s) where
  rest := rfl
  buckets := nofun
  chains := nofun
  cursor := Nat.le_refl 0
  buffer _ := rfl
  next := by simp
  err := Nat.zero_le _
  done := nofun
  idle _ := ⟨rfl, rfl, rfl⟩

/-- A run from a state with the run invariant ends with the invariant, whatever it answers. -/
theorem run_ensures_inv (k : State → State) (hk : ∀ u, Inv u → Inv (k u)) (h : RunInv s) :
    Ensures Inv ((runEngine (runBudget s) s).answer fun _ u => k u) :=
  runEngine_ensures _ engineStep_keeps_runInv h
    (fun u hu hrest => hk u (hu.inv hrest (fun hd => ⟨hu.done hd, hu.fail⟩) fun hi => absurd hi hu.started))
    fun c _ hu => hu.inv_takeException c

theorem Inv.startCompress (h : Inv s) : RunInv (startCompress s) :=
  { h.units with
    table := table_of_some (tableOk_initS _), buffer := Packer.tidy_clear, next := firstFree_range, err := Nat.zero_le _,
    fail := rfl, started := nofun, done := nofun, room := nofun }

theorem Inv.startDecompress (h : Inv s) : RunInv (startDecompress s) :=
  { h.units with
    cursor := Nat.le_refl 0, err := Nat.zero_le _, fail := rfl, started := nofun, done := nofun, room := nofun }

/-- A bucket count that is not refused is 1..65535 (R135, R136). -/
theorem half_bucketCount {n : Half} (hn : n ≠ 0) : 1 ≤ n.toNat ∧ n.toNat ≤ 65535 := by
  have : n.toNat ≠ 0 := fun h => hn (BitVec.eq_of_toNat_eq h)
  omega

/-- Every command keeps the invariant. -/
theorem exec_keeps_inv (i : Instr) (h : Inv s) : Ensures Inv (exec i s) := by
  cases i with
  | sysReset => exact (inv_hardwareReset s).respond _ _
  | sysStatus | sysRdnext | csHasnext => exact h.respond _ _
  | htNews n =>
    show Ensures Inv (execHtNews n s)
    unfold execHtNews
    split
    · exact h.respondError _
    · exact (h.withTable (tableOk_emptyS _ (half_bucketCount ‹_›))).respond _ _
  | htNewc n =>
    show Ensures Inv (execHtNewc n s)
    unfold execHtNewc
    split
    · exact h.respondError _
    · exact (h.withTable (tableOk_emptyC _ (half_bucketCount ‹_›))).respond _ _
  | htInits => exact (h.withTable (tableOk_initS _)).respond _ _
  | htInitc => exact (h.withTable (tableOk_initC _)).respond _ _
  | htPuts key value =>
    exact withS2C_ensures (fun b hb => (h.withTable ((h.units.table _ hb).putS key value)).respond _ _) (h.respondError _)
  | htPutc key value =>
    exact withC2S_ensures (fun b hb => (h.withTable ((h.units.table _ hb).putC key value)).respond _ _) (h.respondError _)
  | htGets key =>
    refine withS2C_ensures (fun b hb => ?_) (h.respondError _)
    cases hg : getS s.hash b key <;> exact h.respond _ _
  | htGetc key =>
    refine withC2S_ensures (fun b hb => ?_) (h.respondError _)
    cases hg : getC b key with
    | none => exact h.respond _ _
    | some str => exact h.respondStr _
  | htHass key => exact withS2C_ensures (fun b _ => h.respond _ _) (h.respondError _)
  | htHasc key => exact withC2S_ensures (fun b _ => h.respond _ _) (h.respondError _)
  | htSize =>
    show Ensures Inv (execHtSize s)
    unfold execHtSize
    split
    · exact h.respond _ _
    · exact h.respondError _
  | pkPush code =>
    exact (pkPushBody_ends Inv.writeStable Inv.packerStable code h).answer (fun _ _ hu => hu.respond _ _)
      fun c _ _ hu => hu.units.inv_takeException c
  | pkFlush =>
    exact (pkFlushBody_ends Inv.writeStable Inv.packerStable h).answer (fun _ _ hu => hu.respond _ _)
      fun c _ _ hu => hu.units.inv_takeException c
  | upGroup =>
    refine (upGroupBody_ends Inv.readStable Inv.appendStable h).answer (fun r u hu => ?_)
      fun c _ _ hu => hu.units.inv_takeException c
    cases r <;> exact hu.respond _ _
  | upAll =>
    exact (upAllLoop_ends Inv.readStable Inv.appendStable _ h).answer (fun _ _ hu => hu.respond _ _)
      fun c _ _ hu => hu.units.inv_takeException c
  | csClear => exact (h.withSeq .empty (Nat.le_refl 0)).respond _ _
  | csAppend code => exact (Inv.appendStable s [code] h).respond _ _
  | csReset => exact (h.withSeq ⟨s.cs.items, 0⟩ (Nat.zero_le _)).respond _ _
  | csNext =>
    show Ensures Inv (execCsNext s)
    unfold execCsNext
    split
    · exact h.respondError _
    · rename_i v u hc
      obtain ⟨hlt, -, rfl⟩ := csTake_some hc
      exact (h.withSeq ⟨s.cs.items, s.cs.cursor + 1⟩ hlt).respond _ _
  | lzwCompress => exact run_ensures_inv _ (fun _ hu => hu.respond _ _) h.startCompress
  | lzwDecompress => exact run_ensures_inv _ (fun _ hu => hu.respond _ _) h.startDecompress

/-- Every step from a state with the invariant ends with it. -/
theorem step_keeps_inv (h : Inv s) : Ensures Inv (step s) := by
  obtain ⟨-, he⟩ | ⟨p, rest, -, hcase⟩ := step_rest_cases h.rest
  · rw [he]; exact h
  · have htaken : Inv { s with cmd := rest } := { h with }
    obtain ⟨e, -, he⟩ | ⟨i, -, he⟩ := hcase
    · rw [he]; exact htaken.respondError _
    · rw [he]; exact exec_keeps_inv i htaken

/-- Settles O12: the invariant is kept by every command and every refusal of a packet, and by each rule of a run. -/
theorem everyStepKeepsTheInvariant : Obligations.EveryStepKeepsTheInvariant :=
  fun _ _ h ht => (step_keeps_inv h).of_next ht

/-- Settles O11: the state at power-on is a state after hardware reset (R46). -/
theorem invariantHoldsAtReset : Obligations.InvariantHoldsAtReset := inv_hardwareReset State.reset

end Sys2Proof.Safety
end

section
/-! SUPPORT. The frame of every command: what each may change (O17). -/

namespace Sys2Proof.Machine

open Sys2Proof.Safety

variable {o : Opcode} {s t u : State}

/-! ### The write-ownership table (R47), by piece of state -/

/-- The commands that start or abandon a run: they may write `FSM` and every sticky bit. -/
def runOps : List Opcode := [.lzwCompress, .lzwDecompress, .sysReset]

/-- The writers of the Dictionary Index. -/
def tableOps : List Opcode :=
  [.htNews, .htNewc, .htInits, .htInitc, .htPuts, .htPutc, .lzwCompress, .lzwDecompress, .sysReset]

/-- The writers of `CS.items`. -/
def itemOps : List Opcode := [.upGroup, .upAll, .csClear, .csAppend, .lzwDecompress, .sysReset]

/-- The writers of `CS.items` that only append. -/
def appendOps : List Opcode := [.upGroup, .upAll, .csAppend]

/-- The writers of `CS.cursor`. -/
def cursorOps : List Opcode := [.csClear, .csReset, .csNext, .lzwDecompress, .sysReset]

/-- The writers of the Bit Packer. -/
def packerOps : List Opcode := [.pkPush, .pkFlush, .lzwCompress, .sysReset]

/-- The operations that read `IN`. -/
def readOps : List Opcode := [.upGroup, .upAll, .lzwCompress, .lzwDecompress]

/-- The operations that write `OUT`. -/
def writeOps : List Opcode := [.pkPush, .pkFlush, .lzwCompress, .lzwDecompress]

/-- From `s` to `t` only what `o` owns has changed; nothing is said of `STATUS`, `FSM` and the responses. -/
structure Frame (o : Opcode) (s t : State) : Prop where
  hash : t.hash = s.hash
  cmd : t.cmd = s.cmd
  di : t.di = s.di ∨ o ∈ tableOps
  items : t.cs.items = s.cs.items ∨ o ∈ itemOps
  appended : o ∈ appendOps → s.cs.items <+: t.cs.items
  cursor : t.cs.cursor = s.cs.cursor ∨ o ∈ cursorOps
  pk : t.pk = s.pk ∨ o ∈ packerOps
  next : t.next = s.next ∨ o ∈ runOps
  regs : t.pfx = s.pfx ∧ t.cur = s.cur ∨ o ∈ [Opcode.lzwCompress, .sysReset]
  prev : t.prev = s.prev ∨ o ∈ [Opcode.lzwDecompress, .sysReset]
  inp : t.inp = s.inp ∨ o ∈ readOps
  out : t.out = s.out ∧ t.sink = s.sink ∨ o ∈ writeOps

/-- The frame of a command's body, before its answer: `STATUS`, `FSM` and the responses stay unless the command is a run or
a reset. -/
structure Body (o : Opcode) (s u : State) : Prop extends Frame o s u where
  calm : (u.rsp = s.rsp ∧ u.sticky = s.sticky ∧ u.fsm = s.fsm) ∨ o ∈ runOps

/-- The frame of a command with its answer: an error response may record its code, a refused write of the packer takes the
exception entry. -/
structure Owned (o : Opcode) (s t : State) : Prop extends Frame o s t where
  bits : t.sticky.done = s.sticky.done ∧ t.sticky.skip = s.sticky.skip ∨ o ∈ runOps
  control : t.fsm = s.fsm ∧ t.sticky.fail = s.sticky.fail ∨ o ∈ runOps ∨
    o ∈ [Opcode.pkPush, .pkFlush] ∧ t.rsp = s.rsp ++ [.r .eIo 0]
  err : t.sticky.err = s.sticky.err ∨ o ∈ runOps ∨ ∃ r, t.rsp = s.rsp ++ [r] ∧ isError r = true

theorem Frame.refl (o : Opcode) (s : State) : Frame o s s where
  hash := rfl
  cmd := rfl
  di := .inl rfl
  items := .inl rfl
  appended _ := List.prefix_rfl
  cursor := .inl rfl
  pk := .inl rfl
  next := .inl rfl
  regs := .inl ⟨rfl, rfl⟩
  prev := .inl rfl
  inp := .inl rfl
  out := .inl ⟨rfl, rfl⟩

theorem Body.refl (o : Opcode) (s : State) : Body o s s := { Frame.refl o s with calm := .inl ⟨rfl, rfl, rfl⟩ }

/-! ### Answers -/

/-- A run or a reset may write all of `STATUS` and `FSM`. -/
theorem Frame.owned_of_run (h : Frame o s t) (ho : o ∈ runOps) : Owned o s t :=
  { h with bits := .inr ho, control := .inr (.inl ho), err := .inr (.inl ho) }

/-- A response packet is no write to `STATUS` or `FSM`. -/
theorem Body.owned_send (h : Body o s u) (r : Response) : Owned o s { u with rsp := u.rsp ++ [r] } := by
  obtain ⟨-, hst, hfsm⟩ | ho := h.calm
  · exact { h with
      bits := .inl ⟨by rw [hst], by rw [hst]⟩, control := .inl ⟨hfsm, by rw [hst]⟩, err := .inl (by rw [hst]) }
  · exact Frame.owned_of_run { h with } ho

theorem Body.respond (h : Body o s u) (rc : RetCode) (val : Half) : Owned o s (respond rc val u) := h.owned_send _

/-- An error response records its code and writes nothing else (R42, R277). -/
theorem Body.respondError (h : Body o s u) {rc : RetCode} (hrc : 0x80 ≤ rc.toByte.toNat) :
    Owned o s (respondError rc u) := by
  obtain ⟨hrsp, hst, hfsm⟩ | ho := h.calm
  · exact { h with
      bits := .inl ⟨by simp [hst], by simp [hst]⟩, control := .inl ⟨hfsm, by simp [hst]⟩,
      err := .inr (.inr ⟨.r rc 0, congrArg (· ++ _) hrsp, by simpa [isError] using hrc⟩) }
  · exact Frame.owned_of_run { h with } ho

/-- The exception entry writes what the packer's operations and the runs may write (R280). -/
theorem Frame.takeException (h : Frame o s u) (c : Cause) : Frame o s (takeException c u) := by
  rw [takeException_frame]; exact { h with }

/-- A refused write of a packer operation is answered `E_IO` (R161, R163, R280). -/
theorem Body.owned_ioError (h : Body o s u) (ho : o ∈ [Opcode.pkPush, .pkFlush]) :
    Owned o s (Machine.takeException .outputIoError u) := by
  obtain ⟨hrsp, hst, -⟩ | hrun := h.calm
  · have hanswer : (Machine.takeException .outputIoError u).rsp = s.rsp ++ [.r .eIo 0] := congrArg (· ++ _) hrsp
    exact { h.toFrame.takeException .outputIoError with
      bits := .inl (by simp [takeException_io_sticky, hst]), control := .inr (.inr ⟨ho, hanswer⟩),
      err := .inr (.inr ⟨_, hanswer, rfl⟩) }
  · exact (h.toFrame.takeException _).owned_of_run hrun

/-! ### Bodies -/

theorem Body.readStable (ho : o ∈ readOps) : ReadStable (Body o s) := fun _ _ _ h => { h with inp := .inr ho }

theorem Body.writeStable (ho : o ∈ writeOps) : WriteStable (Body o s) := fun _ _ _ _ h => { h with out := .inr ho }

theorem Body.packerStable (ho : o ∈ packerOps) : PackerStable (Body o s) := fun _ _ _ h => { h with pk := .inr ho }

theorem Body.appendStable (ho : o ∈ itemOps) : AppendStable (Body o s) := fun _ _ h =>
  { h with items := .inr ho, appended := fun ha => (h.appended ha).trans (List.prefix_append _ _) }

theorem Body.withTable (h : Body o s u) (ho : o ∈ tableOps) (di : Option Dict) : Body o s { u with di := di } :=
  { h with di := .inr ho }

/-! ### The rules of the compressor -/

/-- In the middle of `LZW.COMPRESS`: only what the compressor owns has changed, and one of its control states is current
(R202, R303). -/
structure Compressing (s u : State) : Prop extends Frame .lzwCompress s u where
  control : u.fsm ∈ [Fsm.awaitingFirstByte, .accumulating, .emit, .drain, .done]

theorem Compressing.readStable : ReadStable (Compressing s) := fun _ _ _ h => { h with inp := .inr (by decide) }

theorem Compressing.writeStable : WriteStable (Compressing s) := fun _ _ _ _ h => { h with out := .inr (by decide) }

theorem Compressing.packerStable : PackerStable (Compressing s) := fun _ _ _ h => { h with pk := .inr (by decide) }

theorem Compressing.setDone (h : Compressing s u) : Compressing s u.setDone := { h with control := by simp }

theorem Compressing.resetCheckS (h : Compressing s u) : Compressing s (resetCheckS u) := by
  by_cases hn : u.next = 4096
  · rw [resetCheckS_full hn]
    exact { h with di := .inr (by decide), next := .inr (by decide) }
  · rw [resetCheckS_free hn]; exact h

theorem Compressing.emitPfx (h : Compressing s u) : (emitPfx u).Ends (Compressing s) :=
  emitPfx_ends Compressing.writeStable Compressing.packerStable h

theorem compressFirst_keeps_compressing (h : Compressing s u) : (compressFirst u).Ends (Compressing s) := by
  refine (readByte_ends Compressing.readStable _ h).bind (fun _ => id) fun r v hv => ?_
  cases r with
  | none => exact hv.setDone
  | some b => exact { hv with regs := .inr (by decide), control := by simp }

theorem compressAccumulate_keeps_compressing (h : Compressing s u) : (compressAccumulate u).Ends (Compressing s) := by
  refine (readByte_ends Compressing.readStable _ h.resetCheckS).bind (fun _ => id) fun r v hv => ?_
  cases r with
  | none => exact { hv with control := by simp }
  | some b =>
    dsimp only
    split
    · exact { hv with regs := .inr (by decide), control := by simp }
    · exact { hv with regs := .inr (by decide), control := by simp }

theorem compressEmit_keeps_compressing (h : Compressing s u) : (compressEmit u).Ends (Compressing s) := by
  refine h.emitPfx.bind (fun _ => id) fun n v hv => ?_
  dsimp only
  rw [assignStr_frame]
  exact { hv with di := .inr (by decide), next := .inr (by decide), regs := .inr (by decide), control := by simp }

theorem compressDrain_keeps_compressing (h : Compressing s u) : (compressDrain u).Ends (Compressing s) :=
  h.emitPfx.bind (fun _ => id) fun _ _ hv =>
    (pkFlushBody_ends Compressing.writeStable Compressing.packerStable hv).bind (fun _ => id) fun _ _ hw => hw.setDone

/-- Every rule of the compressor changes only what the compressor owns (R47, R303). -/
theorem engineStep_keeps_compressing (u : State) (h : Compressing s u) : (engineStep u).Ends (Compressing s) := by
  have hc := h.control
  unfold engineStep
  cases hf : u.fsm with
  | awaitingFirstByte => exact compressFirst_keeps_compressing h
  | accumulating => exact compressAccumulate_keeps_compressing h
  | emit => exact compressEmit_keeps_compressing h
  | drain => exact compressDrain_keeps_compressing h
  | done => exact h
  | idle | failed | unpacking | dFirst | dLoop => simp [hf] at hc

/-! ### The rules of the decompressor -/

/-- In the middle of `LZW.DECOMPRESS`: only what the decompressor owns has changed, and one of its control states is current
(R232, R303). -/
structure Decompressing (s u : State) : Prop extends Frame .lzwDecompress s u where
  control : u.fsm ∈ [Fsm.unpacking, .dFirst, .dLoop, .done]

theorem Decompressing.readStable : ReadStable (Decompressing s) := fun _ _ _ h => { h with inp := .inr (by decide) }

theorem Decompressing.writeStable : WriteStable (Decompressing s) := fun _ _ _ _ h => { h with out := .inr (by decide) }

theorem Decompressing.appendStable : AppendStable (Decompressing s) := fun _ _ h =>
  { h with items := .inr (by decide), appended := fun ha => absurd ha (by decide) }

theorem Decompressing.setDone (h : Decompressing s u) : Decompressing s u.setDone := { h with control := by simp }

theorem Decompressing.resetCheckC (h : Decompressing s u) : Decompressing s (resetCheckC u) := by
  by_cases hn : u.next = 4096
  · rw [resetCheckC_full hn]
    exact { h with di := .inr (by decide), next := .inr (by decide) }
  · rw [resetCheckC_free hn]; exact h

/-- A fetch moves the cursor, which the decompressor owns (R184). -/
theorem Decompressing.fetch {c : Code} {v : State} (h : Decompressing s u) (hc : csTake u = some (c, v)) :
    Decompressing s v := by
  obtain ⟨-, -, rfl⟩ := csTake_some hc
  exact { h with cursor := .inr (by decide) }

theorem decompressUnpack_keeps_decompressing (h : Decompressing s u) : (decompressUnpack u).Ends (Decompressing s) := by
  refine (upGroupBody_ends Decompressing.readStable Decompressing.appendStable h).bind (fun _ => id) fun r v hv => ?_
  cases r with
  | whole => exact { hv with control := by simp }
  | ended n =>
    exact { hv with di := .inr (by decide), next := .inr (by decide), cursor := .inr (by decide), control := by simp }

theorem decompressFirst_keeps_decompressing (h : Decompressing s u) : (decompressFirst u).Ends (Decompressing s) := by
  unfold decompressFirst
  cases hc : csTake u with
  | none => exact h.setDone
  | some p =>
    obtain ⟨c, v⟩ := p
    dsimp only
    have htaken : Decompressing s { v with prev := c } := { h.fetch hc with prev := .inr (by decide) }
    split
    · exact (emitStr_ends Decompressing.writeStable _ htaken).bind (fun _ => id) fun _ w hw =>
        { hw with control := by simp }
    · exact { htaken with control := by simp }

theorem decompressCode_keeps_decompressing (ps : Str) (cur : Code) (h : Decompressing s u) :
    (decompressCode ps cur u).Ends (Decompressing s) := by
  rw [decompressCode_eq, assignCode_frame]
  have hput : Decompressing s { u with
      di := (u.assignCode (nextCode u.next) (codeStrings ps (u.getCode cur)).2).di
      hist := u.hist ++ [.assign (nextCode u.next) (codeStrings ps (u.getCode cur)).2] } :=
    { h with di := .inr (by decide) }
  exact (emitStr_ends Decompressing.writeStable _ hput).bind (fun _ => id) fun _ v hv =>
    { hv with next := .inr (by decide), prev := .inr (by decide), control := by simp }

theorem decompressLoop_keeps_decompressing (h : Decompressing s u) : (decompressLoop u).Ends (Decompressing s) := by
  obtain ⟨-, he⟩ | ⟨cur, v, hc, hcase⟩ := decompressLoop_eq u
  · rw [he]; exact h.setDone
  · have htaken : Decompressing s v := h.resetCheckC.fetch hc
    obtain ⟨-, he⟩ | ⟨ps, -, he⟩ := hcase
    · rw [he]; exact { htaken with control := by simp }
    · rw [he]; exact decompressCode_keeps_decompressing ps cur htaken

/-- Every rule of the decompressor changes only what the decompressor owns (R47, R303). -/
theorem engineStep_keeps_decompressing (u : State) (h : Decompressing s u) : (engineStep u).Ends (Decompressing s) := by
  have hc := h.control
  unfold engineStep
  cases hf : u.fsm with
  | unpacking => exact decompressUnpack_keeps_decompressing h
  | dFirst => exact decompressFirst_keeps_decompressing h
  | dLoop => exact decompressLoop_keeps_decompressing h
  | done => exact h
  | idle | failed | awaitingFirstByte | accumulating | emit | drain => simp [hf] at hc

/-! ### Commands -/

/-- Unpacking all of a stream writes nothing, so it never raises (R171, R284). -/
theorem upAllLoop_ne_raise {k : Nat} {c : Cause} : upAllLoop k s ≠ .raise c t := by
  induction k generalizing s with
  | zero => simp [upAllLoop]
  | succ k ih =>
    intro h
    obtain h | ⟨r, u, -, h⟩ := bind_eq_raise.mp h
    · exact upGroupBody_ne_raise h
    · cases r with
      | whole => exact ih h
      | ended n => simp at h

theorem startCompress_compressing (s : State) : Compressing s (startCompress s) :=
  { Frame.refl _ s with
    di := .inr (by decide), pk := .inr (by decide), next := .inr (by decide), regs := .inr (by decide), control := List.mem_cons_self }

theorem startDecompress_decompressing (s : State) : Decompressing s (startDecompress s) :=
  { Frame.refl _ s with
    items := .inr (by decide), appended := fun ha => absurd ha (by decide), cursor := .inr (by decide), control := List.mem_cons_self }

/-- A packer operation is answered normally or with `E_IO`. -/
theorem owned_of_packer {r : Res Half} (ho : o ∈ [Opcode.pkPush, .pkFlush]) (h : r.Ends (Body o s))
    (hraise : ∀ c u, r = .raise c u → c = .outputIoError) :
    Ensures (Owned o s) (r.answer fun n u => respond .ok n u) := by
  refine h.answer (fun n u hu => hu.respond _ _) fun c u hr hu => ?_
  obtain rfl := hraise c u hr
  exact hu.owned_ioError ho

/-- Every command changes only what it owns. -/
theorem exec_owned (i : Instr) (s : State) : Ensures (Owned i.opcode s) (exec i s) := by
  have hrefl := Body.refl i.opcode s
  cases i with
  | sysReset =>
    exact Frame.owned_of_run (t := respond .ok 0 (hardwareReset s)) { Frame.refl .sysReset s with
      di := .inr (by decide), items := .inr (by decide), appended := fun ha => absurd ha (by decide),
      cursor := .inr (by decide), pk := .inr (by decide), next := .inr (by decide), regs := .inr (by decide),
      prev := .inr (by decide) } (by decide)
  | sysStatus | sysRdnext | csHasnext => exact hrefl.respond _ _
  | htNews n =>
    show Ensures _ (execHtNews n s)
    unfold execHtNews
    split
    · exact hrefl.respondError (by decide)
    · exact ((Body.refl .htNews s).withTable (by decide) _).respond _ _
  | htNewc n =>
    show Ensures _ (execHtNewc n s)
    unfold execHtNewc
    split
    · exact hrefl.respondError (by decide)
    · exact ((Body.refl .htNewc s).withTable (by decide) _).respond _ _
  | htInits => exact ((Body.refl .htInits s).withTable (by decide) _).respond _ _
  | htInitc => exact ((Body.refl .htInitc s).withTable (by decide) _).respond _ _
  | htPuts key value =>
    exact withS2C_ensures (fun b _ => ((Body.refl .htPuts s).withTable (by decide) _).respond _ _) (hrefl.respondError (by decide))
  | htPutc key value =>
    exact withC2S_ensures (fun b _ => ((Body.refl .htPutc s).withTable (by decide) _).respond _ _) (hrefl.respondError (by decide))
  | htGets key =>
    refine withS2C_ensures (fun b _ => ?_) (hrefl.respondError (by decide))
    cases getS s.hash b key <;> exact hrefl.respond _ _
  | htGetc key =>
    refine withC2S_ensures (fun b _ => ?_) (hrefl.respondError (by decide))
    cases getC b key with
    | none => exact hrefl.respond _ _
    | some str => exact hrefl.owned_send _
  | htHass key => exact withS2C_ensures (fun b _ => hrefl.respond _ _) (hrefl.respondError (by decide))
  | htHasc key => exact withC2S_ensures (fun b _ => hrefl.respond _ _) (hrefl.respondError (by decide))
  | htSize =>
    show Ensures _ (execHtSize s)
    unfold execHtSize
    split
    · exact hrefl.respond _ _
    · exact hrefl.respondError (by decide)
  | pkPush code =>
    exact owned_of_packer (o := .pkPush) (by decide)
      (pkPushBody_ends (Body.writeStable (by decide)) (Body.packerStable (by decide)) code hrefl)
      fun c u hr => by obtain ⟨-, hc, -⟩ := pkPushBody_raise hr; exact hc
  | pkFlush =>
    exact owned_of_packer (by decide)
      (pkFlushBody_ends (Body.writeStable (by decide)) (Body.packerStable (by decide)) hrefl)
      fun c u hr => by obtain ⟨-, hc, -⟩ := pkFlushBody_raise hr; exact hc
  | upGroup =>
    refine (upGroupBody_ends (Body.readStable (by decide)) (Body.appendStable (by decide)) hrefl).answer
      (fun r u hu => ?_) fun c u hr _ => absurd hr upGroupBody_ne_raise
    cases r <;> exact hu.respond _ _
  | upAll =>
    exact (upAllLoop_ends (Body.readStable (by decide)) (Body.appendStable (by decide)) _ hrefl).answer
      (fun n u hu => hu.respond _ _) fun c u hr _ => absurd hr upAllLoop_ne_raise
  | csClear =>
    have hclear : Body .csClear s { s with cs := .empty } := { hrefl with
      items := .inr (by decide), appended := fun ha => absurd ha (by decide), cursor := .inr (by decide) }
    exact hclear.respond _ _
  | csAppend code => exact (Body.appendStable (by decide) s [code] (Body.refl .csAppend s)).respond _ _
  | csReset =>
    have hrewind : Body .csReset s s.rewind := { hrefl with cursor := .inr (by decide) }
    exact hrewind.respond _ _
  | csNext =>
    show Ensures _ (execCsNext s)
    unfold execCsNext
    split
    · exact hrefl.respondError (by decide)
    · rename_i v u hc
      obtain ⟨-, -, rfl⟩ := csTake_some hc
      have hnext : Body .csNext s { s with cs := ⟨s.cs.items, s.cs.cursor + 1⟩ } := { hrefl with cursor := .inr (by decide) }
      exact hnext.respond _ _
  | lzwCompress =>
    exact runEngine_ensures _ engineStep_keeps_compressing (startCompress_compressing s)
      (fun u hu _ => Frame.owned_of_run { hu with } (by decide))
      fun c u hu => (hu.takeException c).owned_of_run (by decide)
  | lzwDecompress =>
    exact runEngine_ensures _ engineStep_keeps_decompressing (startDecompress_decompressing s)
      (fun u hu _ => Frame.owned_of_run { hu with } (by decide))
      fun c u hu => (hu.takeException c).owned_of_run (by decide)

/-- Settles O17: each field of the frame is one row of the write-ownership table. -/
theorem writeOwnership : Obligations.WriteOwnership := by
  intro i s t ht
  have h := (exec_owned i s).of_next ht
  exact ⟨h.hash, h.cmd, h.di, h.items, h.appended, h.cursor, h.pk, h.next, h.regs, h.prev, h.bits, h.control, h.err, h.inp,
    h.out⟩

end Sys2Proof.Machine
end

section
/-! SUPPORT. The status register bit by bit, and the values after hardware reset (O10, O18). -/

namespace Sys2Proof.Machine

variable (s : State)

/-! ### The fields of `STATUS` (R42) -/

/-- A flag appended below a word is its bit 0. -/
theorem getLsbD_append_flag_zero {n : Nat} (x : BitVec n) (b : Bool) : (x ++ BitVec.ofBool b).getLsbD 0 = b := by
  rw [BitVec.getLsbD_append]
  simp

/-- A flag appended below a word moves the word up by one bit. -/
theorem getLsbD_append_flag_succ {n : Nat} (x : BitVec n) (b : Bool) (k : Nat) :
    (x ++ BitVec.ofBool b).getLsbD (k + 1) = x.getLsbD k := by
  simp [BitVec.getLsbD_append]

/-- The bits of `STATUS`, lowest first: seven flags, the reserved bit, then the two 4-bit fields (R42). -/
theorem status_getLsbD (k : Nat) : s.status.getLsbD k =
    match k with
    | 0 => s.sticky.done
    | 1 => s.sticky.fail
    | 2 => s.sticky.skip
    | 3 => s.pkPend
    | 4 => s.diValid
    | 5 => s.diKind
    | 6 => s.csMore
    | 7 => false
    | k + 8 => (s.sticky.err ++ s.fsm.number).getLsbD k := by
  show BitVec.getLsbD (w := 4 + 4 + 1 + 1 + 1 + 1 + 1 + 1 + 1 + 1) _ k = _
  unfold State.status
  rcases k with _ | _ | _ | _ | _ | _ | _ | _ | k <;>
    simp only [getLsbD_append_flag_succ, getLsbD_append_flag_zero]
  · exact getLsbD_append_flag_zero _ false
  · exact getLsbD_append_flag_succ _ false k

theorem status_fsmv : s.status.extractLsb' 8 4 = s.fsm.number := by
  ext i hi
  rw [BitVec.getElem_extractLsb', Nat.add_comm, status_getLsbD]
  exact BitVec.getLsbD_append.trans (by simp [hi])

theorem status_err : s.status.extractLsb' 12 4 = s.sticky.err := by
  ext i hi
  rw [BitVec.getElem_extractLsb', show 12 + i = i + 4 + 8 by omega, status_getLsbD]
  exact BitVec.getLsbD_append.trans (by simp [hi])

theorem pkPend_iff : s.pkPend = true ↔ s.pk.phase = .second := by simp [State.pkPend]

theorem diValid_iff : s.diValid = true ↔ ∃ d, s.di = some d := by simp [State.diValid, Option.isSome_iff_exists]

theorem diKind_iff : s.diKind = true ↔ ∃ b, s.di = some (.c2s b) := by
  unfold State.diKind
  split <;> simp_all

/-- Settles O18: each field of the word is the state it stands for, by its own lemma. -/
theorem statusFieldsFollowTheState : Obligations.StatusFieldsFollowTheState := by
  refine ⟨fun s => ?_, rfl⟩
  have hbit := status_getLsbD s
  refine ⟨hbit 0, hbit 1, hbit 2, ?_, ?_, ?_, ?_, hbit 7, status_fsmv s, status_err s⟩
  · rw [hbit 3]; exact pkPend_iff s
  · rw [hbit 4]; exact diValid_iff s
  · rw [hbit 5]; exact diKind_iff s
  · rw [hbit 6]; exact csMore_iff

/-! ### After hardware reset -/

theorem status_reset : State.reset.status = 0 := by decide

/-- A core at rest with no command waits and nothing changes (R302). -/
theorem step_of_no_command {s : State} (hrest : s.fsm.isRest = true) (hcmd : s.cmd = []) : step s = .next s := by
  obtain ⟨-, h⟩ | ⟨p, rest, hp, -⟩ := step_rest_cases hrest
  · exact h
  · simp [hcmd] at hp

/-- Settles O10: power-on is the state of R46 itself, and `SYS.RESET` writes its values field by field. -/
theorem resetLeavesTheListedValues : Obligations.ResetLeavesTheListedValues :=
  ⟨rfl, rfl, rfl, rfl, rfl, rfl, rfl, rfl, rfl, rfl, rfl, rfl, rfl, rfl, status_reset, step_of_no_command rfl rfl, fun _ =>
    ⟨_, rfl, rfl, rfl, rfl, rfl, rfl, rfl, rfl, rfl, status_reset⟩⟩

end Sys2Proof.Machine
end

section
/-! SUPPORT. The two byte streams: how `IN`, the sink, `OUT` and the history move (O16), and the order of the calls of a
decompressor run (O56). -/

namespace Sys2Proof.Machine

open Sys2Proof.Safety

variable {α β : Type} {K : Event → Prop} {s t u : State}

/-! ### The flow of the streams between two states -/

/-- Any event at all. -/
def AnyEvent (_ : Event) : Prop := True

/-- An event that is no `read_byte` call. -/
def NoRead (e : Event) : Prop := isRead e = false

/-- An event that is no `write_byte` call. -/
def NoWrite (e : Event) : Prop := isWrite e = false

/-- From `s` to `t` the scripts of `IN` and of the sink moved forward, and the history grew by events of kind `K` whose
accepted writes are what `OUT` received (R62, R63, R76). -/
structure Flow (K : Event → Prop) (s t : State) : Prop where
  inp : t.inp <:+ s.inp
  sink : t.sink <:+ s.sink
  hist : ∃ es : List Event, t.hist = s.hist ++ es ∧ t.out = s.out ++ es.filterMap acceptedByte ∧ ∀ e ∈ es, K e

theorem Flow.refl (s : State) : Flow K s s where
  inp := List.suffix_rfl
  sink := List.suffix_rfl
  hist := ⟨[], by simp⟩

theorem Flow.trans (h : Flow K s t) (h' : Flow K t u) : Flow K s u := by
  obtain ⟨es, hhist, hout, hkind⟩ := h.hist
  obtain ⟨es', hhist', hout', hkind'⟩ := h'.hist
  refine ⟨h'.inp.trans h.inp, h'.sink.trans h.sink, es ++ es', by simp [hhist, hhist'], by simp [hout, hout'], ?_⟩
  exact List.forall_mem_append.mpr ⟨hkind, hkind'⟩

theorem Flow.any (h : Flow K s t) : Flow AnyEvent s t :=
  let ⟨es, hhist, hout, _⟩ := h.hist
  { h with hist := ⟨es, hhist, hout, fun _ _ => trivial⟩ }

/-- One event recorded, with the scripts moved and the byte of an accepted write added to `OUT`. -/
theorem Flow.event {e : Event} (he : K e) (hinp : t.inp <:+ s.inp) (hsink : t.sink <:+ s.sink)
    (hhist : t.hist = s.hist ++ [e]) (hout : t.out = s.out ++ (acceptedByte e).toList) : Flow K s t :=
  ⟨hinp, hsink, [e], hhist, by cases hb : acceptedByte e <;> simp [hout, hb], by simpa using he⟩

/-- The exception entry makes no call (R280). -/
theorem Flow.takeException (h : Flow K s u) (c : Cause) : Flow K s (takeException c u) := by
  rw [takeException_frame]; exact { h with }

theorem Res.Ends.mono {P Q : State → Prop} {r : Res α} (h : r.Ends P) (hPQ : ∀ u, P u → Q u) : r.Ends Q := by
  cases r with
  | ok a u => exact hPQ u h
  | raise c u => exact hPQ u h
  | stuck e => trivial

theorem Res.Ends.and {P Q : State → Prop} {r : Res α} (h : r.Ends P) (h' : r.Ends Q) : r.Ends fun u => P u ∧ Q u := by
  cases r with
  | ok a u => exact ⟨h, h'⟩
  | raise c u => exact ⟨h, h'⟩
  | stuck e => trivial

/-- What flows from `u` flows from every state that flows to `u`. -/
theorem Flow.ends {r : Res α} (h : Flow K s u) (hr : r.Ends (Flow K u)) : r.Ends (Flow K s) := hr.mono fun _ => h.trans

/-- Flows in sequence. -/
theorem Res.Ends.flow_bind {r : Res α} {f : α → State → Res β} (h : r.Ends (Flow K s))
    (hf : ∀ a u, (f a u).Ends (Flow K u)) : (r.bind f).Ends (Flow K s) :=
  h.bind (fun _ => id) fun a u hu => hu.ends (hf a u)

/-! ### Calls and units -/

/-- A read moves `IN` forward and writes nothing (R62). -/
theorem readByte_flow (held : List Byte) (s : State) : (readByte held s).Ends (Flow NoWrite s) := by
  cases hb : readByte held s with
  | ok r t =>
    obtain ⟨b, rest, hinp, -, rfl⟩ | ⟨rest, hinp, -, rfl⟩ | ⟨-, -, rfl⟩ := readByte_ok hb
    · exact Flow.event (e := .read (some b)) rfl (by simp [hinp]) List.suffix_rfl rfl (by simp [acceptedByte])
    · exact Flow.event (e := .read none) rfl (by simp [hinp]) List.suffix_rfl rfl (by simp [acceptedByte])
    · exact Flow.event (e := .read none) rfl List.suffix_rfl List.suffix_rfl rfl (by simp [acceptedByte])
  | raise c t => exact absurd hb readByte_ne_raise
  | stuck e => trivial

/-- A write moves the sink forward and extends `OUT` by its byte if it is accepted (R63). -/
theorem emitByte_flow (b : Byte) (s : State) : (emitByte b s).Ends (Flow NoRead s) := by
  cases hb : emitByte b s with
  | ok r t =>
    obtain ⟨-, rfl⟩ := emitByte_ok hb
    exact Flow.event (e := .write b true) rfl List.suffix_rfl (List.tail_suffix _) rfl rfl
  | raise c t =>
    obtain ⟨-, -, rfl⟩ := emitByte_raise hb
    exact Flow.event (e := .write b false) rfl List.suffix_rfl (List.tail_suffix _) rfl (by simp [acceptedByte])
  | stuck e => trivial

theorem emitStr_flow (str : Str) (s : State) : (emitStr str s).Ends (Flow NoRead s) := by
  induction str generalizing s with
  | nil => exact Flow.refl s
  | cons b str ih => exact (emitByte_flow b s).flow_bind fun _ u => ih u

theorem pkPushBody_flow (c : Code) (s : State) : (pkPushBody c s).Ends (Flow NoRead s) := by
  cases hp : s.pk.phase with
  | first => rw [pkPushBody_first c hp]; exact { Flow.refl s with }
  | second =>
    rw [pkPushBody_second c hp]
    have hpair : Flow NoRead s (s.completePair c) := { Flow.refl s with }
    exact hpair.ends ((emitStr_flow _ _).flow_bind fun _ u => { Flow.refl u with })

theorem pkFlushBody_flow (s : State) : (pkFlushBody s).Ends (Flow NoRead s) := by
  cases hp : s.pk.phase with
  | first => rw [pkFlushBody_first hp]; exact Flow.refl s
  | second => rw [pkFlushBody_second hp]; exact (emitStr_flow _ s).flow_bind fun _ u => { Flow.refl u with }

theorem upGroupBody_flow (s : State) : (upGroupBody s).Ends (Flow NoWrite s) := by
  refine (readByte_flow _ s).flow_bind fun r0 u0 => ?_
  cases r0 with
  | none => exact Flow.refl u0
  | some b0 =>
    refine (readByte_flow _ u0).flow_bind fun r1 u1 => ?_
    cases r1 with
    | none => exact Flow.refl u1
    | some b1 =>
      refine (readByte_flow _ u1).flow_bind fun r2 u2 => ?_
      cases r2 with
      | none => exact Flow.refl u2
      | some b2 => exact { Flow.refl u2 with }

theorem upAllLoop_flow (k : Nat) (s : State) : (upAllLoop k s).Ends (Flow NoWrite s) := by
  induction k generalizing s with
  | zero => trivial
  | succ k ih =>
    refine (upGroupBody_flow s).flow_bind fun r u => ?_
    cases r with
    | ended n => exact Flow.refl u
    | whole => exact ih u

/-! ### The rules of the compressor -/

theorem emitPfx_flow (s : State) : (emitPfx s).Ends (Flow NoRead s) := by
  unfold emitPfx
  cases s.getStr s.pfx with
  | none => exact Flow.refl s
  | some c => exact pkPushBody_flow c s

theorem compressFirst_flow (s : State) : (compressFirst s).Ends (Flow NoWrite s) := by
  refine (readByte_flow _ s).flow_bind fun r u => ?_
  cases r <;> exact { Flow.refl u with }

/-- The table-reset check of the compressor makes no call (R205). -/
theorem resetCheckS_flow (s : State) : Flow NoWrite s (resetCheckS s) := by
  by_cases hn : s.next = 4096
  · rw [resetCheckS_full hn]
    exact Flow.event (e := .tableReset) rfl List.suffix_rfl List.suffix_rfl rfl (by simp [acceptedByte])
  · rw [resetCheckS_free hn]; exact Flow.refl s

theorem compressAccumulate_flow (s : State) : (compressAccumulate s).Ends (Flow NoWrite s) := by
  refine (resetCheckS_flow s).ends ((readByte_flow _ _).flow_bind fun r u => ?_)
  cases r with
  | none => exact { Flow.refl u with }
  | some b =>
    dsimp only
    split <;> exact { Flow.refl u with }

/-- An insertion of the compressor makes no call (R206). -/
theorem assignStr_flow (s : State) (key : Str) (value : Code) : Flow NoRead s (s.assignStr key value) :=
  Flow.event (e := .assign value key) rfl (by simp) (by simp) (by simp) (by simp [acceptedByte])

theorem compressEmit_flow (s : State) : (compressEmit s).Ends (Flow NoRead s) :=
  (emitPfx_flow s).flow_bind fun _ u => { assignStr_flow u _ _ with }

theorem compressDrain_flow (s : State) : (compressDrain s).Ends (Flow NoRead s) :=
  (emitPfx_flow s).flow_bind fun _ u => (pkFlushBody_flow u).flow_bind fun _ v => { Flow.refl v with }

/-! ### The rules of the decompressor -/

/-- The input has ended: no read since `s`, and the control state is one that reads nothing (R85, R232). -/
structure Writing (s u : State) : Prop extends Flow NoRead s u where
  control : u.fsm ∈ [Fsm.dFirst, .dLoop, .done]

theorem Writing.refl (h : s.fsm ∈ [Fsm.dFirst, .dLoop, .done]) : Writing s s := { Flow.refl s with control := h }

theorem Writing.setDone (h : Writing s u) : Writing s u.setDone := { h with control := by simp }

theorem Writing.fetch {c : Code} {v : State} (h : Writing s u) (hc : csTake u = some (c, v)) : Writing s v := by
  obtain ⟨-, -, rfl⟩ := csTake_some hc
  exact { h with }

theorem Writing.resetCheckC (h : Writing s u) : Writing s (resetCheckC u) := by
  by_cases hn : u.next = 4096
  · rw [resetCheckC_full hn]
    have hreset : Flow NoRead u
        { u with di := some (.c2s initC), next := 256, hist := u.hist ++ [.tableReset] } :=
      Flow.event (e := .tableReset) rfl List.suffix_rfl List.suffix_rfl rfl (by simp [acceptedByte])
    exact { h.toFlow.trans hreset with control := h.control }
  · rw [resetCheckC_free hn]; exact h

theorem Writing.assignCode (h : Writing s u) (key : Code) (value : Str) : Writing s (u.assignCode key value) where
  toFlow := h.toFlow.trans
    (Flow.event (e := .assign key value) rfl (by simp) (by simp) (by simp) (by simp [acceptedByte]))
  control := by simpa using h.control

theorem emitStr_keeps_writing (str : Str) (h : Writing s u) : (emitStr str u).Ends (Writing s) := by
  have hfsm : (emitStr str u).Ends fun v => v.fsm ∈ [Fsm.dFirst, .dLoop, .done] :=
    emitStr_ends (fun _ _ _ _ => id) str h.control
  exact ((h.toFlow.ends (emitStr_flow str u)).and hfsm).mono fun v ⟨hflow, hv⟩ => { hflow with control := hv }

theorem decompressFirst_keeps_writing (h : Writing s u) : (decompressFirst u).Ends (Writing s) := by
  unfold decompressFirst
  cases hc : csTake u with
  | none => exact h.setDone
  | some p =>
    obtain ⟨c, v⟩ := p
    dsimp only
    have htaken : Writing s { v with prev := c } := { h.fetch hc with }
    split
    · exact (emitStr_keeps_writing _ htaken).bind (fun _ => id) fun _ w hw => { hw with control := by simp }
    · exact { htaken with control := by simp }

theorem decompressCode_keeps_writing (ps : Str) (cur : Code) (h : Writing s u) :
    (decompressCode ps cur u).Ends (Writing s) := by
  rw [decompressCode_eq]
  exact (emitStr_keeps_writing _ (h.assignCode _ _)).bind (fun _ => id) fun _ v hv => { hv with control := by simp }

theorem decompressLoop_keeps_writing (h : Writing s u) : (decompressLoop u).Ends (Writing s) := by
  obtain ⟨-, he⟩ | ⟨cur, v, hc, hcase⟩ := decompressLoop_eq u
  · rw [he]; exact h.setDone
  · have htaken : Writing s v := h.resetCheckC.fetch hc
    obtain ⟨-, he⟩ | ⟨ps, -, he⟩ := hcase
    · rw [he]; exact { htaken with control := by simp }
    · rw [he]; exact decompressCode_keeps_writing ps cur htaken

/-- Once its input has ended, the decompressor never reads again (R85). -/
theorem engineStep_keeps_writing (h : Writing s u) : (engineStep u).Ends (Writing s) := by
  have hc := h.control
  unfold engineStep
  cases hf : u.fsm with
  | dFirst => exact decompressFirst_keeps_writing h
  | dLoop => exact decompressLoop_keeps_writing h
  | done => exact h
  | idle | failed | awaitingFirstByte | accumulating | emit | drain | unpacking => simp [hf] at hc

/-- The two parts of a decompressor run from `s`: reading in `UNPACKING`, without a write so far; then, from some state on,
writing without a read (R85). -/
def ReadsFirst (s u : State) : Prop := (u.fsm = .unpacking ∧ Flow NoWrite s u) ∨ ∃ m, Flow NoWrite s m ∧ Writing m u

theorem ReadsFirst.split (h : ReadsFirst s u) : ∃ m, Flow NoWrite s m ∧ Flow NoRead m u := by
  obtain ⟨-, hread⟩ | ⟨m, hread, hwrite⟩ := h
  · exact ⟨u, hread, Flow.refl u⟩
  · exact ⟨m, hread, hwrite.toFlow⟩

theorem ReadsFirst.flow (h : ReadsFirst s u) : Flow AnyEvent s u :=
  let ⟨_, hread, hwrite⟩ := h.split
  hread.any.trans hwrite.any

/-- Unpacking reads; at the end of the input it passes to the writing part (R233). -/
theorem decompressUnpack_keeps_readsFirst (h : Flow NoWrite s u) : (decompressUnpack u).Ends (ReadsFirst s) := by
  have hgroup := h.ends (upGroupBody_flow u)
  cases hd : decompressUnpack u with
  | ok a t =>
    obtain ⟨v, hv, rfl⟩ | ⟨n, v, hv, rfl⟩ := decompressUnpack_ok hd
    · exact .inl ⟨rfl, { hgroup.of_ok hv with }⟩
    · refine .inr ⟨_, ?_, Writing.refl List.mem_cons_self⟩
      exact { hgroup.of_ok hv with }
  | raise c t => exact absurd hd decompressUnpack_ne_raise
  | stuck e => trivial

theorem engineStep_keeps_readsFirst (u : State) (h : ReadsFirst s u) : (engineStep u).Ends (ReadsFirst s) := by
  obtain ⟨hf, hread⟩ | ⟨m, hread, hwrite⟩ := h
  · unfold engineStep
    rw [hf]
    exact decompressUnpack_keeps_readsFirst hread
  · exact (engineStep_keeps_writing hwrite).mono fun v hv => .inr ⟨m, hread, hv⟩

/-! ### Runs, commands and steps -/

/-- Every rule of every control state moves the streams forward. -/
theorem engineStep_flow (u : State) : (engineStep u).Ends (Flow AnyEvent u) := by
  unfold engineStep
  cases hf : u.fsm with
  | awaitingFirstByte => exact (compressFirst_flow u).mono fun _ hv => hv.any
  | accumulating => exact (compressAccumulate_flow u).mono fun _ hv => hv.any
  | emit => exact (compressEmit_flow u).mono fun _ hv => hv.any
  | drain => exact (compressDrain_flow u).mono fun _ hv => hv.any
  | unpacking => exact (decompressUnpack_keeps_readsFirst (Flow.refl u)).mono fun _ hv => hv.flow
  | dFirst => exact (decompressFirst_keeps_writing (Writing.refl (by simp [hf]))).mono fun _ hv => hv.any
  | dLoop => exact (decompressLoop_keeps_writing (Writing.refl (by simp [hf]))).mono fun _ hv => hv.any
  | idle | done | failed => exact Flow.refl u

/-- A run from a state that the streams flow to, with any response that makes no call. -/
theorem runEngine_flow {k : Unit → State → State} (hk : ∀ u, Flow AnyEvent s u → Flow AnyEvent s (k () u)) (n : Nat)
    (h : Flow AnyEvent s u) : Ensures (Flow AnyEvent s) ((runEngine n u).answer k) :=
  runEngine_ensures n (fun v hv => hv.ends (engineStep_flow v)) h (fun v hv _ => hk v hv) fun c _ hv => hv.takeException c

theorem runCompressor_flow (h : Flow AnyEvent s u) : Ensures (Flow AnyEvent s) (runCompressor u) :=
  runEngine_flow (fun _ hv => { hv with }) _ h

theorem runDecompressor_flow (h : Flow AnyEvent s u) : Ensures (Flow AnyEvent s) (runDecompressor u) :=
  runEngine_flow (fun _ hv => { hv with }) _ h

/-- A command whose body moves the streams forward, with any response that makes no call. -/
theorem Res.Ends.answer_flow {r : Res α} {k : α → State → State} (h : r.Ends (Flow K s))
    (hk : ∀ a u, Flow K s u → Flow K s (k a u)) : Ensures (Flow AnyEvent s) (r.answer k) :=
  h.answer (fun a u hu => (hk a u hu).any) fun c _ _ hu => (hu.takeException c).any

/-- Every command moves the streams forward; those that do not own a stream leave it (R47). -/
theorem exec_flow (i : Instr) (s : State) : Ensures (Flow AnyEvent s) (exec i s) := by
  have hrefl : Flow AnyEvent s s := Flow.refl s
  cases i with
  | sysReset | sysStatus | sysRdnext | htInits | htInitc | csClear | csAppend | csReset | csHasnext =>
    exact { hrefl with }
  | htNews n =>
    show Ensures _ (execHtNews n s)
    unfold execHtNews
    split <;> exact { hrefl with }
  | htNewc n =>
    show Ensures _ (execHtNewc n s)
    unfold execHtNewc
    split <;> exact { hrefl with }
  | htPuts key value => exact withS2C_ensures (fun _ _ => { hrefl with }) { hrefl with }
  | htPutc key value => exact withC2S_ensures (fun _ _ => { hrefl with }) { hrefl with }
  | htGets key =>
    refine withS2C_ensures (fun b _ => ?_) { hrefl with }
    cases getS s.hash b key <;> exact { hrefl with }
  | htGetc key =>
    refine withC2S_ensures (fun b _ => ?_) { hrefl with }
    cases getC b key <;> exact { hrefl with }
  | htHass key => exact withS2C_ensures (fun _ _ => { hrefl with }) { hrefl with }
  | htHasc key => exact withC2S_ensures (fun _ _ => { hrefl with }) { hrefl with }
  | htSize =>
    show Ensures _ (execHtSize s)
    unfold execHtSize
    split <;> exact { hrefl with }
  | pkPush code => exact (pkPushBody_flow code s).answer_flow fun _ _ hu => { hu with }
  | pkFlush => exact (pkFlushBody_flow s).answer_flow fun _ _ hu => { hu with }
  | upGroup =>
    refine (upGroupBody_flow s).answer_flow fun r u hu => ?_
    cases r <;> exact { hu with }
  | upAll => exact (upAllLoop_flow _ s).answer_flow fun _ _ hu => { hu with }
  | csNext =>
    show Ensures _ (execCsNext s)
    unfold execCsNext
    split
    · exact { hrefl with }
    · rename_i hc
      obtain ⟨-, -, rfl⟩ := csTake_some hc
      exact { hrefl with }
  | lzwCompress => exact runCompressor_flow (u := startCompress s) { hrefl with }
  | lzwDecompress => exact runDecompressor_flow (u := startDecompress s) { hrefl with }

/-- What the core does in the middle of a run: it goes on with it (R41, R318). -/
theorem step_run_cases (h : s.fsm.isRest = false) : step s = runCompressor s ∨ step s = runDecompressor s := by
  unfold step
  cases hf : s.fsm with
  | awaitingFirstByte | accumulating | emit | drain => exact .inl rfl
  | unpacking | dFirst | dLoop => exact .inr rfl
  | idle | done | failed => simp [Fsm.isRest, hf] at h

/-- Every step moves the streams forward. -/
theorem step_flow (s : State) : Ensures (Flow AnyEvent s) (step s) := by
  cases hrest : s.fsm.isRest with
  | false =>
    obtain he | he := step_run_cases hrest
    · rw [he]; exact runCompressor_flow (Flow.refl s)
    · rw [he]; exact runDecompressor_flow (Flow.refl s)
  | true =>
    obtain ⟨-, he⟩ | ⟨p, rest, -, ⟨e, -, he⟩ | ⟨i, -, he⟩⟩ := step_rest_cases hrest
    · rw [he]; exact Flow.refl s
    · rw [he]; exact { Flow.refl s with }
    · rw [he]
      have hexec := exec_flow i { s with cmd := rest }
      cases hx : exec i { s with cmd := rest } with
      | next t => exact { hexec.of_next hx with }
      | fault f => trivial
      | refused x => trivial

/-- Settles O16: the flow of a step, each script's final part written as what is left after so many answers. -/
theorem streamsOnlyMoveForward : Obligations.StreamsOnlyMoveForward := by
  intro s t ht
  have h := (step_flow s).of_next ht
  obtain ⟨es, hhist, hout, -⟩ := h.hist
  exact ⟨⟨_, List.suffix_iff_eq_drop.mp h.inp⟩, ⟨_, List.suffix_iff_eq_drop.mp h.sink⟩, es, hhist, hout⟩

/-! ### The order of the calls of a decompressor run -/

/-- A decompressor run is a part without a write and then a part without a read (R85). -/
theorem execLzwDecompress_reads_then_writes (s : State) :
    Ensures (fun t => ∃ m, Flow NoWrite s m ∧ Flow NoRead m t) (execLzwDecompress s) := by
  have hstart : ReadsFirst s (startDecompress s) := .inl ⟨rfl, { Flow.refl s with }⟩
  refine runEngine_ensures _ engineStep_keeps_readsFirst hstart (fun u hu _ => ?_) fun c u hu => ?_
  · obtain ⟨m, hread, hwrite⟩ := hu.split
    exact ⟨m, hread, { hwrite with }⟩
  · obtain ⟨m, hread, hwrite⟩ := hu.split
    exact ⟨m, hread, hwrite.takeException c⟩

/-- Where writes stand only in the second part and reads only in the first, no read follows a write. -/
theorem noRead_of_write_before {reads writes pre post : List Event} (hreads : ∀ e ∈ reads, NoWrite e)
    (hwrites : ∀ e ∈ writes, NoRead e) (hsplit : reads ++ writes = pre ++ post) (hw : ∃ e ∈ pre, isWrite e = true) :
    ∀ e ∈ post, NoRead e := by
  obtain ⟨mid, -, rfl⟩ | ⟨mid, rfl, -⟩ := List.append_eq_append_iff.mp hsplit
  · exact fun e he => hwrites e (List.mem_append_right _ he)
  · obtain ⟨e, he, hew⟩ := hw
    have hne : isWrite e = false := hreads e (List.mem_append_left _ he)
    simp [hne] at hew

/-- Settles O56: the events of the two parts of the run, one after the other. -/
theorem decompressReadsBeforeItWrites : Obligations.DecompressReadsBeforeItWrites := by
  intro s t ht
  obtain ⟨m, hread, hwrite⟩ := (execLzwDecompress_reads_then_writes s).of_next ht
  obtain ⟨reads, hm, -, hreads⟩ := hread.hist
  obtain ⟨writes, ht, -, hwrites⟩ := hwrite.hist
  exact ⟨reads ++ writes, by rw [ht, hm, List.append_assoc], fun _ _ => noRead_of_write_before hreads hwrites⟩

end Sys2Proof.Machine
end

section
/-! SUPPORT. The packet format both ways: what the decoder makes of a header and of what follows it, and the instruction a
packet stands for (O1, O2, O3). -/

namespace Sys2Proof

/-! ### What follows the header -/

/-- `len16` of a string that fits in a packet is its length (R100, R103). -/
theorem toNat_ofNat_length {str : Str} (h : str.length ≤ maxPayload) : (BitVec.ofNat 16 str.length).toNat = str.length := by
  rw [BitVec.toNat_ofNat]
  exact Nat.mod_eq_of_lt (Nat.lt_of_le_of_lt h (by decide))

/-- A string that fits in a format CS packet is read back from it (R100, R103). -/
theorem payload_cs_tail {str : Str} (h : str.length ≤ maxPayload) : Format.cs.payload (Format.cs.tail str) = some str := by
  simp [Format.tail, Format.payload, toNat_ofNat_length h]

/-- What follows a header is fixed by the string read from it (R100). -/
theorem tail_of_payload {f : Format} {rest : List Byte} {str : Str} (h : f.payload rest = some str) : f.tail str = rest := by
  unfold Format.payload at h
  split at h
  · rfl
  · simp at h
  · split at h
    · rename_i hlen
      obtain rfl := Option.some.inj h
      simp [Format.tail, hlen]
    · simp at h
  · simp at h

/-! ### The decoder, by the reason it gives -/

section
variable {o : Opcode} {imm : Half} {rest : List Byte} {str : Str}

theorem decode_of_fits (hp : o.format.payload rest = some str) (hi : o.immForm.fits imm = true) :
    decode (o.toByte :: hiByte imm :: loByte imm :: rest) = .ok (o.build imm str) := by
  simp [decode, hp, hi]

theorem decode_of_not_fits (hp : o.format.payload rest = some str) (hi : o.immForm.fits imm = false) :
    decode (o.toByte :: hiByte imm :: loByte imm :: rest) = .error (.badOperand o) := by
  simp [decode, hp, hi]

end

/-- The decoder accepts exactly a listed opcode, an operand of its form and a string of its format (R100, R102, R107). -/
theorem decode_eq_ok {p : Packet} {i : Instr} (h : decode p = .ok i) :
    ∃ (o : Opcode) (imm : Half) (rest : List Byte) (str : Str),
      p = o.toByte :: hiByte imm :: loByte imm :: rest ∧ o.format.payload rest = some str ∧
      o.immForm.fits imm = true ∧ i = o.build imm str := by
  unfold decode at h
  split at h
  · rename_i op i1 i0 rest
    split at h
    · simp at h
    · rename_i o ho
      split at h
      · simp at h
      · rename_i str hp
        split at h
        · rename_i hi
          exact ⟨o, half i1 i0, rest, str, by simp [Opcode.toByte_of_ofByte ho], hp, hi, (Except.ok.inj h).symm⟩
        · simp at h
  · simp at h

/-! ### The fields of an instruction -/

/-- The operand of an instruction has the form its row asks for (R102). -/
theorem Instr.imm_fits (i : Instr) : i.opcode.immForm.fits i.imm = true := by
  cases i with
  | htPuts _ c | htPutc c _ | htGetc c | htHasc c | pkPush c | csAppend c => exact Laws.EncodedForm.fits_zext c
  | sysReset | sysStatus | sysRdnext | htNews | htNewc | htInits | htInitc | htGets | htHass | htSize | pkFlush | upGroup
  | upAll | csClear | csReset | csNext | csHasnext | lzwCompress | lzwDecompress => rfl

/-- The string of a well-formed instruction is read back from its packet; in a format C row there is none (R103). -/
theorem Instr.payload_tail_str {i : Instr} (h : i.wellFormed = true) :
    i.opcode.format.payload (i.opcode.format.tail i.str) = some i.str := by
  cases i with
  | htPuts | htPutc | htGets | htHass => exact payload_cs_tail (of_decide_eq_true h)
  | sysReset | sysStatus | sysRdnext | htNews | htNewc | htInits | htInitc | htGetc | htHasc | htSize | pkPush | pkFlush
  | upGroup | upAll | csClear | csAppend | csReset | csNext | csHasnext | lzwCompress | lzwDecompress => rfl

/-- An operand that has its row's form is the operand of the instruction built from it (R102). -/
theorem Opcode.imm_build {o : Opcode} {imm : Half} (h : o.immForm.fits imm = true) (str : Str) :
    (o.build imm str).imm = imm := by
  cases o with
  | htPuts | htPutc | htGetc | htHasc | pkPush | csAppend =>
    exact zext_immCode ((code_fits_iff imm).mp (by simpa [Opcode.immForm, ImmForm.fits] using h))
  | htNews | htNewc => rfl
  | sysReset | sysStatus | sysRdnext | htInits | htInitc | htGets | htHass | htSize | pkFlush | upGroup | upAll | csClear
  | csReset | csNext | csHasnext | lzwCompress | lzwDecompress => exact (beq_iff_eq.mp h).symm

/-- An instruction built from a row and a string is sent with that string, where the row's format has one (R103). -/
@[simp] theorem Opcode.tail_str_build (o : Opcode) (imm : Half) (str : Str) :
    o.format.tail (o.build imm str).str = o.format.tail str := by
  cases o <;> rfl

/-! ### Round trips -/

/-- Settles O2: the decoder reads each field of the packet back, and the row builds the instruction from them. -/
theorem decodeOfEncodeIsIdentity : Obligations.DecodeOfEncodeIsIdentity := by
  intro i h
  calc decode (encode i) = .ok (i.opcode.build i.imm i.str) := decode_of_fits (Instr.payload_tail_str h) i.imm_fits
    _ = .ok i := by rw [Instr.build_fields]

/-- Settles O3: each field of an accepted packet is the field of the instruction built from it. -/
theorem encodeOfDecodeIsIdentity : Obligations.EncodeOfDecodeIsIdentity := by
  intro p i h
  obtain ⟨o, imm, rest, str, rfl, hp, hi, rfl⟩ := decode_eq_ok h
  simp [encode, Opcode.imm_build hi, tail_of_payload hp]

/-- Settles O1: R114's packets and responses, evaluated. -/
theorem specExamplesDecodeAndEncode : Obligations.SpecExamplesDecodeAndEncode :=
  ⟨rfl, rfl, rfl, rfl, rfl, rfl, rfl, rfl⟩

end Sys2Proof
end

section
/-! SUPPORT. A packet at rest: what the core does with one it can decode and with one it cannot (O4, O5, O6, O8). -/

namespace Sys2Proof.Safety

open Sys2Proof.Machine

variable {o : Opcode} {op : Byte} {p : Packet} {rest : List Packet} {s : State}

/-! ### The step at rest, by the decoder's answer -/

/-- With a packet waiting the core takes it, and refuses or executes it (R101, R109). -/
theorem step_of_command (hrest : s.fsm.isRest = true) (hcmd : s.cmd = p :: rest) :
    (∃ e, decode p = .error e ∧ step s = .next (refuseCommand e { s with cmd := rest })) ∨
    ∃ i, decode p = .ok i ∧ step s = exec i { s with cmd := rest } := by
  obtain ⟨hnone, -⟩ | ⟨q, rest', hq, hcase⟩ := step_rest_cases hrest
  · simp [hcmd] at hnone
  · obtain ⟨rfl, rfl⟩ := List.cons.inj (hcmd.symm.trans hq)
    exact hcase

theorem step_of_decode_ok {i : Instr} (hrest : s.fsm.isRest = true) (hcmd : s.cmd = p :: rest) (hd : decode p = .ok i) :
    step s = exec i { s with cmd := rest } := by
  simpa [hd] using step_of_command hrest hcmd

theorem step_of_decode_error {e : CmdError} (hrest : s.fsm.isRest = true) (hcmd : s.cmd = p :: rest)
    (hd : decode p = .error e) : step s = .next (refuseCommand e { s with cmd := rest }) := by
  simpa [hd] using step_of_command hrest hcmd

/-- A packet that is no instruction is refused with the code of its error (R109, R277). -/
theorem refusedWith_of_decode {e : CmdError} (hd : decode p = .error e) : refusedWith (cmdErrorCode e) p :=
  fun _ _ hrest hcmd => step_of_decode_error hrest hcmd hd

/-- An instruction that answers every state with an error alone refuses its packet (R277). -/
theorem refusedWith_of_exec {i : Instr} {rc : RetCode} (hd : decode p = .ok i)
    (hexec : ∀ s, exec i s = .next (respondError rc s)) : refusedWith rc p :=
  fun _ _ hrest hcmd => (step_of_decode_ok hrest hcmd hd).trans (hexec _)

/-- The word of the opcode table that decodes to `i` is a packet that does. -/
theorem decodeTableWord_eq_some {nbits w : Nat} {i : Instr} (h : decodeTableWord nbits w = some i) :
    decode (tablePacket nbits w) = .ok i := by
  unfold decodeTableWord at h
  split at h <;> simp_all

/-- A core with a packet placed on it is at rest (R41, log entry 8). -/
theorem placeCommand_isRest (p : Packet) (s : State) : (placeCommand p s).fsm.isRest = true := by
  rw [placeCommand_fsm]
  split
  · assumption
  · rfl

/-- Settles O8: the step at rest with a packet, with none, and with the packet of a table word placed. -/
theorem stepRunsTheDecodedInstruction : Obligations.StepRunsTheDecodedInstruction :=
  ⟨fun _ _ _ _ hrest hcmd hd => step_of_decode_ok hrest hcmd hd, fun _ => step_of_no_command,
    fun s _ _ _ hd => step_of_decode_ok (placeCommand_isRest _ s) (placeCommand_cmd _ s) (decodeTableWord_eq_some hd)⟩

/-! ### Reserved opcodes -/

/-- The opcode bytes without a row are those R108 lists. -/
theorem ofByte_eq_none_iff (op : Byte) : Opcode.ofByte op = none ↔ reservedOpcode op := by
  revert op
  unfold reservedOpcode
  decide

/-- A packet of fewer than 3 bytes has no header (R109). -/
theorem decode_tooShort {bytes : List Byte} (h : bytes.length < 2) : decode (op :: bytes) = .error .tooShort := by
  match bytes with
  | [] => rfl
  | [_] => rfl
  | _ :: _ :: _ => simp at h

theorem decode_reserved {i1 i0 : Byte} {bytes : List Byte} (h : reservedOpcode op) :
    decode (op :: i1 :: i0 :: bytes) = .error (.reservedOpcode op) := by
  simp [decode, (ofByte_eq_none_iff op).mpr h]

/-- Settles O4: too short or of a reserved opcode, the packet is answered alike; the map lists all other bytes. -/
theorem reservedOpcodesAreIllegal : Obligations.ReservedOpcodesAreIllegal := by
  refine ⟨fun op p h => ?_, fun op h => ?_⟩
  · match p with
    | [] => exact refusedWith_of_decode (decode_tooShort (by simp))
    | [_] => exact refusedWith_of_decode (decode_tooShort (by simp))
    | _ :: _ :: _ => exact refusedWith_of_decode (decode_reserved h)
  · obtain ⟨o, ho⟩ := Option.ne_none_iff_exists'.mp (mt (ofByte_eq_none_iff op).mp h)
    exact ⟨o, Opcode.toByte_of_ofByte ho, ho⟩

/-! ### Lengths -/

theorem decode_wrongLength {i1 i0 : Byte} {bytes : List Byte} (h : o.format.payload bytes = none) :
    decode (o.toByte :: i1 :: i0 :: bytes) = .error (.wrongLength o) := by
  simp [decode, h]

/-- A packet whose bytes after the header do not fit its format is refused, with or without a whole header (R109). -/
theorem illegal_of_payload {bytes : List Byte} (h : bytes.length < 2 ∨ o.format.payload (bytes.drop 2) = none) :
    refusedWith .eIllegal (o.toByte :: bytes) := by
  match bytes with
  | [] => exact refusedWith_of_decode (decode_tooShort (by simp))
  | [_] => exact refusedWith_of_decode (decode_tooShort (by simp))
  | _ :: _ :: _ => exact refusedWith_of_decode (decode_wrongLength (by simpa using h))

theorem payload_c_of_length {bytes : List Byte} (h : bytes.length ≠ 0) : Format.c.payload bytes = none := by
  match bytes with
  | [] => exact absurd rfl h
  | _ :: _ => rfl

theorem payload_cs_of_length {bytes : List Byte}
    (h : bytes.length < 2 ∨ bytes.length ≠ 2 + (half (bytes.getD 0 0) (bytes.getD 1 0)).toNat) :
    Format.cs.payload bytes = none := by
  match bytes with
  | [] => rfl
  | [_] => rfl
  | l1 :: l0 :: str =>
    have hne : str.length ≠ (half l1 l0).toNat := by simp at h; omega
    exact if_neg hne

/-- Settles O5: without a whole header, or with a wrong length behind it, the packet is no instruction. -/
theorem wrongLengthsAreIllegal : Obligations.WrongLengthsAreIllegal := by
  refine ⟨refusedWith_of_decode (e := .tooShort) rfl, fun o p => ⟨fun hf hlen => ?_, fun hf hlen => ?_⟩⟩
  all_goals
    refine illegal_of_payload ((Nat.lt_or_ge p.length 2).imp_right fun hheader => ?_)
    rw [hf]
  · exact payload_c_of_length (by simp; omega)
  · exact payload_cs_of_length (by simp [List.getD_eq_getElem?_getD] at hlen ⊢; omega)

/-! ### Operands -/

theorem not_fits_code {imm : Half} (h : 4096 ≤ imm.toNat) : ImmForm.code.fits imm = false :=
  beq_eq_false_iff_ne.mpr (mt (code_fits_iff imm).mp (Nat.not_lt.mpr h))

theorem not_fits_zero {imm : Half} (h : imm ≠ 0) : ImmForm.zero.fits imm = false := beq_eq_false_iff_ne.mpr h

/-- The two constructors refuse a bucket count of 0 themselves (R135, R136). -/
theorem exec_build_zeroCount (h : o.immForm = .n) (str : Str) (s : State) :
    exec (o.build 0 str) s = .next (respondError .eOperand s) := by
  cases o with
  | htNews | htNewc => rfl
  | _ => simp [Opcode.immForm] at h

/-- Settles O6: the decoder refuses a code or a zero operand that is none, the constructors a count of 0. -/
theorem badOperandsAreRefused : Obligations.BadOperandsAreRefused := by
  intro o imm str hlen hbad
  have hrefused : ∀ tail str', o.format.payload tail = some str' →
      refusedWith .eOperand (o.toByte :: hiByte imm :: loByte imm :: tail) := by
    intro tail str' hp
    obtain ⟨hform, himm⟩ | ⟨hform, rfl⟩ | ⟨hform, himm⟩ := hbad
    · exact refusedWith_of_decode (decode_of_not_fits hp (by rw [hform, not_fits_code himm]))
    · exact refusedWith_of_exec (decode_of_fits hp (by rw [hform]; rfl)) (exec_build_zeroCount hform str')
    · exact refusedWith_of_decode (decode_of_not_fits hp (by rw [hform, not_fits_zero himm]))
  exact ⟨fun hf => hrefused [] [] (by rw [hf]; rfl), fun hf => hrefused _ str (by rw [hf]; exact payload_cs_tail hlen)⟩

end Sys2Proof.Safety
end

section
/-! SUPPORT. One response for each command: the bodies of the commands and the rules of the engines send none, and the answer
of a command sends one and leaves the core at rest (O9). -/

namespace Sys2Proof.Machine

open Sys2Proof.Safety

variable {α : Type} {s u : State}

/-- Nothing has been sent on `RSP` from `s` to `u`. -/
def Unanswered (s u : State) : Prop := u.rsp = s.rsp

/-- From `s` to `t` exactly one response has been sent, and `t` is at rest (R101, R104). -/
def Answered (s t : State) : Prop := t.fsm.isRest = true ∧ ∃ r : Response, t.rsp = s.rsp ++ [r]

/-! ### The rules of the engines -/

theorem Unanswered.readStable : ReadStable (Unanswered s) := fun _ _ _ => id
theorem Unanswered.writeStable : WriteStable (Unanswered s) := fun _ _ _ _ => id
theorem Unanswered.packerStable : PackerStable (Unanswered s) := fun _ _ _ => id
theorem Unanswered.appendStable : AppendStable (Unanswered s) := fun _ _ => id

theorem Unanswered.resetCheckS (h : Unanswered s u) : Unanswered s (resetCheckS u) := by
  by_cases hn : u.next = 4096
  · rw [resetCheckS_full hn]; exact h
  · rw [resetCheckS_free hn]; exact h

theorem Unanswered.resetCheckC (h : Unanswered s u) : Unanswered s (resetCheckC u) := by
  by_cases hn : u.next = 4096
  · rw [resetCheckC_full hn]; exact h
  · rw [resetCheckC_free hn]; exact h

theorem Unanswered.fetch {c : Code} {v : State} (h : Unanswered s u) (hc : csTake u = some (c, v)) : Unanswered s v := by
  obtain ⟨-, -, rfl⟩ := csTake_some hc
  exact h

theorem Unanswered.assignCode (h : Unanswered s u) (key : Code) (value : Str) : Unanswered s (u.assignCode key value) :=
  (assignCode_rsp u key value).trans h

theorem Unanswered.emitPfx (h : Unanswered s u) : (emitPfx u).Ends (Unanswered s) :=
  emitPfx_ends Unanswered.writeStable Unanswered.packerStable h

theorem compressFirst_unanswered (h : Unanswered s u) : (compressFirst u).Ends (Unanswered s) := by
  refine (readByte_ends Unanswered.readStable _ h).bind (fun _ => id) fun r v hv => ?_
  cases r <;> exact hv

theorem compressAccumulate_unanswered (h : Unanswered s u) : (compressAccumulate u).Ends (Unanswered s) := by
  refine (readByte_ends Unanswered.readStable _ h.resetCheckS).bind (fun _ => id) fun r v hv => ?_
  cases r with
  | none => exact hv
  | some b =>
    dsimp only
    split <;> exact hv

theorem compressEmit_unanswered (h : Unanswered s u) : (compressEmit u).Ends (Unanswered s) := by
  refine h.emitPfx.bind (fun _ => id) fun n v hv => ?_
  dsimp only
  rw [assignStr_frame]
  exact hv

theorem compressDrain_unanswered (h : Unanswered s u) : (compressDrain u).Ends (Unanswered s) :=
  h.emitPfx.bind (fun _ => id) fun _ _ hv =>
    (pkFlushBody_ends Unanswered.writeStable Unanswered.packerStable hv).bind (fun _ => id) fun _ _ hw => hw

theorem decompressUnpack_unanswered (h : Unanswered s u) : (decompressUnpack u).Ends (Unanswered s) := by
  refine (upGroupBody_ends Unanswered.readStable Unanswered.appendStable h).bind (fun _ => id) fun r v hv => ?_
  cases r <;> exact hv

theorem decompressFirst_unanswered (h : Unanswered s u) : (decompressFirst u).Ends (Unanswered s) := by
  unfold decompressFirst
  cases hc : csTake u with
  | none => exact h
  | some p =>
    obtain ⟨c, v⟩ := p
    have hv : Unanswered s v := h.fetch hc
    have htaken : Unanswered s { v with prev := c } := hv
    dsimp only
    split
    · exact (emitStr_ends Unanswered.writeStable _ htaken).bind (fun _ => id) fun _ _ hw => hw
    · exact htaken

theorem decompressCode_unanswered (ps : Str) (cur : Code) (h : Unanswered s u) :
    (decompressCode ps cur u).Ends (Unanswered s) := by
  rw [decompressCode_eq]
  exact (emitStr_ends Unanswered.writeStable _ (h.assignCode _ _)).bind (fun _ => id) fun _ _ hv => hv

theorem decompressLoop_unanswered (h : Unanswered s u) : (decompressLoop u).Ends (Unanswered s) := by
  obtain ⟨-, he⟩ | ⟨cur, v, hc, hcase⟩ := decompressLoop_eq u
  · rw [he]; exact h
  · have hv : Unanswered s v := h.resetCheckC.fetch hc
    obtain ⟨-, he⟩ | ⟨ps, -, he⟩ := hcase
    · rw [he]; exact hv
    · rw [he]; exact decompressCode_unanswered ps cur hv

/-- No rule of a run sends a response (R200, R230). -/
theorem engineStep_unanswered (u : State) (h : Unanswered s u) : (engineStep u).Ends (Unanswered s) := by
  unfold engineStep
  cases u.fsm with
  | awaitingFirstByte => exact compressFirst_unanswered h
  | accumulating => exact compressAccumulate_unanswered h
  | emit => exact compressEmit_unanswered h
  | drain => exact compressDrain_unanswered h
  | unpacking => exact decompressUnpack_unanswered h
  | dFirst => exact decompressFirst_unanswered h
  | dLoop => exact decompressLoop_unanswered h
  | idle | done | failed => exact h

/-! ### The answers -/

/-- The exception entry is an answer (R280). -/
theorem Unanswered.takeException (h : Unanswered s u) (c : Cause) : Answered s (takeException c u) :=
  ⟨by rw [takeException_fsm]; rfl, by cases c <;> exact ⟨_, congrArg (· ++ _) h⟩⟩

/-- A normal end answers when it finds the core at rest. -/
theorem Unanswered.respond (h : Unanswered s u) (hrest : u.fsm.isRest = true) (rc : RetCode) (val : Half) :
    Answered s (respond rc val u) :=
  ⟨hrest, _, congrArg (· ++ _) h⟩

/-- A run is answered once, whatever its normal end responds. -/
theorem run_answered (n : Nat) {k : State → State} (hk : ∀ v, Unanswered s v → v.fsm.isRest = true → Answered s (k v))
    (h : Unanswered s u) : Ensures (Answered s) ((runEngine n u).answer fun _ v => k v) :=
  runEngine_ensures n engineStep_unanswered h hk fun c _ hv => hv.takeException c

/-- A command whose body sends nothing and ends at rest is answered once. -/
theorem Res.Ends.answered {r : Res α} {k : α → State → State} (hrsp : r.Ends (Unanswered s))
    (hrest : r.Ends fun u => u.fsm.isRest = true)
    (hk : ∀ a u, Unanswered s u → u.fsm.isRest = true → Answered s (k a u)) : Ensures (Answered s) (r.answer k) :=
  (hrsp.and hrest).answer (fun a u hu => hk a u hu.1 hu.2) fun c _ _ hu => hu.1.takeException c

/-- Every command taken at rest is answered once and ends at rest. -/
theorem exec_answered (i : Instr) (hrest : s.fsm.isRest = true) : Ensures (Answered s) (exec i s) := by
  have hrefl : Unanswered s s := rfl
  cases i with
  | sysReset => exact ⟨rfl, _, rfl⟩
  | sysStatus | sysRdnext | htInits | htInitc | csClear | csAppend | csReset | csHasnext => exact ⟨hrest, _, rfl⟩
  | htNews n =>
    show Ensures _ (execHtNews n s)
    unfold execHtNews
    split <;> exact ⟨hrest, _, rfl⟩
  | htNewc n =>
    show Ensures _ (execHtNewc n s)
    unfold execHtNewc
    split <;> exact ⟨hrest, _, rfl⟩
  | htPuts key value => exact withS2C_ensures (fun _ _ => ⟨hrest, _, rfl⟩) ⟨hrest, _, rfl⟩
  | htPutc key value => exact withC2S_ensures (fun _ _ => ⟨hrest, _, rfl⟩) ⟨hrest, _, rfl⟩
  | htGets key =>
    refine withS2C_ensures (fun b _ => ?_) ⟨hrest, _, rfl⟩
    cases getS s.hash b key <;> exact ⟨hrest, _, rfl⟩
  | htGetc key =>
    refine withC2S_ensures (fun b _ => ?_) ⟨hrest, _, rfl⟩
    cases getC b key <;> exact ⟨hrest, _, rfl⟩
  | htHass key => exact withS2C_ensures (fun _ _ => ⟨hrest, _, rfl⟩) ⟨hrest, _, rfl⟩
  | htHasc key => exact withC2S_ensures (fun _ _ => ⟨hrest, _, rfl⟩) ⟨hrest, _, rfl⟩
  | htSize =>
    show Ensures _ (execHtSize s)
    unfold execHtSize
    split <;> exact ⟨hrest, _, rfl⟩
  | pkPush code =>
    exact (pkPushBody_ends Unanswered.writeStable Unanswered.packerStable code hrefl).answered
      (pkPushBody_ends (fun _ _ _ _ => id) (fun _ _ _ => id) code hrest) fun _ _ hu hr => hu.respond hr _ _
  | pkFlush =>
    exact (pkFlushBody_ends Unanswered.writeStable Unanswered.packerStable hrefl).answered
      (pkFlushBody_ends (fun _ _ _ _ => id) (fun _ _ _ => id) hrest) fun _ _ hu hr => hu.respond hr _ _
  | upGroup =>
    refine (upGroupBody_ends Unanswered.readStable Unanswered.appendStable hrefl).answered
      (upGroupBody_ends (fun _ _ _ => id) (fun _ _ => id) hrest) fun r u hu hr => ?_
    cases r <;> exact hu.respond hr _ _
  | upAll =>
    exact (upAllLoop_ends Unanswered.readStable Unanswered.appendStable _ hrefl).answered
      (upAllLoop_ends (fun _ _ _ => id) (fun _ _ => id) _ hrest) fun _ _ hu hr => hu.respond hr _ _
  | csNext =>
    show Ensures _ (execCsNext s)
    unfold execCsNext
    split
    · exact ⟨hrest, _, rfl⟩
    · rename_i hc
      obtain ⟨-, -, rfl⟩ := csTake_some hc
      exact ⟨hrest, _, rfl⟩
  | lzwCompress => exact run_answered _ (fun _ hv hr => hv.respond hr _ _) (u := startCompress s) rfl
  | lzwDecompress => exact run_answered _ (fun _ hv hr => hv.respond hr _ _) (u := startDecompress s) rfl

/-- Settles O9: a refused packet and an executed command are each answered once, and no command writes `CMD` (R47). -/
theorem eachCommandGetsOneResponse : Obligations.EachCommandGetsOneResponse := by
  intro s t p rest hrest hcmd ht
  obtain ⟨e, -, he⟩ | ⟨i, -, he⟩ := step_of_command hrest hcmd
  · obtain rfl := Host.Outcome.next.inj (he.symm.trans ht)
    exact ⟨rfl, hrest, _, rfl⟩
  · rw [he] at ht
    exact ⟨((exec_owned i _).of_next ht).cmd, (exec_answered (s := { s with cmd := rest }) i hrest).of_next ht⟩

end Sys2Proof.Machine
end

section
/-! SUPPORT. The examples of the textual form (O7). -/

namespace Sys2Proof.Machine

/-- Settles O7: the assembler evaluated on each line. -/
theorem assemblerExamples : Obligations.AssemblerExamples :=
  ⟨rfl, rfl, rfl, rfl, rfl, rfl, rfl, rfl, rfl, rfl, rfl, rfl, rfl, rfl, rfl⟩

end Sys2Proof.Machine
end

section
/-! SUPPORT. The bucket table against an association list: puts, gets and chains for keys of either kind, said once over the
index function (O26, O33), and the table of the 256 singles. -/

namespace Sys2Proof.Machine

section
variable {κ ν : Type}

/-! ### A table over any index function -/

/-- `put` over an index function: `putS` and `putC` are its two cases (R140, R141). -/
def putBy (idx : Nat → κ → Int) (t : List (List (κ × ν))) (key : κ) (value : ν) : List (List (κ × ν)) :=
  appendAt t (idx t.length key).toNat (key, value)

/-- `get` over an index function: `getS` and `getC` are its two cases (R142, R143). -/
def getBy [DecidableEq κ] (idx : Nat → κ → Int) (t : List (List (κ × ν))) (key : κ) : Option ν :=
  lookupAt t (idx t.length key) key

/-- The puts of a list, its head first. -/
def putAllBy (idx : Nat → κ → Int) (t : List (List (κ × ν))) (puts : List (κ × ν)) : List (List (κ × ν)) :=
  puts.foldl (fun t e => putBy idx t e.1 e.2) t

/-- Every index of a table with at least one bucket is in range (R132, R148). -/
def IndexInRange (idx : Nat → κ → Int) : Prop := ∀ ⦃n : Nat⦄, 0 < n → ∀ key, 0 ≤ idx n key ∧ idx n key < n

theorem idxStr_inRange (h : HashFn) : IndexInRange (idxStr h) := fun _ hn => idxStr_range h hn

theorem idxCode_inRange : IndexInRange idxCode := fun _ hn => idxCode_range hn

variable {idx : Nat → κ → Int} {t : List (List (κ × ν))}

theorem IndexInRange.toNat_lt (hidx : IndexInRange idx) (ht : 0 < t.length) (key : κ) :
    (idx t.length key).toNat < t.length := by
  obtain ⟨h0, hlt⟩ := hidx ht key
  omega

@[simp] theorem putBy_length (key : κ) (value : ν) : (putBy idx t key value).length = t.length := appendAt_length _ _ _

/-- A put appends at the tail of the chain its key selects and leaves the other chains (R140). -/
theorem putBy_getD (hidx : IndexInRange idx) (ht : 0 < t.length) (key : κ) (value : ν) (j : Nat) :
    (putBy idx t key value).getD j [] =
      if j = (idx t.length key).toNat then t.getD (idx t.length key).toNat [] ++ [(key, value)] else t.getD j [] :=
  appendAt_getD t _ j _ (hidx.toNat_lt ht key)

/-- A chain after a sequence of puts: what it held, then the puts of its own keys in order. -/
theorem putAllBy_getD (hidx : IndexInRange idx) (ht : 0 < t.length) (puts : List (κ × ν)) (j : Nat) :
    (putAllBy idx t puts).getD j [] = t.getD j [] ++ puts.filter fun e => (idx t.length e.1).toNat = j := by
  induction puts generalizing t with
  | nil => simp [putAllBy]
  | cons e puts ih =>
    have hrest := ih (t := putBy idx t e.1 e.2) (by rwa [putBy_length])
    rw [putBy_length, putBy_getD hidx ht] at hrest
    refine hrest.trans ?_
    by_cases hj : (idx t.length e.1).toNat = j
    · simp [hj]
    · simp [hj, Ne.symm hj]

@[simp] theorem putAllBy_length (puts : List (κ × ν)) : (putAllBy idx t puts).length = t.length := by
  induction puts generalizing t with
  | nil => rfl
  | cons e puts ih => exact ih.trans (putBy_length _ _)

/-- A put in range adds one entry to the table. -/
theorem appendAt_flatten_length {α : Type} {t : List (List α)} {i : Nat} (e : α) (hi : i < t.length) :
    (appendAt t i e).flatten.length = t.flatten.length + 1 := by
  induction t generalizing i with
  | nil => simp at hi
  | cons c t ih =>
    cases i with
    | zero => simp [appendAt]; omega
    | succ i =>
      have := ih (i := i) (by simpa using hi)
      simp only [appendAt, List.flatten_cons, List.length_append] at this ⊢
      omega

/-- Every put adds one entry, whether its key is there or not (R140). -/
theorem putAllBy_flatten_length (hidx : IndexInRange idx) (ht : 0 < t.length) (puts : List (κ × ν)) :
    (putAllBy idx t puts).flatten.length = t.flatten.length + puts.length := by
  induction puts generalizing t with
  | nil => rfl
  | cons e puts ih =>
    have hone : (putBy idx t e.1 e.2).flatten.length = t.flatten.length + 1 :=
      appendAt_flatten_length _ (hidx.toNat_lt ht e.1)
    refine (ih (t := putBy idx t e.1 e.2) (by rwa [putBy_length])).trans ?_
    rw [hone, List.length_cons]
    omega

variable [DecidableEq κ]

/-- With at least one bucket the bound check of a get never answers: a get is a scan of the key's chain (R142, R148). -/
theorem getBy_eq_find (hidx : IndexInRange idx) (ht : 0 < t.length) (key : κ) :
    getBy idx t key = find (t.getD (idx t.length key).toNat []) key := by
  have h := lookupAt_inRange t _ key (hidx.toNat_lt ht key)
  rwa [Int.toNat_of_nonneg (hidx ht key).1] at h

/-- Entries of other keys do not change which entry matches first (R139). -/
theorem find_filter {p : κ × ν → Bool} {key : κ} (l : List (κ × ν)) (hp : ∀ e ∈ l, e.1 = key → p e = true) :
    find (l.filter p) key = find l key := by
  induction l with
  | nil => rfl
  | cons e l ih =>
    obtain ⟨k, v⟩ := e
    have ih := ih fun e he => hp e (List.mem_cons_of_mem _ he)
    by_cases hk : k = key
    · rw [List.filter_cons_of_pos (hp _ List.mem_cons_self hk)]
      simp [find, hk]
    · cases hpe : p (k, v) <;> simp [hpe, find, hk, ih]

/-- After a sequence of puts a get answers what it answered before, or else the earliest put of its key (R149). -/
theorem getBy_putAllBy (hidx : IndexInRange idx) (ht : 0 < t.length) (puts : List (κ × ν)) (key : κ) :
    getBy idx (putAllBy idx t puts) key = (getBy idx t key).or (find puts key) := by
  rw [getBy_eq_find hidx (by rwa [putAllBy_length]), getBy_eq_find hidx ht, putAllBy_length, putAllBy_getD hidx ht,
    find_append, find_filter puts fun e _ he => by simp [he]]

theorem emptyTable_pos {α : Type} {n : Nat} (hn : 0 < n) : 0 < (emptyTable α n).length := by rwa [emptyTable_length]

/-- In a fresh table no key is found (R135). -/
theorem getBy_emptyTable (hidx : IndexInRange idx) {n : Nat} (hn : 0 < n) (key : κ) :
    getBy idx (emptyTable (κ × ν) n) key = none := by
  rw [getBy_eq_find hidx (emptyTable_pos hn), emptyTable_getD]
  rfl

/-- A fresh table filled by puts is their association list (R149). -/
theorem getBy_putAllBy_emptyTable (hidx : IndexInRange idx) {n : Nat} (hn : 0 < n) (puts : List (κ × ν)) (key : κ) :
    getBy idx (putAllBy idx (emptyTable _ n) puts) key = find puts key := by
  rw [getBy_putAllBy hidx (emptyTable_pos hn), getBy_emptyTable hidx hn, Option.none_or]

end

/-! ### The two kinds of table -/

/-- A get of a string is a scan of its chain (R142). -/
theorem getS_eq_find (h : HashFn) {t : List (List (Str × Code))} (ht : 0 < t.length) (key : Str) :
    getS h t key = find (t.getD (idxStr h t.length key).toNat []) key := getBy_eq_find (idxStr_inRange h) ht key

/-- A get of a code is a scan of chain `key mod N` (R143). -/
theorem getC_eq_find {t : List (List (Code × Str))} (ht : 0 < t.length) (key : Code) :
    getC t key = find (t.getD (key.toNat % t.length) []) key := by
  rw [← idxCode_toNat]
  exact getBy_eq_find idxCode_inRange ht key

/-- A put answers the gets of its key where nothing answered before, and no others (R140, R146). -/
theorem getS_putS (h : HashFn) {t : List (List (Str × Code))} (ht : 0 < t.length) (k : Str) (v : Code) (key : Str) :
    getS h (putS h t k v) key = (getS h t key).or (if k = key then some v else none) := by
  rw [← find_singleton]
  exact getBy_putAllBy (idxStr_inRange h) ht [(k, v)] key

/-- A put answers the gets of its key where nothing answered before, and no others (R141, R146). -/
theorem getC_putC {t : List (List (Code × Str))} (ht : 0 < t.length) (k : Code) (v : Str) (key : Code) :
    getC (putC t k v) key = (getC t key).or (if k = key then some v else none) := by
  rw [← find_singleton]
  exact getBy_putAllBy idxCode_inRange ht [(k, v)] key

/-- Settles O33: the chain of a key holds the puts of that key in order, so the first match is the earliest put. -/
theorem tableRefinesAnAssociationList : Obligations.TableRefinesAnAssociationList :=
  ⟨fun h _ puts key hn => getBy_putAllBy_emptyTable (idxStr_inRange h) hn puts key,
    fun _ puts key hn => getBy_putAllBy_emptyTable idxCode_inRange hn puts key⟩

/-- Settles O26: the Euclidean remainder by a positive count is in range whatever the hash (R132). -/
theorem bucketIndexIsAlwaysInRange : Obligations.BucketIndexIsAlwaysInRange := by
  refine fun h n hn => ⟨fun key => ?_, fun key => (Int.natCast_emod _ _).symm⟩
  obtain ⟨h0, hlt⟩ := idxStr_range h hn key
  exact ⟨h0, hlt, hashStr h key / n, (Int.mul_ediv_add_emod _ _).symm⟩

/-! ### The 256 singles -/

theorem nEngine_pos : 0 < Config.nEngine := by decide

/-- The table of `HT.INITS` is 256 empty chains and the puts of the singles (R137). -/
theorem initS_eq (h : HashFn) : initS h = putAllBy (idxStr h) (emptyTable _ Config.nEngine) singlesS := by
  rw [putAllBy, singlesS, List.foldl_map]
  rfl

/-- The table of `HT.INITC` is 256 empty chains and the puts of the singles (R138). -/
theorem initC_eq : initC = putAllBy idxCode (emptyTable _ Config.nEngine) singlesC := by
  rw [putAllBy, singlesC, List.foldl_map]
  rfl

/-- Whatever the hash, the compressor's fresh table answers as the list of the singles does (R137, R212). -/
theorem getS_initS (h : HashFn) (key : Str) : getS h (initS h) key = find singlesS key := by
  rw [initS_eq]
  exact getBy_putAllBy_emptyTable (idxStr_inRange h) nEngine_pos _ key

/-- The decompressor's fresh table answers as the list of the singles does (R138, R251). -/
theorem getC_initC (key : Code) : getC initC key = find singlesC key := by
  rw [initC_eq]
  exact getBy_putAllBy_emptyTable idxCode_inRange nEngine_pos _ key

theorem mem_allBytes (b : Byte) : b ∈ allBytes :=
  List.mem_map.mpr ⟨b.toNat, List.mem_range.mpr b.isLt, by simp⟩

theorem allBytes_nodup : allBytes.Nodup := by
  refine List.nodup_range.map_on fun i hi j hj hij => ?_
  have h := congrArg BitVec.toNat hij
  rwa [BitVec.toNat_ofNat, BitVec.toNat_ofNat, Nat.mod_eq_of_lt (List.mem_range.mp hi),
    Nat.mod_eq_of_lt (List.mem_range.mp hj)] at h

@[simp] theorem allBytes_length : allBytes.length = 256 := by simp [allBytes]

@[simp] theorem single_toNat (b : Byte) : (single b).toNat = b.toNat := by
  have := b.isLt
  rw [single, BitVec.toNat_setWidth, Nat.mod_eq_of_lt (by omega)]

/-- In a list of entries made from `l`, the key of a member is found with its value where no two members share a key. -/
theorem find_map_of_mem {α κ ν : Type} [DecidableEq κ] {key : α → κ} {value : α → ν} (hkey : Function.Injective key)
    {l : List α} {a : α} (ha : a ∈ l) : find (l.map fun x => (key x, value x)) (key a) = some (value a) := by
  induction l with
  | nil => simp at ha
  | cons x l ih =>
    rw [List.map_cons, find]
    obtain rfl | ha := List.mem_cons.mp ha
    · exact if_pos rfl
    · split
      · rename_i hx
        rw [hkey hx]
      · exact ih ha

theorem single_injective : Function.Injective single := fun a b h => by
  have := congrArg BitVec.toNat h
  rw [single_toNat, single_toNat] at this
  exact BitVec.eq_of_toNat_eq this

/-- A single is found with its code (R26). -/
theorem find_singlesS (b : Byte) : find singlesS [b] = some (single b) :=
  find_map_of_mem List.singleton_injective (mem_allBytes b)

/-- A code below 256 is found with its single (R26). -/
theorem find_singlesC (b : Byte) : find singlesC (single b) = some [b] :=
  find_map_of_mem (value := fun b => [b]) single_injective (mem_allBytes b)

theorem find_singlesS_none {str : Str} (hlen : str.length ≠ 1) : find singlesS str = none := by
  refine find_eq_none.mpr fun e he hkey => hlen ?_
  obtain ⟨b, -, rfl⟩ := List.mem_map.mp he
  rw [← hkey]
  rfl

theorem find_singlesC_none {c : Code} (hc : 256 ≤ c.toNat) : find singlesC c = none := by
  refine find_eq_none.mpr fun e he hkey => ?_
  obtain ⟨b, -, rfl⟩ := List.mem_map.mp he
  have := b.isLt
  rw [← hkey, single_toNat] at hc
  omega

end Sys2Proof.Machine
end

section
/-! SUPPORT. The encodings of one row of the opcode map, by its format and operand form, as the statements on single commands
ask for them. -/

namespace Sys2Proof.Safety

open Sys2Proof.Machine

variable {o : Opcode} {imm : Half} {str : Str}

/-- The packet of an instruction built from a row and an operand of its form (R100, R102). -/
theorem encode_build (himm : o.immForm.fits imm = true) (str : Str) :
    encode (o.build imm str) = o.toByte :: hiByte imm :: loByte imm :: o.format.tail str := by
  rw [encode, Opcode.opcode_build, Opcode.imm_build himm, Opcode.tail_str_build]

/-- A code operand that fits is the low 12 bits of its field (R102). -/
theorem fits_code {imm : Half} (h : imm.toNat < 4096) : ImmForm.code.fits imm = true :=
  beq_iff_eq.mpr ((code_fits_iff imm).mpr h)

theorem immCode_eq_setWidth (imm : Half) : immCode imm = imm.setWidth 12 := by
  ext i hi
  simp [immCode]

/-! ### Format C -/

theorem encode_decode_packetC (hf : o.format = .c) (himm : o.immForm.fits imm = true) :
    encode (o.build imm []) = packetC o.toByte imm ∧ decode (packetC o.toByte imm) = .ok (o.build imm []) :=
  ⟨by rw [encode_build himm, hf]; rfl, decode_of_fits (by rw [hf]; rfl) himm⟩

theorem zeroForm_of_row {i : Instr} (hf : o.format = .c) (hform : o.immForm = .zero) (hi : o.build 0 [] = i) :
    zeroForm o.toByte i := by
  obtain ⟨henc, hdec⟩ := encode_decode_packetC hf (imm := 0) (by rw [hform]; rfl)
  rw [hi] at henc hdec
  exact ⟨henc, hdec, fun imm himm =>
    (badOperandsAreRefused o imm [] (Nat.zero_le _) (.inr (.inr ⟨hform, himm⟩))).1 hf⟩

theorem codeForm_of_row {f : Code → Instr} (hf : o.format = .c) (hform : o.immForm = .code)
    (hbuild : ∀ imm, o.build imm [] = f (immCode imm)) : codeForm o.toByte f := by
  refine fun imm => ⟨fun himm => ?_, fun himm =>
    (badOperandsAreRefused o imm [] (Nat.zero_le _) (.inl ⟨hform, himm⟩)).1 hf⟩
  obtain ⟨henc, hdec⟩ := encode_decode_packetC hf (imm := imm) (by rw [hform, fits_code himm])
  rw [hbuild, immCode_eq_setWidth] at henc hdec
  exact ⟨hdec, henc⟩

/-! ### Format CS -/

theorem encode_decode_packetCS (hf : o.format = .cs) (himm : o.immForm.fits imm = true) (hlen : str.length ≤ 65535) :
    encode (o.build imm str) = packetCS o.toByte imm str ∧
      decode (packetCS o.toByte imm str) = .ok (o.build imm str) :=
  ⟨by rw [encode_build himm, hf]; rfl, decode_of_fits (by rw [hf]; exact payload_cs_tail hlen) himm⟩

theorem zeroStrForm_of_row {f : Str → Instr} (hf : o.format = .cs) (hform : o.immForm = .zero)
    (hbuild : ∀ str, o.build 0 str = f str) : zeroStrForm o.toByte f := by
  intro str hlen
  obtain ⟨henc, hdec⟩ := encode_decode_packetCS hf (imm := 0) (by rw [hform]; rfl) hlen
  rw [hbuild] at henc hdec
  exact ⟨henc, hdec, fun imm himm => (badOperandsAreRefused o imm str hlen (.inr (.inr ⟨hform, himm⟩))).2 hf⟩

theorem codeStrForm_of_row {f : Code → Str → Instr} (hf : o.format = .cs) (hform : o.immForm = .code)
    (hbuild : ∀ imm str, o.build imm str = f (immCode imm) str) : codeStrForm o.toByte f := by
  refine fun str imm hlen => ⟨fun himm => ?_, fun himm =>
    (badOperandsAreRefused o imm str hlen (.inl ⟨hform, himm⟩)).2 hf⟩
  obtain ⟨henc, hdec⟩ := encode_decode_packetCS hf (imm := imm) (by rw [hform, fits_code himm]) hlen
  rw [hbuild, immCode_eq_setWidth] at henc hdec
  exact ⟨hdec, henc⟩

end Sys2Proof.Safety
end

section
/-! SUPPORT. The commands of the Dictionary Index (O22 to O25, O27 to O32). -/

namespace Sys2Proof.Machine

open Sys2Proof.Safety

variable {s : State}

/-! ### Constructors -/

/-- Settles O22: the decoder lets every count through, and the constructor itself refuses 0. -/
theorem newBuildsAnEmptyTable : Obligations.NewBuildsAnEmptyTable := by
  refine ⟨fun n => ?_, fun s n hn => ?_, fun s n hn => ?_, fun s => ⟨rfl, rfl⟩⟩
  · obtain ⟨hencS, hdecS⟩ := encode_decode_packetC (o := .htNews) (imm := n) rfl rfl
    obtain ⟨hencC, hdecC⟩ := encode_decode_packetC (o := .htNewc) (imm := n) rfl rfl
    exact ⟨hdecS, hdecC, hencS, hencC⟩
  · exact ⟨emptyTable _ n.toNat, if_neg hn, emptyTable_length _ _, emptyTable_getD _ _⟩
  · exact ⟨emptyTable _ n.toNat, if_neg hn, emptyTable_length _ _, emptyTable_getD _ _⟩

/-- Settles O23: each single is put once, so the table answers as the list of the singles does. -/
theorem initsHoldsTheSingles : Obligations.InitsHoldsTheSingles := by
  refine ⟨zeroForm_of_row (o := .htInits) rfl rfl rfl, fun s =>
    ⟨initS s.hash, rfl, initS_length _, ?_, fun c => ?_, fun str hlen => ?_⟩⟩
  · rw [initS_eq, putAllBy_flatten_length (idxStr_inRange _) (emptyTable_pos nEngine_pos)]
    simp [emptyTable, singlesS]
  · rw [getS_initS]; exact find_singlesS c
  · rw [getS_initS]; exact find_singlesS_none hlen

/-- Bucket `i` of the decompressor's fresh table is the one entry `(i, [i])` (R138). -/
theorem initC_getD (c : Byte) : initC.getD c.toNat [] = [(single c, [c])] := by
  have hidx : ∀ b : Byte, (idxCode 256 (single b)).toNat = c.toNat ↔ b = c := fun b => by
    rw [idxCode_toNat, single_toNat, Nat.mod_eq_of_lt b.isLt, BitVec.toNat_inj]
  have hone : allBytes.filter (· = c) = [c] := by
    rw [List.filter_eq, List.count_eq_one_of_mem allBytes_nodup (mem_allBytes c)]
    rfl
  rw [initC_eq, putAllBy_getD idxCode_inRange (emptyTable_pos nEngine_pos), emptyTable_getD, emptyTable_length,
    List.nil_append, singlesC, List.filter_map]
  simp only [Function.comp_def, Config.nEngine, hidx, hone]
  rfl

/-- Settles O24: each bucket is the one single of its own index. -/
theorem initcHoldsTheSingles : Obligations.InitcHoldsTheSingles := by
  refine ⟨zeroForm_of_row (o := .htInitc) rfl rfl rfl, fun s =>
    ⟨initC, rfl, initC_length, initC_getD, fun c => ?_, fun c hc => ?_⟩⟩
  · rw [getC_initC]; exact find_singlesC c
  · rw [getC_initC]; exact find_singlesC_none hc

/-! ### The check of R131 -/

theorem withS2C_of_table {t : List (List (Str × Code))} (h : s.di = some (.s2c t)) (f : List (List (Str × Code)) → Result) :
    withS2C s f = f t := by
  simp [withS2C, h]

theorem withC2S_of_table {t : List (List (Code × Str))} (h : s.di = some (.c2s t)) (f : List (List (Code × Str)) → Result) :
    withC2S s f = f t := by
  simp [withC2S, h]

theorem withS2C_of_missing (h : ∀ t, s.di ≠ some (.s2c t)) (f : List (List (Str × Code)) → Result) :
    withS2C s f = .next (respondError .eNoinst s) := by
  obtain ⟨t, ht, -⟩ | ⟨-, hw⟩ := withS2C_cases s f
  · exact absurd ht (h t)
  · exact hw

theorem withC2S_of_missing (h : ∀ t, s.di ≠ some (.c2s t)) (f : List (List (Code × Str)) → Result) :
    withC2S s f = .next (respondError .eNoinst s) := by
  obtain ⟨t, ht, -⟩ | ⟨-, hw⟩ := withC2S_cases s f
  · exact absurd ht (h t)
  · exact hw

/-- Without a table the size is refused (R131, R147). -/
theorem exec_htSize_of_none (h : s.di = none) : exec .htSize s = .next (respondError .eNoinst s) := by
  simp [exec, execHtSize, h]

/-- The size of a table of either kind is its bucket count (R147). -/
theorem exec_htSize_of_some {d : Dict} (h : s.di = some d) : exec .htSize s = .next (respond .ok (BitVec.ofNat 16 d.size) s) := by
  simp [exec, execHtSize, h]

/-- Settles O25: each of these commands is the check of R131 first. -/
theorem missingTableIsRefused : Obligations.MissingTableIsRefused := by
  refine ⟨fun s hs i hi => ?_, fun s hs i hi => ?_, fun s hs => ?_⟩
  · obtain ⟨k, v, rfl⟩ | ⟨k, rfl⟩ | ⟨k, rfl⟩ := hi <;> exact withS2C_of_missing hs _
  · obtain ⟨k, v, rfl⟩ | ⟨k, rfl⟩ | ⟨k, rfl⟩ := hi <;> exact withC2S_of_missing hs _
  · exact exec_htSize_of_none hs

/-- Settles O32: the size is the number of chains, whatever they hold. -/
theorem sizeAnswersTheBucketCount : Obligations.SizeAnswersTheBucketCount :=
  ⟨zeroForm_of_row (o := .htSize) rfl rfl rfl, fun _ _ => exec_htSize_of_some, fun _ _ => exec_htSize_of_some,
    fun _ => exec_htSize_of_none⟩

/-! ### Puts -/

/-- Settles O27: the chain of the key's index gains the entry at its tail. -/
theorem putsAppendsAtTheTail : Obligations.PutsAppendsAtTheTail := by
  refine ⟨codeStrForm_of_row (o := .htPuts) rfl rfl fun _ _ => rfl, fun s b key value hb hlen => ?_⟩
  have hidx := idxStr_inRange s.hash
  have hchain := putBy_getD hidx hlen key value
  refine ⟨putS s.hash b key value, _, withS2C_of_table hb _, (Int.toNat_of_nonneg (hidx hlen key).1).symm,
    hidx.toNat_lt hlen key, putS_length _ _ _ _, (hchain _).trans (if_pos rfl), fun j hj => (hchain j).trans (if_neg hj)⟩

/-- Settles O28: the chain of the key's index gains the entry at its tail. -/
theorem putcAppendsAtTheTail : Obligations.PutcAppendsAtTheTail := by
  refine ⟨codeStrForm_of_row (o := .htPutc) rfl rfl fun _ _ => rfl, fun s b key value hb hlen => ?_⟩
  have hchain := putBy_getD idxCode_inRange hlen key value
  rw [idxCode_toNat] at hchain
  exact ⟨putC b key value, withC2S_of_table hb _, putC_length _ _ _, (hchain _).trans (if_pos rfl),
    fun j hj => (hchain j).trans (if_neg hj)⟩

/-! ### Lookups -/

section
variable {b : List (List (Str × Code))} (hdi : s.di = some (.s2c b)) (hb : 0 < b.length)
include hdi hb

/-- A get of a string answers the first match in the key's chain (R139, R142). -/
theorem exec_htGets (key : Str) :
    exec (.htGets key) s = .next (respondCode (find (b.getD (idxStr s.hash b.length key).toNat []) key) s) := by
  rw [← getS_eq_find _ hb]
  exact withS2C_of_table hdi _

/-- A test of a string answers whether its chain has a match (R144). -/
theorem exec_htHass (key : Str) :
    exec (.htHass key) s = .next (respondBool (find (b.getD (idxStr s.hash b.length key).toNat []) key).isSome s) := by
  rw [← getS_eq_find _ hb]
  exact withS2C_of_table hdi _

end

section
variable {b : List (List (Code × Str))} (hdi : s.di = some (.c2s b)) (hb : 0 < b.length)
include hdi hb

/-- A get of a code answers the first match in chain `key mod N` (R139, R143). -/
theorem exec_htGetc (key : Code) :
    exec (.htGetc key) s = .next (respondFound (find (b.getD (key.toNat % b.length) []) key) s) := by
  rw [← getC_eq_find hb]
  exact withC2S_of_table hdi _

/-- A test of a code answers whether its chain has a match (R145). -/
theorem exec_htHasc (key : Code) :
    exec (.htHasc key) s = .next (respondBool (find (b.getD (key.toNat % b.length) []) key).isSome s) := by
  rw [← getC_eq_find hb]
  exact withC2S_of_table hdi _

end

/-- A string that fits in a response is sent whole (R104). -/
theorem respondStr_of_le {str : Str} (h : str.length ≤ maxPayload) (s : State) :
    respondStr str s = { s with rsp := s.rsp ++ [.rs .ok 0 str] } := by
  rw [respondStr, if_neg (Nat.not_lt.mpr h), List.take_of_length_le h]

/-- A longer string is cut (R104). -/
theorem respondStr_of_gt {str : Str} (h : maxPayload < str.length) (s : State) :
    respondStr str s = { s with rsp := s.rsp ++ [.rs .ok 1 (str.take maxPayload)] } := by
  rw [respondStr, if_pos h]

/-- Settles O29: a get is a scan of the key's chain, answered by what it finds. -/
theorem getsAnswersTheFirstMatch : Obligations.GetsAnswersTheFirstMatch := by
  refine ⟨zeroStrForm_of_row (o := .htGets) rfl rfl fun _ => rfl, fun s b key hdi hb => ⟨fun v hv => ?_, fun hnone => ?_⟩⟩
  · rw [exec_htGets hdi hb, hv]; rfl
  · rw [exec_htGets hdi hb, hnone]; rfl

/-- Settles O30: a get is a scan of the key's chain, answered by what it finds. -/
theorem getcAnswersTheFirstMatch : Obligations.GetcAnswersTheFirstMatch := by
  refine ⟨codeForm_of_row (o := .htGetc) rfl rfl fun _ => rfl, fun s b key hdi hb =>
    ⟨fun str hstr hlen => ?_, fun str hstr hlen => ?_, fun hnone => ?_⟩⟩
  · rw [exec_htGetc hdi hb, hstr, respondFound, respondStr_of_le hlen]
  · rw [exec_htGetc hdi hb, hstr, respondFound, respondStr_of_gt hlen]; rfl
  · rw [exec_htGetc hdi hb, hnone]; rfl

/-- A get of a string is answered `OK` exactly where something was found (R105, R142). -/
theorem respondCode_ok_iff (r : Option Code) (s : State) :
    (∃ v, respondCode r s = { s with rsp := s.rsp ++ [.r .ok v] }) ↔ r.isSome = true := by
  cases r with
  | some v => exact iff_of_true ⟨zextCode v, rfl⟩ rfl
  | none => simp [respondCode, respond]

/-- A get of a code is answered by a string exactly where one was found (R105, R143). -/
theorem respondFound_ok_iff (r : Option Str) (s : State) :
    (∃ v str, respondFound r s = { s with rsp := s.rsp ++ [.rs .ok v str] }) ↔ r.isSome = true := by
  cases r with
  | some str => exact iff_of_true ⟨_, _, rfl⟩ rfl
  | none => simp [respondFound, respond]

/-- Settles O31: the test and the get of a key are answered from the same scan of its chain. -/
theorem containsAgreesWithGet : Obligations.ContainsAgreesWithGet := by
  refine ⟨zeroStrForm_of_row (o := .htHass) rfl rfl fun _ => rfl, codeForm_of_row (o := .htHasc) rfl rfl fun _ => rfl, ?_, ?_⟩
  · rintro s b key found hdi hb rfl
    refine ⟨exec_htHass hdi hb key, ?_⟩
    simp only [exec_htGets hdi hb, Host.Outcome.next.injEq, respondCode_ok_iff]
  · rintro s b key found hdi hb rfl
    refine ⟨exec_htHasc hdi hb key, ?_⟩
    simp only [exec_htGetc hdi hb, Host.Outcome.next.injEq, respondFound_ok_iff]

end Sys2Proof.Machine
end

section
/-! SUPPORT. Two runs side by side from states that differ in `hash_str` and in the table alone (O34): no rule of the engines
reads the hash but to find an entry. -/

namespace Sys2Proof.Machine

open Sys2Proof.Safety

variable {α β : Type} {R Q : State → State → Prop} {P : State → Prop} {t u : State}

/-! ### Pseudocode that ends alike -/

/-- Two pieces of pseudocode that end in the same way, with the same value or cause, in states related by `R`; of two that
wait nothing is said. -/
inductive Res.Alike (R : State → State → Prop) : Res α → Res α → Prop
  | ok (a : α) {t u : State} (h : R t u) : Alike R (.ok a t) (.ok a u)
  | raise (c : Cause) {t u : State} (h : R t u) : Alike R (.raise c t) (.raise c u)
  | stuck (e e' : Fault) : Alike R (.stuck e) (.stuck e')

theorem Res.Alike.bind {r r' : Res α} {f f' : α → State → Res β} (h : r.Alike Q r') (hQR : ∀ t u, Q t u → R t u)
    (hf : ∀ a t u, Q t u → (f a t).Alike R (f' a u)) : (r.bind f).Alike R (r'.bind f') := by
  cases h with
  | ok a h => exact hf a _ _ h
  | raise c h => exact .raise c (hQR _ _ h)
  | stuck e e' => exact .stuck e e'

/-- What holds where the first piece ends may be added to the relation. -/
theorem Res.Alike.and_ends {r r' : Res α} (h : r.Alike R r') (hP : r.Ends P) :
    r.Alike (fun t u => R t u ∧ P t) r' := by
  cases h with
  | ok a h => exact .ok a ⟨h, hP⟩
  | raise c h => exact .raise c ⟨h, hP⟩
  | stuck e e' => exact .stuck e e'

/-- Two commands whose bodies end alike and that both answer leave related states, if their answers and the exception entry
keep the relation. -/
theorem Res.Alike.answer {r r' : Res α} {k : α → State → State} (h : r.Alike R r')
    (hk : ∀ a t u, R t u → R (k a t) (k a u)) (hraise : ∀ c t u, R t u → R (takeException c t) (takeException c u))
    (ht : r.answer k = .next t) (hu : r'.answer k = .next u) : R t u := by
  cases h with
  | ok a h =>
    obtain rfl := Host.Outcome.next.inj ht
    obtain rfl := Host.Outcome.next.inj hu
    exact hk a _ _ h
  | raise c h =>
    obtain rfl := Host.Outcome.next.inj ht
    obtain rfl := Host.Outcome.next.inj hu
    exact hraise c _ _ h
  | stuck e e' => simp at ht

/-! ### States equal but for the hash and the table -/

/-- `s` with another hash and another table. -/
def State.withDict (s : State) (h : HashFn) (d : Option Dict) : State := { s with hash := h, di := d }

/-- A relation between the hash and the table of one state and those of another. -/
abbrev DictRel := HashFn → Option Dict → HashFn → Option Dict → Prop

/-- Two states equal in everything but the hash and the table, which `T` relates. -/
inductive Twin (T : DictRel) : State → State → Prop
  | mk (s : State) {h h' : HashFn} {d d' : Option Dict} (hT : T h d h' d') : Twin T (s.withDict h d) (s.withDict h' d')

section
variable {T : DictRel}

theorem Twin.fsm_eq (h : Twin T t u) : u.fsm = t.fsm := by obtain ⟨s, -⟩ := h; rfl
theorem Twin.next_eq (h : Twin T t u) : u.next = t.next := by obtain ⟨s, -⟩ := h; rfl
theorem Twin.pk_eq (h : Twin T t u) : u.pk = t.pk := by obtain ⟨s, -⟩ := h; rfl
theorem Twin.pfx_eq (h : Twin T t u) : u.pfx = t.pfx := by obtain ⟨s, -⟩ := h; rfl
theorem Twin.cur_eq (h : Twin T t u) : u.cur = t.cur := by obtain ⟨s, -⟩ := h; rfl
theorem Twin.prev_eq (h : Twin T t u) : u.prev = t.prev := by obtain ⟨s, -⟩ := h; rfl
theorem Twin.csMore_eq (h : Twin T t u) : u.csMore = t.csMore := by obtain ⟨s, -⟩ := h; rfl
theorem Twin.skip_eq (h : Twin T t u) : u.sticky.skip = t.sticky.skip := by obtain ⟨s, -⟩ := h; rfl

theorem Twin.withFsm (h : Twin T t u) (f : Fsm) : Twin T { t with fsm := f } { u with fsm := f } := by
  obtain ⟨s, hT⟩ := h
  exact .mk { s with fsm := f } hT

theorem Twin.setDone (h : Twin T t u) : Twin T t.setDone u.setDone := by
  obtain ⟨s, hT⟩ := h
  exact .mk s.setDone hT

theorem Twin.setSkip (h : Twin T t u) : Twin T t.setSkip u.setSkip := by
  obtain ⟨s, hT⟩ := h
  exact .mk s.setSkip hT

theorem Twin.clearPacker (h : Twin T t u) : Twin T t.clearPacker u.clearPacker := by
  obtain ⟨s, hT⟩ := h
  exact .mk s.clearPacker hT

theorem Twin.respond (h : Twin T t u) (rc : RetCode) (val : Half) : Twin T (respond rc val t) (respond rc val u) := by
  obtain ⟨s, hT⟩ := h
  exact .mk (Machine.respond rc val s) hT

theorem Twin.takeException (h : Twin T t u) (c : Cause) : Twin T (takeException c t) (takeException c u) := by
  obtain ⟨s, hT⟩ := h
  cases c with
  | outputIoError => exact .mk (Machine.takeException .outputIoError s) hT
  | internalLookupMiss => exact .mk (Machine.takeException .internalLookupMiss s) hT

/-! ### The operations that touch neither the hash nor the table -/

theorem readByte_twin (held : List Byte) (h : Twin T t u) : (readByte held t).Alike (Twin T) (readByte held u) := by
  obtain ⟨s, hT⟩ := h
  unfold readByte State.withDict
  dsimp only
  split
  · exact .ok none (.mk (s.log (.read none)) hT)
  · rename_i b rest _
    exact .ok (some b) (.mk (State.log { s with inp := rest } (.read (some b))) hT)
  · rename_i rest _
    exact .ok none (.mk (State.log { s with inp := rest } (.read none)) hT)
  · exact .stuck _ _

theorem emitByte_twin (b : Byte) (h : Twin T t u) : (emitByte b t).Alike (Twin T) (emitByte b u) := by
  obtain ⟨s, hT⟩ := h
  unfold emitByte State.withDict
  dsimp only
  split
  · exact .ok () (.mk (State.log { s with out := s.out ++ [b] } (.write b true)) hT)
  · rename_i rest _
    exact .ok () (.mk (State.log { s with sink := rest, out := s.out ++ [b] } (.write b true)) hT)
  · rename_i rest _
    exact .raise .outputIoError (.mk (State.log { s with sink := rest } (.write b false)) hT)
  · exact .stuck _ _

theorem emitStr_twin (str : Str) (h : Twin T t u) : (emitStr str t).Alike (Twin T) (emitStr str u) := by
  induction str generalizing t u with
  | nil => exact .ok () h
  | cons b str ih => exact (emitByte_twin b h).bind (fun _ _ => id) fun _ _ _ => ih

theorem pkPushBody_twin (c : Code) (h : Twin T t u) : (pkPushBody c t).Alike (Twin T) (pkPushBody c u) := by
  cases hp : t.pk.phase with
  | first =>
    rw [pkPushBody_first c hp, pkPushBody_first c (h.pk_eq ▸ hp)]
    obtain ⟨s, hT⟩ := h
    exact .ok 0 (.mk (s.bufferFirst c) hT)
  | second =>
    rw [pkPushBody_second c hp, pkPushBody_second c (h.pk_eq ▸ hp), h.pk_eq]
    obtain ⟨s, hT⟩ := h
    exact (emitStr_twin _ (.mk (s.completePair c) hT)).bind (fun _ _ => id) fun _ _ _ h => .ok 3 h.clearPacker

theorem pkFlushBody_twin (h : Twin T t u) : (pkFlushBody t).Alike (Twin T) (pkFlushBody u) := by
  cases hp : t.pk.phase with
  | first =>
    rw [pkFlushBody_first hp, pkFlushBody_first (h.pk_eq ▸ hp)]
    exact .ok 0 h
  | second =>
    rw [pkFlushBody_second hp, pkFlushBody_second (h.pk_eq ▸ hp), h.pk_eq]
    exact (emitStr_twin _ h).bind (fun _ _ => id) fun _ _ _ h => .ok 2 h.clearPacker

theorem upGroupBody_twin (h : Twin T t u) : (upGroupBody t).Alike (Twin T) (upGroupBody u) := by
  refine (readByte_twin _ h).bind (fun _ _ => id) fun r0 t u h => ?_
  cases r0 with
  | none => exact .ok _ h
  | some b0 =>
    refine (readByte_twin _ h).bind (fun _ _ => id) fun r1 t u h => ?_
    cases r1 with
    | none => exact .ok _ h
    | some b1 =>
      refine (readByte_twin _ h).bind (fun _ _ => id) fun r2 t u h => ?_
      cases r2 with
      | none => exact .ok _ h
      | some b2 =>
        obtain ⟨s, hT⟩ := h
        exact .ok _ (.mk (s.appendCodes [unpackA b0 b1, unpackB b1 b2]) hT)

/-- Twin states fetch the same code, or are both at the end (R184). -/
theorem csTake_twin (h : Twin T t u) :
    (csTake t = none ∧ csTake u = none) ∨
    ∃ c v w, csTake t = some (c, v) ∧ csTake u = some (c, w) ∧ Twin T v w := by
  obtain ⟨s, hT⟩ := h
  by_cases hend : s.cs.items.length ≤ s.cs.cursor
  · exact .inl ⟨csTake_none.mpr hend, csTake_none.mpr hend⟩
  · have htake : ∀ v : State, v.cs = s.cs →
        csTake v = some (s.cs.items[s.cs.cursor], { v with cs := ⟨s.cs.items, s.cs.cursor + 1⟩ }) := fun v hv => by
      simp [csTake, hv, hend]
    exact .inr ⟨_, _, _, htake _ rfl, htake _ rfl, .mk { s with cs := ⟨s.cs.items, s.cs.cursor + 1⟩ } hT⟩

/-! ### Runs -/

/-- Two runs side by side end alike, if every rule taken from twin states does and `P` holds all along the first. -/
theorem runEngine_twin (hP : ∀ s, P s → (engineStep s).Ends P)
    (hstep : ∀ t u, P t → Twin T t u → (engineStep t).Alike (Twin T) (engineStep u)) (n : Nat) (ht : P t)
    (h : Twin T t u) : (runEngine n t).Alike (Twin T) (runEngine n u) := by
  induction n generalizing t u with
  | zero => exact .stuck _ _
  | succ n ih =>
    cases hr : t.fsm.isRest with
    | true =>
      rw [runEngine_rest n hr, runEngine_rest n (by rwa [h.fsm_eq])]
      exact .ok () h
    | false =>
      rw [runEngine_step n hr, runEngine_step n (by rwa [h.fsm_eq])]
      exact ((hstep t u ht h).and_ends (hP t ht)).bind (fun _ _ => And.left) fun _ _ _ hv => ih hv.2 hv.1

/-- Twin states have the same budget, so the runs of two commands end alike too. -/
theorem run_twin (hP : ∀ s, P s → (engineStep s).Ends P)
    (hstep : ∀ t u, P t → Twin T t u → (engineStep t).Alike (Twin T) (engineStep u)) (ht : P t) (h : Twin T t u) :
    (runEngine (runBudget t) t).Alike (Twin T) (runEngine (runBudget u) u) := by
  have hbudget : runBudget u = runBudget t := by obtain ⟨s, -⟩ := h; rfl
  rw [hbudget]
  exact runEngine_twin hP hstep _ ht h

end

/-! ### The compressor -/

/-- Two `S2C` tables with as many buckets that answer every key alike. -/
inductive SameAnswers : DictRel
  | mk {h h' : HashFn} {b b' : List (List (Str × Code))} (pos : 0 < b.length) (len : b'.length = b.length)
      (get : ∀ key, getS h' b' key = getS h b key) : SameAnswers h (some (.s2c b)) h' (some (.s2c b'))

/-- Fresh tables answer alike, whatever the two hashes (R137, R149). -/
theorem sameAnswers_initS (h h' : HashFn) : SameAnswers h (some (.s2c (initS h))) h' (some (.s2c (initS h'))) :=
  .mk (by simp) (by simp) fun key => by rw [getS_initS, getS_initS]

theorem Twin.getStr_eq (h : Twin SameAnswers t u) (key : Str) : u.getStr key = t.getStr key := by
  obtain ⟨s, -, -, hget⟩ := h
  exact hget key

theorem Twin.hasStr_eq (h : Twin SameAnswers t u) (key : Str) : u.hasStr key = t.hasStr key :=
  congrArg Option.isSome (h.getStr_eq key)

/-- The same put into both tables keeps their answers alike (R140, R149). -/
theorem SameAnswers.putS {h h' : HashFn} {b b' : List (List (Str × Code))}
    (hT : SameAnswers h (some (.s2c b)) h' (some (.s2c b'))) (key : Str) (value : Code) :
    SameAnswers h (some (.s2c (putS h b key value))) h' (some (.s2c (putS h' b' key value))) := by
  obtain ⟨hpos, hlen, hget⟩ := hT
  refine .mk (by rwa [putS_length]) (by rwa [putS_length, putS_length]) fun k => ?_
  rw [getS_putS _ hpos, getS_putS _ (hlen ▸ hpos), hget]

theorem Twin.assignStr (h : Twin SameAnswers t u) (key : Str) (value : Code) :
    Twin SameAnswers (t.assignStr key value) (u.assignStr key value) := by
  obtain ⟨s, hT⟩ := h
  cases hT with
  | mk hpos hlen hget => exact .mk (s.log (.assign value key)) ((SameAnswers.mk hpos hlen hget).putS key value)

theorem Twin.resetCheckS (h : Twin SameAnswers t u) : Twin SameAnswers (resetCheckS t) (resetCheckS u) := by
  by_cases hn : t.next = 4096
  · rw [resetCheckS_full hn, resetCheckS_full (h.next_eq.trans hn)]
    obtain ⟨s, -⟩ := h
    exact .mk { s with next := 256, hist := s.hist ++ [.tableReset] } (sameAnswers_initS _ _)
  · rwa [resetCheckS_free hn, resetCheckS_free (h.next_eq ▸ hn)]

theorem emitPfx_twin (h : Twin SameAnswers t u) : (emitPfx t).Alike (Twin SameAnswers) (emitPfx u) := by
  unfold emitPfx
  rw [h.pfx_eq, h.getStr_eq]
  cases t.getStr t.pfx with
  | none => exact .raise _ h
  | some c => exact pkPushBody_twin c h

theorem compressFirst_twin (h : Twin SameAnswers t u) :
    (compressFirst t).Alike (Twin SameAnswers) (compressFirst u) := by
  refine (readByte_twin _ h).bind (fun _ _ => id) fun r t u h => ?_
  cases r with
  | none => exact .ok () h.setDone
  | some b =>
    obtain ⟨s, hT⟩ := h
    exact .ok () (.mk { s with pfx := [b], fsm := .accumulating } hT)

theorem compressAccumulate_twin (h : Twin SameAnswers t u) :
    (compressAccumulate t).Alike (Twin SameAnswers) (compressAccumulate u) := by
  refine (readByte_twin _ h.resetCheckS).bind (fun _ _ => id) fun r t u h => ?_
  cases r with
  | none => exact .ok () (h.withFsm .drain)
  | some b =>
    dsimp only
    rw [h.pfx_eq, h.hasStr_eq]
    obtain ⟨s, hT⟩ := h
    split
    · exact .ok () (.mk { s with cur := b, pfx := s.pfx ++ [b], fsm := .accumulating } hT)
    · exact .ok () (.mk { s with cur := b, fsm := .emit } hT)

/-- The end of `EMIT`: a code more in use, and the string begun again (R206). -/
theorem Twin.restart (h : Twin SameAnswers t u) :
    Twin SameAnswers { t with next := t.next + 1, pfx := [t.cur], fsm := .accumulating }
      { u with next := u.next + 1, pfx := [u.cur], fsm := .accumulating } := by
  obtain ⟨s, hT⟩ := h
  exact .mk { s with next := s.next + 1, pfx := [s.cur], fsm := .accumulating } hT

theorem compressEmit_twin (h : Twin SameAnswers t u) : (compressEmit t).Alike (Twin SameAnswers) (compressEmit u) := by
  refine (emitPfx_twin h).bind (fun _ _ => id) fun _ t u h => ?_
  dsimp only
  rw [h.pfx_eq, h.cur_eq, h.next_eq]
  exact .ok () (h.assignStr _ _).restart

theorem compressDrain_twin (h : Twin SameAnswers t u) : (compressDrain t).Alike (Twin SameAnswers) (compressDrain u) :=
  (emitPfx_twin h).bind (fun _ _ => id) fun _ _ _ h =>
    (pkFlushBody_twin h).bind (fun _ _ => id) fun _ _ _ h => .ok () h.setDone

/-- Every rule of the compressor ends alike from states whose tables answer alike (R149). -/
theorem engineStep_twin_compress {s : State} (t u : State) (hc : Compressing s t) (h : Twin SameAnswers t u) :
    (engineStep t).Alike (Twin SameAnswers) (engineStep u) := by
  have hcontrol := hc.control
  unfold engineStep
  rw [h.fsm_eq]
  cases hf : t.fsm with
  | awaitingFirstByte => exact compressFirst_twin h
  | accumulating => exact compressAccumulate_twin h
  | emit => exact compressEmit_twin h
  | drain => exact compressDrain_twin h
  | done => exact .ok () h
  | idle | failed | unpacking | dFirst | dLoop => simp [hf] at hcontrol

/-- Two runs of the compressor that start with fresh tables of any two hashes leave tables that answer alike. -/
theorem execLzwCompress_twin {s : State} {h : HashFn} (ht : exec .lzwCompress s = .next t)
    (hu : exec .lzwCompress { s with hash := h } = .next u) : Twin SameAnswers t u := by
  have hstart : Twin SameAnswers (startCompress s) (startCompress { s with hash := h }) :=
    .mk (startCompress s) (sameAnswers_initS s.hash h)
  have hrun := run_twin engineStep_keeps_compressing engineStep_twin_compress (startCompress_compressing s) hstart
  exact hrun.answer (fun _ _ _ h => h.respond _ _) (fun c _ _ h => h.takeException c) ht hu

/-! ### The decompressor -/

/-- The same table, whatever the two hashes: a `C2S` table has no use for them (R133). -/
def SameTable : DictRel := fun _ d _ d' => d = d'

theorem Twin.getCode_eq (h : Twin SameTable t u) (key : Code) : u.getCode key = t.getCode key := by
  obtain ⟨s, rfl⟩ := h
  rfl

theorem Twin.assignCode (h : Twin SameTable t u) (key : Code) (value : Str) :
    Twin SameTable (t.assignCode key value) (u.assignCode key value) := by
  cases h with
  | @mk s h h' d d' hT =>
    obtain rfl := hT
    match d with
    | none => exact .mk (s.log (.assign key value)) rfl
    | some (.s2c _) => exact .mk (s.log (.assign key value)) rfl
    | some (.c2s _) => exact .mk (s.log (.assign key value)) rfl

theorem Twin.resetCheckC (h : Twin SameTable t u) : Twin SameTable (resetCheckC t) (resetCheckC u) := by
  by_cases hn : t.next = 4096
  · rw [resetCheckC_full hn, resetCheckC_full (h.next_eq.trans hn)]
    obtain ⟨s, -⟩ := h
    exact .mk { s with next := 256, hist := s.hist ++ [.tableReset] } rfl
  · rwa [resetCheckC_free hn, resetCheckC_free (h.next_eq ▸ hn)]

theorem decompressUnpack_twin (h : Twin SameTable t u) :
    (decompressUnpack t).Alike (Twin SameTable) (decompressUnpack u) := by
  refine (upGroupBody_twin h).bind (fun _ _ => id) fun r t u h => ?_
  cases r with
  | whole => exact .ok () (h.withFsm .unpacking)
  | ended n =>
    obtain ⟨s, -⟩ := h
    exact .ok () (.mk { s.rewind with next := Config.firstFree, fsm := .dFirst } rfl)

theorem decompressFirst_twin (h : Twin SameTable t u) :
    (decompressFirst t).Alike (Twin SameTable) (decompressFirst u) := by
  unfold decompressFirst
  obtain ⟨hct, hcu⟩ | ⟨c, v, w, hct, hcu, hvw⟩ := csTake_twin h
  · rw [hct, hcu]
    exact .ok () h.setDone
  · rw [hct, hcu]
    have hprev : Twin SameTable { v with prev := c } { w with prev := c } := by
      obtain ⟨s, hT⟩ := hvw
      exact .mk { s with prev := c } hT
    dsimp only
    rw [hprev.getCode_eq]
    split
    · exact (emitStr_twin _ hprev).bind (fun _ _ => id) fun _ _ _ h => .ok () (h.withFsm .dLoop)
    · exact .ok () (hprev.setSkip.withFsm .dLoop)

theorem decompressCode_twin (ps : Str) (cur : Code) (h : Twin SameTable t u) :
    (decompressCode ps cur t).Alike (Twin SameTable) (decompressCode ps cur u) := by
  rw [decompressCode_eq, decompressCode_eq, h.getCode_eq, h.next_eq]
  refine (emitStr_twin _ (h.assignCode _ _)).bind (fun _ _ => id) fun _ t u h => ?_
  obtain ⟨s, hT⟩ := h
  exact .ok () (.mk { s with next := s.next + 1, prev := cur, fsm := .dLoop } hT)

theorem decompressLoop_twin (h : Twin SameTable t u) :
    (decompressLoop t).Alike (Twin SameTable) (decompressLoop u) := by
  unfold decompressLoop
  rw [h.csMore_eq]
  split
  · obtain ⟨hct, hcu⟩ | ⟨cur, v, w, hct, hcu, hvw⟩ := csTake_twin h.resetCheckC
    · rw [hct, hcu]
      exact .ok () h.setDone
    · rw [hct, hcu]
      dsimp only
      rw [hvw.prev_eq, hvw.getCode_eq]
      split
      · exact .ok () (hvw.setSkip.withFsm .dLoop)
      · exact decompressCode_twin _ cur hvw
  · exact .ok () h.setDone

/-- Every rule of the decompressor ends alike from states with the same table (R133). -/
theorem engineStep_twin_decompress {s : State} (t u : State) (hd : Decompressing s t) (h : Twin SameTable t u) :
    (engineStep t).Alike (Twin SameTable) (engineStep u) := by
  have hcontrol := hd.control
  unfold engineStep
  rw [h.fsm_eq]
  cases hf : t.fsm with
  | unpacking => exact decompressUnpack_twin h
  | dFirst => exact decompressFirst_twin h
  | dLoop => exact decompressLoop_twin h
  | done => exact .ok () h
  | idle | failed | awaitingFirstByte | accumulating | emit | drain => simp [hf] at hcontrol

/-- Two runs of the decompressor from states that differ in the hash alone leave the same table. -/
theorem execLzwDecompress_twin {s : State} {h : HashFn} (ht : exec .lzwDecompress s = .next t)
    (hu : exec .lzwDecompress { s with hash := h } = .next u) : Twin SameTable t u := by
  have hstart : Twin SameTable (startDecompress s) (startDecompress { s with hash := h }) :=
    .mk (startDecompress s) (h := s.hash) (h' := h) (d := s.di) rfl
  have hrun := run_twin engineStep_keeps_decompressing engineStep_twin_decompress (startDecompress_decompressing s) hstart
  refine hrun.answer (fun _ t u h => ?_) (fun c _ _ h => h.takeException c) ht hu
  rw [h.skip_eq]
  exact h.respond _ _

/-- Settles O34: the two runs take the same rules side by side, so that only the hash and the places of entries differ. -/
theorem runsDoNotDependOnTheHash : Obligations.RunsDoNotDependOnTheHash := by
  refine ⟨fun s t u h ht hu => ?_, fun s t u h ht hu => ?_⟩
  · obtain ⟨v, hpos, hlen, hget⟩ := execLzwCompress_twin ht hu
    exact ⟨rfl, _, _, rfl, rfl, hlen, hget⟩
  · obtain ⟨v, rfl⟩ := execLzwDecompress_twin ht hu
    exact ⟨rfl, rfl⟩

end Sys2Proof.Machine
end

section
/-! SUPPORT. The calls on the two byte streams, from the answers the environment has queued to what the call does: a string
written to a sink that accepts it or refuses one of its bytes, and a stream of input read to its end. -/

namespace Sys2Proof.Machine

open Sys2Proof.Safety

variable {s : State}

/-! ### Writes -/

theorem accepting_take {sink : List WriteAnswer} (h : accepting sink) (n : Nat) : accepting (sink.take n) :=
  fun a ha => h a (List.mem_of_mem_take ha)

theorem accepting_drop {sink : List WriteAnswer} (h : accepting sink) (n : Nat) : accepting (sink.drop n) :=
  fun a ha => h a (List.mem_of_mem_drop ha)

/-- An accepted byte, with the script's end standing for acceptance (R63). -/
theorem emitByte_of_accepting (b : Byte) (h : accepting (s.sink.take 1)) :
    emitByte b s = .ok () { s with sink := s.sink.tail, out := s.out ++ [b], hist := s.hist ++ [.write b true] } := by
  unfold emitByte State.log
  split <;> simp_all [accepting]

/-- A string goes out whole where the sink accepts as many writes as it has bytes (R74). -/
theorem emitStr_of_accepting {str : Str} (h : accepting (s.sink.take str.length)) :
    emitStr str s = .ok () { s with sink := s.sink.drop str.length, out := s.out ++ str,
                                    hist := s.hist ++ str.map fun b => .write b true } := by
  induction str generalizing s with
  | nil => simp [emitStr]
  | cons b str ih =>
    have hhead : accepting (s.sink.take 1) := by simpa [List.take_take] using accepting_take h 1
    have htail : accepting (s.sink.tail.take str.length) := by simpa [List.drop_take] using accepting_drop h 1
    rw [emitStr, emitByte_of_accepting b hhead, bind_ok, ih htail]
    simp

/-- A string stops at its refused byte: the bytes before it are written, it is not (R63, R74). -/
theorem emitStr_of_refusal {str : Str} {k : Nat} {rest : List WriteAnswer} (hk : k < str.length)
    (hs : s.sink = List.replicate k .ok ++ .ioError :: rest) :
    emitStr str s = .raise .outputIoError { s with
      sink := rest, out := s.out ++ str.take k,
      hist := s.hist ++ ((str.take k).map fun b => .write b true) ++ [.write (str.getD k 0) false] } := by
  induction str generalizing s k with
  | nil => simp at hk
  | cons b str ih =>
    cases k with
    | zero => simp_all [emitStr, emitByte, State.log]
    | succ k =>
      have hhead : accepting (s.sink.take 1) := by simp [hs, accepting, List.replicate_succ]
      have htail : s.sink.tail = List.replicate k .ok ++ .ioError :: rest := by simp [hs, List.replicate_succ]
      rw [emitStr, emitByte_of_accepting b hhead, bind_ok, ih (Nat.lt_of_succ_lt_succ hk) htail]
      simp

/-! ### Reads -/

/-- A stream that begins with a byte gives that byte first (R62). -/
theorem streamOf_eq_cons_iff {inp rest : List ReadAnswer} {b : Byte} {bs : List Byte} :
    streamOf inp = some (b :: bs, rest) ↔ ∃ inp', inp = .byte b :: inp' ∧ streamOf inp' = some (bs, rest) := by
  cases inp with
  | nil => simp [streamOf]
  | cons a inp =>
    cases a with
    | byte b' => simp [streamOf, and_comm]
    | endOfStream | silent => simp [streamOf]

/-- A stream of no bytes is an `EndOfStream`, or the end of the script (R62). -/
theorem streamOf_eq_nil_iff {inp rest : List ReadAnswer} :
    streamOf inp = some ([], rest) ↔ inp = .endOfStream :: rest ∨ inp = [] ∧ rest = [] := by
  cases inp with
  | nil => simp [streamOf, eq_comm]
  | cons a inp => cases a <;> simp [streamOf]

/-- A stream of given bytes is their answers, then an `EndOfStream` or the end of the script (R62). -/
theorem streamOf_eq_some_iff {inp rest : List ReadAnswer} {bs : List Byte} :
    streamOf inp = some (bs, rest) ↔ inp = bs.map .byte ++ .endOfStream :: rest ∨ inp = bs.map .byte ∧ rest = [] := by
  induction bs generalizing inp with
  | nil => exact streamOf_eq_nil_iff
  | cons b bs ih => simp [streamOf_eq_cons_iff, ih, and_or_left, exists_or]

/-- A call that is never answered leaves no stream (R318). -/
theorem streamOf_of_silent (bs : List Byte) (rest : List ReadAnswer) : streamOf (bs.map .byte ++ .silent :: rest) = none := by
  induction bs with
  | nil => rfl
  | cons b bs ih => simp [streamOf, ih]

end Sys2Proof.Machine
end

section
/-! SUPPORT. The layout of a packed group and the functions `pack` and `unpack` (O38). -/

namespace Sys2Proof.Machine

/-! ### One group (R94) -/

/-- The middle byte, put together in the buffer from the first code's low and the second code's high nibble (R161). -/
theorem packB1_or_packHi (a b : Code) : packB1 a ||| packHi b = packMid a b := by
  have hhi : packHi b = 0#4 ++ b.extractLsb' 8 4 := BitVec.setWidth_eq_append (by decide)
  rw [packB1, hhi, BitVec.or_append, BitVec.or_zero, BitVec.zero_or, packMid]

theorem unpackA_pack (a b : Code) : unpackA (packB0 a) (packMid a b) = a := by
  rw [unpackA, packMid, BitVec.extractLsb'_append_eq_left]
  exact BitVec.extractLsb'_append_extractLsb'

theorem unpackB_pack (a b : Code) : unpackB (packMid a b) (packB2 b) = b := by
  rw [unpackB, packMid, BitVec.extractLsb'_append_eq_right]
  exact BitVec.extractLsb'_append_extractLsb'

theorem packB0_unpackA (b0 b1 : Byte) : packB0 (unpackA b0 b1) = b0 := BitVec.extractLsb'_append_eq_left

theorem packMid_unpack (b0 b1 b2 : Byte) : packMid (unpackA b0 b1) (unpackB b1 b2) = b1 := by
  rw [packMid, unpackA, unpackB, BitVec.extractLsb'_append_eq_right, BitVec.extractLsb'_append_eq_left]
  exact BitVec.extractLsb'_append_extractLsb'

theorem packB2_unpackB (b1 b2 : Byte) : packB2 (unpackB b1 b2) = b2 := BitVec.extractLsb'_append_eq_right

/-! ### Lists -/

theorem pack_length (cs : List Code) : (pack cs).length = 3 * (cs.length / 2) + 2 * (cs.length % 2) := by
  induction cs using pack.induct with
  | case1 => rfl
  | case2 a => simp [pack]
  | case3 a b cs ih => simp only [pack, List.length_append, List.length_cons, List.length_nil, ih]; omega

theorem unpack_length (bs : List Byte) : (unpack bs).length = 2 * (bs.length / 3) := by
  induction bs using unpack.induct with
  | case1 b0 b1 b2 bs ih => simp only [unpack, List.length_append, List.length_cons, List.length_nil, ih]; omega
  | case2 | case3 | case4 => simp [unpack]

/-- Fewer than three bytes hold no group (R172). -/
theorem unpack_of_short {bs : List Byte} (h : bs.length < 3) : unpack bs = [] :=
  List.eq_nil_of_length_eq_zero (by rw [unpack_length]; omega)

/-- The pairs of a code list come back, a last code without a partner does not (R172). -/
theorem unpack_pack (cs : List Code) : unpack (pack cs) = cs.take (cs.length - cs.length % 2) := by
  induction cs using pack.induct with
  | case1 => rfl
  | case2 a => rfl
  | case3 a b cs ih =>
    have hlen : (a :: b :: cs).length - (a :: b :: cs).length % 2 = cs.length - cs.length % 2 + 2 := by
      simp only [List.length_cons]; omega
    rw [hlen, List.take_succ_cons, List.take_succ_cons, ← ih]
    simp only [pack, List.cons_append, List.nil_append, unpack, unpackA_pack, unpackB_pack]

/-- Whole groups of bytes come back (R94). -/
theorem pack_unpack {bs : List Byte} (h : bs.length % 3 = 0) : pack (unpack bs) = bs := by
  induction bs using unpack.induct with
  | case1 b0 b1 b2 bs ih =>
    have hrest : bs.length % 3 = 0 := by simp only [List.length_cons] at h; omega
    simp only [unpack, List.cons_append, List.nil_append, pack, ih hrest, packB0_unpackA, packMid_unpack, packB2_unpackB]
  | case2 => rfl
  | case3 b0 => simp at h
  | case4 b0 b1 => simp at h

/-- Settles O38: the two functions undo each other group by group. -/
theorem packAndUnpackAreInverse : Obligations.PackAndUnpackAreInverse := by
  refine ⟨fun cs h => ?_, fun cs h => ?_, fun bs => pack_unpack, unpack_length⟩
  · rw [unpack_pack, h, Nat.sub_zero, List.take_length]
  · rw [unpack_pack, h, List.dropLast_eq_take]

end Sys2Proof.Machine
end

section
/-! SUPPORT. The commands of the Bit Packer, one equation for each phase and each answer of the sink (O35 to O37). -/

namespace Sys2Proof.Machine

open Sys2Proof.Safety

variable {s : State}

/-! ### `PK.PUSH` -/

theorem exec_pkPush_first (c : Code) (hp : s.pk.phase = .first) :
    exec (.pkPush c) s = .next (respond .ok 0 (s.bufferFirst c)) := by
  rw [exec, execPkPush, pkPushBody_first c hp, answer_ok]

theorem exec_pkPush_second (c : Code) (hp : s.pk.phase = .second) (ha : accepting (s.sink.take 3)) :
    exec (.pkPush c) s = .next { s with
      pk := .clear, sink := s.sink.drop 3, out := s.out ++ pairBytes c s.pk, rsp := s.rsp ++ [.r .ok 3],
      hist := s.hist ++ (pairBytes c s.pk).map fun b => .write b true } := by
  rw [exec, execPkPush, pkPushBody_second c hp,
    emitStr_of_accepting (str := pairBytes c s.pk) (s := s.completePair c) ha]
  rfl

/-- In phase `SECOND` completing the pair fills the buffer with the triple (R161). -/
theorem completePair_of_second (c : Code) (hp : s.pk.phase = .second) :
    s.completePair c = { s with pk := ⟨.second, s.pk.buf0, s.pk.buf1 ||| packHi c, packB2 c⟩ } := by
  rw [← hp]
  rfl

theorem exec_pkPush_refused (c : Code) {k : Nat} {rest : List WriteAnswer} (hp : s.pk.phase = .second) (hk : k < 3)
    (hs : s.sink = List.replicate k .ok ++ .ioError :: rest) :
    exec (.pkPush c) s = .next (takeException .outputIoError { s.completePair c with
      sink := rest, out := s.out ++ (pairBytes c s.pk).take k,
      hist := s.hist ++ (((pairBytes c s.pk).take k).map fun b => .write b true) ++
        [.write ((pairBytes c s.pk).getD k 0) false] }) := by
  rw [exec, execPkPush, pkPushBody_second c hp,
    emitStr_of_refusal (str := pairBytes c s.pk) (s := s.completePair c) hk hs]
  rfl

/-- Settles O35: one equation for each case, the buffer's bytes as R161 writes them. -/
theorem pushBuffersThenWritesATriple : Obligations.PushBuffersThenWritesATriple := by
  refine ⟨codeForm_of_row (o := .pkPush) rfl rfl fun _ => rfl, fun s c hp => exec_pkPush_first c hp,
    fun s c hp ha => ⟨_, _, _, rfl, rfl, rfl, exec_pkPush_second c hp ha⟩,
    fun s c k rest hp hk hs => ⟨_, _, _, rfl, rfl, rfl, ?_⟩⟩
  rw [exec_pkPush_refused c hp hk hs, completePair_of_second c hp]
  rfl

/-! ### `PK.FLUSH` -/

theorem exec_pkFlush_first (hp : s.pk.phase = .first) : exec .pkFlush s = .next (respond .ok 0 s) := by
  rw [exec, execPkFlush, pkFlushBody_first hp, answer_ok]

theorem exec_pkFlush_second (hp : s.pk.phase = .second) (ha : accepting (s.sink.take 2)) :
    exec .pkFlush s = .next { s with
      pk := .clear, sink := s.sink.drop 2, out := s.out ++ [s.pk.buf0, s.pk.buf1], rsp := s.rsp ++ [.r .ok 2],
      hist := s.hist ++ [.write s.pk.buf0 true, .write s.pk.buf1 true] } := by
  rw [exec, execPkFlush, pkFlushBody_second hp, emitStr_of_accepting (str := [s.pk.buf0, s.pk.buf1]) ha]
  rfl

/-- Settles O36: a refused flush is the refused write alone, since the buffer is cleared after the writes only. -/
theorem flushWritesTheTail : Obligations.FlushWritesTheTail := by
  refine ⟨zeroForm_of_row (o := .pkFlush) rfl rfl rfl, fun s => exec_pkFlush_first, fun s => exec_pkFlush_second,
    fun s k rest hp hk hs => ?_⟩
  rw [exec, execPkFlush, pkFlushBody_second hp, emitStr_of_refusal hk hs]
  rfl

/-! ### Codes one after another -/

theorem execAll_cons {i : Instr} {is : List Instr} {t : State} (h : exec i s = .next t) :
    execAll (i :: is) s = execAll is t := by
  rw [execAll, h]

/-- Two pushes from phase `FIRST` write one group and are in phase `FIRST` again (R161, R164). -/
theorem execAll_pushPair (a b : Code) (is : List Instr) (hp : s.pk.phase = .first) (ha : accepting s.sink) :
    ∃ t, execAll (.pkPush a :: .pkPush b :: is) s = execAll is t ∧
      t.out = s.out ++ [packB0 a, packMid a b, packB2 b] ∧ t.pk.phase = .first ∧ accepting t.sink := by
  refine ⟨_, (execAll_cons (exec_pkPush_first a hp)).trans (execAll_cons (exec_pkPush_second b rfl (accepting_take ha 3))),
    ?_, rfl, accepting_drop ha 3⟩
  simp [pairBytes, packB1_or_packHi]

/-- The pushes of a code list and one flush, pair by pair (R164). -/
theorem execAll_pushes_flush (cs : List Code) (hp : s.pk.phase = .first) (ha : accepting s.sink) :
    ∃ t, execAll (cs.map .pkPush ++ [.pkFlush]) s = .next t ∧ t.out = s.out ++ pack cs ∧ t.pk.phase = .first := by
  induction cs using pack.induct generalizing s with
  | case1 => exact ⟨_, execAll_cons (exec_pkFlush_first hp), (List.append_nil _).symm, hp⟩
  | case2 a =>
    exact ⟨_, (execAll_cons (exec_pkPush_first a hp)).trans (execAll_cons (exec_pkFlush_second rfl (accepting_take ha 2))),
      rfl, rfl⟩
  | case3 a b cs ih =>
    obtain ⟨u, hpair, hout, hpu, hau⟩ := execAll_pushPair a b (cs.map .pkPush ++ [.pkFlush]) hp ha
    obtain ⟨t, hrest, hout', hpt⟩ := ih hpu hau
    exact ⟨t, hpair.trans hrest, by rw [hout', hout, pack, List.append_assoc], hpt⟩

/-- Settles O37: each pair of pushes writes its group of `pack`, and the flush the tail of an odd number. -/
theorem pushesAndAFlushPack : Obligations.PushesAndAFlushPack :=
  fun _ cs hp ha => ⟨execAll_pushes_flush cs hp ha, pack_length cs⟩

end Sys2Proof.Machine
end

section
/-! SUPPORT. The commands of the Bit Unpacker (O39, O40). -/

namespace Sys2Proof.Machine

open Sys2Proof.Safety

variable {s : State} {bs : List Byte} {rest : List ReadAnswer}

/-! ### One group -/

/-- Three bytes on `IN` are a group, whatever comes after them (R170). -/
theorem upGroupBody_of_whole {b0 b1 b2 : Byte} (h : s.inp = .byte b0 :: .byte b1 :: .byte b2 :: rest) :
    upGroupBody s = .ok .whole { s with
      inp := rest, cs := ⟨s.cs.items ++ [unpackA b0 b1, unpackB b1 b2], s.cs.cursor⟩,
      hist := s.hist ++ [.read (some b0), .read (some b1), .read (some b2)] } := by
  simp [upGroupBody, readByte, h, State.log, State.appendCodes]

/-- A stream that ends within a group is read to its end and dropped (R170). -/
theorem upGroupBody_of_ended (hlen : bs.length < 3) (h : streamOf s.inp = some (bs, rest)) :
    upGroupBody s = .ok (.ended (BitVec.ofNat 16 bs.length)) { s with
      inp := rest, hist := s.hist ++ (bs.map fun b => .read (some b)) ++ [.read none] } := by
  cases hb : upGroupBody s with
  | ok r t =>
    obtain ⟨b0, b1, b2, hinp, -, -⟩ | ⟨l, -, rfl, hinp, ht⟩ := upGroupBody_ok hb
    · rw [hinp, streamOf_eq_some_iff] at h
      match bs with
      | [] | [_] | [_, _] => simp at h
      | _ :: _ :: _ :: _ => simp only [List.length_cons] at hlen; omega
    · have hsame : (bs, rest) = (l, t.inp) := Option.some.inj (h.symm.trans (streamOf_eq_some_iff.mpr hinp))
      obtain ⟨rfl, rfl⟩ := Prod.mk.inj hsame
      rw [← ht]
  | raise c t => exact absurd hb upGroupBody_ne_raise
  | stuck e =>
    obtain ⟨l, blocked, u, -, hinp, -, -⟩ := upGroupBody_stuck hb
    rw [hinp, streamOf_of_silent] at h
    exact absurd h (by simp)

/-- Settles O39: a whole group and a stream that ends within one are the two ends of the group's body. -/
theorem groupAppendsTwoCodesOrNone : Obligations.GroupAppendsTwoCodesOrNone := by
  refine ⟨zeroForm_of_row (o := .upGroup) rfl rfl rfl, fun s b0 b1 b2 rest h => ?_, fun s l rest hlen h => ?_⟩
  · rw [exec, execUpGroup, upGroupBody_of_whole h]
    rfl
  · rw [exec, execUpGroup, upGroupBody_of_ended hlen (streamOf_eq_some_iff.mpr h)]
    rfl

/-! ### A whole stream -/

theorem length_le_of_streamOf {inp : List ReadAnswer} (h : streamOf inp = some (bs, rest)) : bs.length ≤ inp.length := by
  obtain rfl | ⟨rfl, -⟩ := streamOf_eq_some_iff.mp h <;> simp

/-- The last round of `UP.ALL` (R171). -/
theorem upAllLoop_of_ended (hlen : bs.length < 3) (h : streamOf s.inp = some (bs, rest)) (k : Nat) :
    upAllLoop (k + 1) s = .ok (BitVec.ofNat 16 (bs.length % 3)) { s with
      inp := rest, cs := ⟨s.cs.items ++ unpack bs, s.cs.cursor⟩,
      hist := s.hist ++ (bs.map fun b => .read (some b)) ++ [.read none] } := by
  rw [upAllLoop, upGroupBody_of_ended hlen h, bind_ok, unpack_of_short hlen, List.append_nil, Nat.mod_eq_of_lt hlen]

/-- `UP.ALL` goes group by group as `unpack` does, with one round for each (R171). -/
theorem upAllLoop_of_stream {k : Nat} (hk : bs.length ≤ k) (h : streamOf s.inp = some (bs, rest)) :
    upAllLoop (k + 1) s = .ok (BitVec.ofNat 16 (bs.length % 3)) { s with
      inp := rest, cs := ⟨s.cs.items ++ unpack bs, s.cs.cursor⟩,
      hist := s.hist ++ (bs.map fun b => .read (some b)) ++ [.read none] } := by
  induction bs using unpack.induct generalizing s k with
  | case1 b0 b1 b2 bs ih =>
    obtain ⟨inp, hinp, hstream⟩ : ∃ inp, s.inp = .byte b0 :: .byte b1 :: .byte b2 :: inp ∧
        streamOf inp = some (bs, rest) := by simpa [streamOf_eq_cons_iff] using h
    obtain ⟨k, rfl⟩ : ∃ m, k = m + 1 := ⟨k - 1, by simp at hk; omega⟩
    have hmod : (b0 :: b1 :: b2 :: bs).length % 3 = bs.length % 3 := Nat.add_mod_right _ 3
    rw [upAllLoop, upGroupBody_of_whole hinp, bind_ok, hmod]
    refine (ih (by simp at hk; omega) hstream).trans ?_
    simp [unpack]
  | case2 | case3 | case4 => exact upAllLoop_of_ended (by simp) h k

/-- Settles O40: the budget covers the stream, since `IN` holds at least one answer for each of its bytes. -/
theorem upAllUnpacksTheStream : Obligations.UpAllUnpacksTheStream := by
  refine ⟨zeroForm_of_row (o := .upAll) rfl rfl rfl, fun s bs rest h => ?_⟩
  rw [exec, execUpAll, upAllLoop_of_stream (length_le_of_streamOf h) h]
  rfl

end Sys2Proof.Machine
end

section
/-! SUPPORT. The commands of the Code Sequence (O41 to O43). -/

namespace Sys2Proof.Machine

open Sys2Proof.Safety

variable {s : State}

/-! ### `CS.NEXT` and `CS.HASNEXT` -/

/-- An element at the cursor is fetched (R184). -/
theorem csTake_of_getElem? {v : Code} (h : s.cs.items[s.cs.cursor]? = some v) :
    csTake s = some (v, { s with cs := ⟨s.cs.items, s.cs.cursor + 1⟩ }) := by
  have hlt : s.cs.cursor < s.cs.items.length := (List.getElem?_eq_some_iff.mp h).1
  rw [csTake, if_neg (Nat.not_le.mpr hlt), h, Option.map_some]

theorem exec_csNext_of_getElem? {v : Code} (h : s.cs.items[s.cs.cursor]? = some v) :
    exec .csNext s = .next (respond .ok (zextCode v) { s with cs := ⟨s.cs.items, s.cs.cursor + 1⟩ }) := by
  rw [exec, execCsNext, csTake_of_getElem? h]

theorem exec_csNext_of_end (h : s.cs.items.length ≤ s.cs.cursor) :
    exec .csNext s = .next (respondError .eSeqend s) := by
  rw [exec, execCsNext, csTake_none.mpr h]

/-- The answer of has-next is the comparison of cursor and length (R185). -/
theorem exec_csHasnext_eq :
    exec .csHasnext s = .next (respond .ok (if s.cs.cursor < s.cs.items.length then 1 else 0) s) := by
  simp only [exec, execCsHasnext, respondBool, csMore_iff]

/-- Settles O41: clear, append and rewind have one answer each, has-next one on each side of the end. -/
theorem sequenceOperations : Obligations.SequenceOperations := by
  refine ⟨zeroForm_of_row (o := .csClear) rfl rfl rfl, codeForm_of_row (o := .csAppend) rfl rfl fun _ => rfl,
    zeroForm_of_row (o := .csReset) rfl rfl rfl, zeroForm_of_row (o := .csHasnext) rfl rfl rfl,
    fun s => ⟨rfl, fun c => rfl, rfl, fun hlt => ?_, fun hend => ?_⟩⟩
  · rw [exec_csHasnext_eq, if_pos hlt, respond]
  · rw [exec_csHasnext_eq, if_neg (Nat.not_lt.mpr hend), respond]

/-- Settles O42: the two answers of the fetch, `E_SEQEND` being error 4. -/
theorem nextAdvancesOrEnds : Obligations.NextAdvancesOrEnds :=
  ⟨zeroForm_of_row (o := .csNext) rfl rfl rfl, fun _ _ h => exec_csNext_of_getElem? h, fun _ h => exec_csNext_of_end h⟩

/-! ### A traversal (R186) -/

/-- Nexts that stay within the sequence answer the elements from the cursor on (R184). -/
theorem execAll_nexts {k : Nat} (hk : s.cs.cursor + k ≤ s.cs.items.length) :
    execAll (List.replicate k .csNext) s = .next { s with
      cs := ⟨s.cs.items, s.cs.cursor + k⟩,
      rsp := s.rsp ++ ((s.cs.items.drop s.cs.cursor).take k).map fun c => .r .ok (zextCode c) } := by
  induction k generalizing s with
  | zero => simp [execAll]
  | succ k ih =>
    have hlt : s.cs.cursor < s.cs.items.length := by omega
    rw [List.replicate_succ, execAll_cons (exec_csNext_of_getElem? (List.getElem?_eq_getElem hlt)),
      ih (by simp only [respond_cs]; omega), List.drop_eq_getElem_cons hlt, List.take_succ_cons, List.map_cons]
    simp [Nat.add_comm, Nat.add_left_comm]

/-- Settles O43: the rewind puts the cursor to 0, so the nexts answer from the first element on. -/
theorem traversalAnswersTheElementsInOrder : Obligations.TraversalAnswersTheElementsInOrder := by
  intro s k hk
  have hreset : exec .csReset s = .next (respond .ok 0 s.rewind) := rfl
  have hnexts := execAll_nexts (s := respond .ok 0 s.rewind) (k := k) (by simpa using hk)
  refine ⟨_, (execAll_cons hreset).trans hnexts, ?_, ?_, exec_csHasnext_eq.trans ?_⟩
  · simp [zextCode]
  · simp
  · simp [respond]

end Sys2Proof.Machine
end

section
/-! SUPPORT. The transitions of the two engines, and where a refused write falls (O46, O47). -/

namespace Sys2Proof.Machine

variable {s t : State}

/-! ### Transitions (R202, R232) -/

/-- Waiting for the first byte makes no write, so it never raises (R203). -/
theorem compressFirst_ne_raise {x : Cause} : compressFirst s ≠ .raise x t := by
  intro h
  obtain h | ⟨r, v, -, h⟩ := bind_eq_raise.mp h
  · exact readByte_ne_raise h
  · cases r <;> simp at h

/-- Accumulating makes no write, so it never raises (R204). -/
theorem compressAccumulate_ne_raise {x : Cause} : compressAccumulate s ≠ .raise x t := by
  intro h
  obtain h | ⟨r, v, -, h⟩ := bind_eq_raise.mp h
  · exact readByte_ne_raise h
  · cases r with
    | none => simp at h
    | some b =>
      dsimp only at h
      split at h <;> simp at h

theorem compressFirst_fsm (h : compressFirst s = .ok () t) : t.fsm = .accumulating ∨ t.fsm = .done := by
  obtain ⟨b, rest, -, rfl⟩ | ⟨-, ht⟩ := compressFirst_ok h
  · exact .inl rfl
  · exact .inr (by rw [ht])

theorem compressAccumulate_fsm (h : compressAccumulate s = .ok () t) :
    t.fsm = .accumulating ∨ t.fsm = .emit ∨ t.fsm = .drain := by
  obtain ⟨-, ht⟩ | ⟨b, -, ⟨-, ht⟩ | ⟨-, ht⟩⟩ := compressAccumulate_ok h <;> rw [ht] <;> simp

theorem compressEmit_fsm (h : compressEmit s = .ok () t) : t.fsm = .accumulating := by
  obtain ⟨c, n, v, -, -, rfl⟩ := compressEmit_ok h
  rfl

theorem compressDrain_fsm (h : compressDrain s = .ok () t) : t.fsm = .done := by
  obtain ⟨c, n, m, v, w, -, -, -, rfl⟩ := compressDrain_ok h
  rfl

theorem decompressUnpack_fsm (h : decompressUnpack s = .ok () t) : t.fsm = .unpacking ∨ t.fsm = .dFirst := by
  obtain ⟨v, -, rfl⟩ | ⟨n, v, -, rfl⟩ := decompressUnpack_ok h
  · exact .inl rfl
  · exact .inr rfl

theorem decompressFirst_fsm (h : decompressFirst s = .ok () t) : t.fsm = .done ∨ t.fsm = .dLoop := by
  obtain ⟨-, rfl⟩ | ⟨c, v, -, ⟨str, u, w, -, -, rfl⟩ | ⟨-, rfl⟩⟩ := decompressFirst_ok h
  · exact .inl rfl
  · exact .inr rfl
  · exact .inr rfl

theorem decompressCode_fsm {ps : Str} {cur : Code} (h : decompressCode ps cur s = .ok () t) : t.fsm = .dLoop := by
  rw [decompressCode_eq, bind_eq_ok] at h
  obtain ⟨_, v, -, h⟩ := h
  obtain ⟨-, rfl⟩ := Res.ok.inj h
  rfl

theorem decompressLoop_fsm (h : decompressLoop s = .ok () t) : t.fsm = .done ∨ t.fsm = .dLoop := by
  obtain ⟨-, he⟩ | ⟨cur, v, -, ⟨-, he⟩ | ⟨ps, -, he⟩⟩ := decompressLoop_eq s <;> rw [he] at h
  · obtain ⟨-, rfl⟩ := Res.ok.inj h
    exact .inl rfl
  · obtain ⟨-, rfl⟩ := Res.ok.inj h
    exact .inr rfl
  · exact .inr (decompressCode_fsm h)

/-- Settles O47: one lemma for each control state; the states that only read never raise. -/
theorem engineTransitions : Obligations.EngineTransitions := by
  intro s t
  unfold engineStep
  cases hf : s.fsm with
  | awaitingFirstByte =>
    refine ⟨fun h _ => ?_, fun h => absurd h compressFirst_ne_raise⟩
    obtain ht | ht := compressFirst_fsm h <;> simp [ht]
  | accumulating =>
    refine ⟨fun h _ => ?_, fun h => absurd h compressAccumulate_ne_raise⟩
    obtain ht | ht | ht := compressAccumulate_fsm h <;> simp [ht]
  | emit => exact ⟨fun h _ => by simp [compressEmit_fsm h], fun _ => by simp⟩
  | drain => exact ⟨fun h _ => by simp [compressDrain_fsm h], fun _ => by simp⟩
  | unpacking =>
    refine ⟨fun h _ => ?_, fun h => absurd h decompressUnpack_ne_raise⟩
    obtain ht | ht := decompressUnpack_fsm h <;> simp [ht]
  | dFirst =>
    refine ⟨fun h _ => ?_, fun _ => by simp⟩
    obtain ht | ht := decompressFirst_fsm h <;> simp [ht]
  | dLoop =>
    refine ⟨fun h _ => ?_, fun _ => by simp⟩
    obtain ht | ht := decompressLoop_fsm h <;> simp [ht]
  | idle | done | failed => exact ⟨fun _ hrest => by simp [Fsm.isRest] at hrest, nofun⟩

/-! ### Where a refused write falls (R206, R245) -/

/-- An emission that is refused has touched the packer and the streams only (R206). -/
theorem emitPfx_refused (h : emitPfx s = .raise .outputIoError t) :
    t = { s with pk := t.pk, sink := t.sink, out := t.out, hist := t.hist } := by
  obtain ⟨-, hx, -⟩ | ⟨c, -, hpush⟩ := emitPfx_raise h
  · exact absurd hx nofun
  · obtain ⟨-, -, -, ht⟩ := pkPushBody_raise hpush
    rw [ht]
    rfl

/-- A code whose write is refused has been put, and nothing else but the streams has changed (R245). -/
theorem decompressCode_raise {ps : Str} {cur : Code} {x : Cause} (h : decompressCode ps cur s = .raise x t) :
    t = { s.assignCode (nextCode s.next) (codeStrings ps (s.getCode cur)).2 with
          sink := t.sink, out := t.out, hist := t.hist } := by
  rw [decompressCode_eq, bind_eq_raise] at h
  obtain h | ⟨_, v, -, h⟩ := h
  · exact (emitStr_raise h).2.1
  · exact absurd h nofun

/-- Settles O46: the push is the first line of `EMIT`, and the put precedes the writes of a code. -/
theorem refusedWriteKeepsPseudocodeOrder : Obligations.RefusedWriteKeepsPseudocodeOrder := by
  refine ⟨fun s t h => ?_, fun s t ps cur b hb h => ?_⟩
  · rw [emitPfx_refused (compressEmit_raise h)]
    exact ⟨rfl, rfl, rfl, rfl⟩
  · have hget : s.getCode cur = getC b cur := by simp [State.getCode, hb]
    rw [decompressCode_raise h, hget]
    refine ⟨assignCode_next _ _ _, assignCode_prev _ _ _, _, assignCode_di hb _ _, fun hnone => ?_, fun c hc => ?_⟩
    · rw [hnone]; rfl
    · rw [hc]; rfl

end Sys2Proof.Machine
end

section
/-! SUPPORT. The function `codes` over its association list: one equation for each case of a byte, what always holds of the
table and the running string, the induction that follows from both, and the bounds (O52). -/

namespace Sys2Proof.Machine

open Sys2Proof.Safety

variable {d : List (Str × Code)} {next : NextCode} {p : Str} {b : Byte} {bs : List Byte}

/-! ### The cases of `codesGo` (R212) -/

/-- A full table is reset, and the string goes on in the fresh one (R205, R212). -/
theorem codesGo_full (d : List (Str × Code)) (p : Str) (bs : List Byte) :
    codesGo d Config.codeLimit p bs =
      ((codesGo singlesS Config.firstFree p bs).1, .tableReset :: (codesGo singlesS Config.firstFree p bs).2) := by
  have hfull : freshIfFull singlesS d Config.codeLimit = (singlesS, Config.firstFree, [.tableReset]) := if_pos rfl
  have hfresh : freshIfFull singlesS singlesS Config.firstFree = (singlesS, Config.firstFree, []) := if_neg (by decide)
  cases bs with
  | nil => simp [codesGo, hfull, hfresh]
  | cons b bs =>
    simp only [codesGo, hfull, hfresh]
    split <;> simp

theorem freshIfFull_free (hn : next ≠ Config.codeLimit) : freshIfFull singlesS d next = (d, next, []) := if_neg hn

/-- At the end of the input the string's code is emitted (R208, R212). -/
theorem codesGo_nil (hn : next ≠ Config.codeLimit) : codesGo d next p [] = ((find d p).toList, []) := by
  simp [codesGo, freshIfFull_free hn]

/-- A longer string that the table has is the string from here on (R204, R212). -/
theorem codesGo_known (hn : next ≠ Config.codeLimit) (hb : (find d (p ++ [b])).isSome = true) :
    codesGo d next p (b :: bs) = codesGo d next (p ++ [b]) bs := by
  simp [codesGo, freshIfFull_free hn, hb]

/-- A longer string that the table has not is put, and the string's code emitted (R206, R212). -/
theorem codesGo_new (hn : next ≠ Config.codeLimit) (hb : find d (p ++ [b]) = none) :
    codesGo d next p (b :: bs) =
      ((find d p).toList ++ (codesGo (d ++ [(p ++ [b], nextCode next)]) (next + 1) [b] bs).1,
        .assign (nextCode next) (p ++ [b]) :: (codesGo (d ++ [(p ++ [b], nextCode next)]) (next + 1) [b] bs).2) := by
  simp [codesGo, freshIfFull_free hn, hb]

/-! ### The table and the running string -/

/-- The running string of the compressor has a code in the table, also after a table reset (R215, R216, R220). -/
structure PrefixReady (d : List (Str × Code)) (next : NextCode) (p : Str) : Prop where
  /-- `NEXT` is at most 4096 (R33). -/
  range : next.toNat ≤ 4096
  /-- The singles are never lost (R26). -/
  singles : ∀ b : Byte, (find d [b]).isSome = true
  /-- No string is empty, and none outgrows the codes assigned (R217). -/
  keys : ∀ e ∈ d, 1 ≤ e.1.length ∧ e.1.length + 255 ≤ next.toNat
  /-- The string has a code. -/
  known : (find d p).isSome = true
  /-- Where the table is full the string has just been begun again, so that it survives the reset. -/
  full : next = Config.codeLimit → ∃ b, p = [b]

/-- A string of one byte is ready in the table of the singles (R201, R203). -/
theorem prefixReady_single (b : Byte) : PrefixReady singlesS Config.firstFree [b] where
  range := by decide
  singles b := by rw [find_singlesS]; rfl
  keys e he := by
    obtain ⟨b, -, rfl⟩ := List.mem_map.mp he
    exact ⟨Nat.le_refl 1, Nat.le_refl 256⟩
  known := by rw [find_singlesS]; rfl
  full := fun h => absurd h (by decide)

/-- The string survives a table reset (R205, R216). -/
theorem PrefixReady.reset (h : PrefixReady d Config.codeLimit p) : PrefixReady singlesS Config.firstFree p := by
  obtain ⟨b, rfl⟩ := h.full rfl
  exact prefixReady_single b

/-- A longer string that the table has is ready (R204). -/
theorem PrefixReady.extend (h : PrefixReady d next p) (hn : next ≠ Config.codeLimit)
    (hb : (find d (p ++ [b])).isSome = true) : PrefixReady d next (p ++ [b]) :=
  { h with known := hb, full := fun hfull => absurd hfull hn }

theorem PrefixReady.next_lt (h : PrefixReady d next p) (hn : next ≠ Config.codeLimit) : next.toNat < 4096 :=
  lt_of_le_of_ne h.range fun he => hn (BitVec.eq_of_toNat_eq he)

theorem PrefixReady.next_succ (h : PrefixReady d next p) (hn : next ≠ Config.codeLimit) :
    (next + 1).toNat = next.toNat + 1 := by
  have hlt := h.next_lt hn
  rw [BitVec.toNat_add, show (1 : NextCode).toNat = 1 from rfl]
  omega

theorem PrefixReady.nextCode_toNat (h : PrefixReady d next p) (hn : next ≠ Config.codeLimit) :
    (nextCode next).toNat = next.toNat := by
  rw [nextCode, BitVec.toNat_setWidth, Nat.mod_eq_of_lt (h.next_lt hn)]

/-- The running string is the key of an entry, so the bound of the keys is its own (R217). -/
theorem PrefixReady.length (h : PrefixReady d next p) : 1 ≤ p.length ∧ p.length + 255 ≤ next.toNat := by
  obtain ⟨c, hc⟩ := Option.isSome_iff_exists.mp h.known
  exact h.keys _ (find_some_mem hc)

/-- After an insertion the string of one byte is ready, since a put loses nothing (R146, R206). -/
theorem PrefixReady.restart (h : PrefixReady d next p) (hn : next ≠ Config.codeLimit) (b : Byte) :
    PrefixReady (d ++ [(p ++ [b], nextCode next)]) (next + 1) [b] := by
  have hsucc := h.next_succ hn
  have hsingles : ∀ b' : Byte, (find (d ++ [(p ++ [b], nextCode next)]) [b']).isSome = true := fun b' => by
    rw [find_append, Option.isSome_or, h.singles b', Bool.true_or]
  refine ⟨by have := h.next_lt hn; omega, hsingles, fun e he => ?_, hsingles b, fun _ => ⟨b, rfl⟩⟩
  obtain he | he := List.mem_append.mp he
  · have := h.keys e he
    omega
  · obtain rfl := List.mem_singleton.mp he
    have := h.length
    simp only [List.length_append, List.length_singleton]
    omega

/-- Induction along `codesGo`, with a ready string in every case: a reset, the end of the input, a string that grows, and
one that is emitted. -/
theorem codesGo_induct {motive : ∀ d next p, List Byte → PrefixReady d next p → Prop}
    (full : ∀ d p bs (h : PrefixReady d Config.codeLimit p),
      motive singlesS Config.firstFree p bs h.reset → motive d Config.codeLimit p bs h)
    (done : ∀ d next p (_ : next ≠ Config.codeLimit) (h : PrefixReady d next p), motive d next p [] h)
    (known : ∀ d next p b bs (hn : next ≠ Config.codeLimit) (h : PrefixReady d next p)
      (hb : (find d (p ++ [b])).isSome = true), motive d next (p ++ [b]) bs (h.extend hn hb) → motive d next p (b :: bs) h)
    (new : ∀ d next p b bs (hn : next ≠ Config.codeLimit) (h : PrefixReady d next p) (_ : find d (p ++ [b]) = none),
      motive (d ++ [(p ++ [b], nextCode next)]) (next + 1) [b] bs (h.restart hn b) → motive d next p (b :: bs) h)
    (d : List (Str × Code)) (next : NextCode) (p : Str) (bs : List Byte) (h : PrefixReady d next p) :
    motive d next p bs h := by
  have orFull : ∀ bs, (∀ d next p (_ : next ≠ Config.codeLimit) (h : PrefixReady d next p), motive d next p bs h) →
      ∀ d next p (h : PrefixReady d next p), motive d next p bs h := by
    intro bs hfree d next p h
    by_cases hn : next = Config.codeLimit
    · subst hn
      exact full d p bs h (hfree _ _ _ (by decide) h.reset)
    · exact hfree d next p hn h
  induction bs generalizing d next p with
  | nil => exact orFull [] done d next p h
  | cons b bs ih =>
    refine orFull (b :: bs) (fun d next p hn h => ?_) d next p h
    cases hb : find d (p ++ [b]) with
    | none => exact new d next p b bs hn h hb (ih _ _ _ (h.restart hn b))
    | some c =>
      have hsome : (find d (p ++ [b])).isSome = true := by rw [hb]; rfl
      exact known d next p b bs hn h hsome (ih _ _ _ (h.extend hn hsome))

/-! ### Bounds (R213, R217) -/

theorem PrefixReady.toList_length (h : PrefixReady d next p) : (find d p).toList.length = 1 := by
  obtain ⟨c, hc⟩ := Option.isSome_iff_exists.mp h.known
  rw [hc]
  rfl

/-- Every emission but the last is paired with an insertion (R213). -/
theorem codesGo_assigns (bs : List Byte) (h : PrefixReady d next p) :
    ((codesGo d next p bs).2.filter isAssign).length + 1 = (codesGo d next p bs).1.length := by
  induction d, next, p, bs, h using codesGo_induct with
  | full d p bs h ih => rwa [codesGo_full]
  | done d next p hn h => rw [codesGo_nil hn, h.toList_length]; rfl
  | known d next p b bs hn h hb ih => rwa [codesGo_known hn hb]
  | new d next p b bs hn h hb ih =>
    rw [codesGo_new hn hb, List.length_append, h.toList_length, ← ih, List.filter_cons_of_pos rfl, List.length_cons]
    omega

/-- A byte that is read ends at most one string (R213). -/
theorem codesGo_length_le (bs : List Byte) (h : PrefixReady d next p) :
    (codesGo d next p bs).1.length ≤ bs.length + 1 := by
  induction d, next, p, bs, h using codesGo_induct with
  | full d p bs h ih => rwa [codesGo_full]
  | done d next p hn h => rw [codesGo_nil hn, h.toList_length]; rfl
  | known d next p b bs hn h hb ih => rw [codesGo_known hn hb]; exact ih.trans (Nat.le_succ _)
  | new d next p b bs hn h hb ih =>
    rw [codesGo_new hn hb, List.length_append, h.toList_length, List.length_cons]
    omega

/-- A string put has two bytes or more, and is at most one byte longer than any string before it can be (R217). -/
theorem codesGo_assign_bounds (bs : List Byte) (h : PrefixReady d next p) {c : Code} {str : Str}
    (hmem : .assign c str ∈ (codesGo d next p bs).2) : 2 ≤ str.length ∧ str.length + 254 ≤ c.toNat := by
  induction d, next, p, bs, h using codesGo_induct with
  | full d p bs h ih =>
    rw [codesGo_full] at hmem
    exact ih ((List.mem_cons.mp hmem).resolve_left nofun)
  | done d next p hn h =>
    rw [codesGo_nil hn] at hmem
    exact absurd hmem List.not_mem_nil
  | known d next p b bs hn h hb ih =>
    rw [codesGo_known hn hb] at hmem
    exact ih hmem
  | new d next p b bs hn h hb ih =>
    rw [codesGo_new hn hb] at hmem
    obtain hput | hmem := List.mem_cons.mp hmem
    · obtain ⟨rfl, rfl⟩ := Event.assign.inj hput
      have := h.length
      rw [h.nextCode_toNat hn, List.length_append, List.length_singleton]
      omega
    · exact ih hmem

/-- Settles O52: each bound by induction along `codesGo` from the first byte of the input. -/
theorem compressBounds : Obligations.CompressBounds := by
  intro input
  cases input with
  | nil => exact ⟨fun h => absurd rfl h, Nat.le_refl 0, rfl, fun _ _ h => absurd h List.not_mem_nil⟩
  | cons b bs =>
    have hready := prefixReady_single b
    have hassigns := codesGo_assigns bs hready
    exact ⟨fun _ => ⟨(Nat.le_add_left 1 _).trans_eq hassigns, hassigns⟩, codesGo_length_le bs hready, pack_length _,
      fun _ _ => codesGo_assign_bounds bs hready⟩

end Sys2Proof.Machine
end

section
/-! SUPPORT. The compressor's table against the association list of `codes`, and what it keeps of the running string: a run
never misses its string (O51). -/

namespace Sys2Proof.Machine

open Sys2Proof.Safety

variable {s t : State} {d : List (Str × Code)}

/-! ### The table against an association list (R149, R212) -/

/-- The table is of the compressor's kind and answers every key as the list does. -/
def TableAnswers (h : HashFn) (di : Option Dict) (d : List (Str × Code)) : Prop :=
  ∃ b, di = some (.s2c b) ∧ 0 < b.length ∧ ∀ key, getS h b key = find d key

theorem tableAnswers_initS (h : HashFn) : TableAnswers h (some (.s2c (initS h))) singlesS :=
  ⟨_, rfl, by simp, getS_initS h⟩

theorem TableAnswers.getStr (h : TableAnswers s.hash s.di d) (key : Str) : s.getStr key = find d key := by
  obtain ⟨b, hb, -, hget⟩ := h
  simp only [State.getStr, hb, hget]

theorem TableAnswers.hasStr (h : TableAnswers s.hash s.di d) (key : Str) : s.hasStr key = (find d key).isSome :=
  congrArg Option.isSome (h.getStr key)

/-- A put is an entry at the end of the list (R140, R146). -/
theorem tableAnswers_putS {h : HashFn} {b : List (List (Str × Code))} (hpos : 0 < b.length)
    (hget : ∀ key, getS h b key = find d key) (key : Str) (value : Code) :
    TableAnswers h (some (.s2c (putS h b key value))) (d ++ [(key, value)]) :=
  ⟨_, rfl, by rwa [putS_length], fun k => by rw [getS_putS _ hpos, hget, find_append, find_singleton]⟩

theorem TableAnswers.assignStr (h : TableAnswers s.hash s.di d) (key : Str) (value : Code) :
    TableAnswers s.hash (s.assignStr key value).di (d ++ [(key, value)]) := by
  obtain ⟨b, hb, hpos, hget⟩ := h
  rw [assignStr_di hb]
  exact tableAnswers_putS hpos hget key value

/-! ### The running string along a run (R215, R216, R220) -/

/-- The table is that of some list in which the running string is ready. -/
def Tracked (s : State) : Prop := ∃ d, TableAnswers s.hash s.di d ∧ PrefixReady d s.next s.pfx

/-- The running string where the table-reset check has been made (R205). -/
def TrackedFree (s : State) : Prop := s.next ≠ Config.codeLimit ∧ Tracked s

theorem TrackedFree.readStable : ReadStable TrackedFree := fun _ _ _ => id
theorem TrackedFree.writeStable : WriteStable TrackedFree := fun _ _ _ _ => id
theorem TrackedFree.packerStable : PackerStable TrackedFree := fun _ _ _ => id

/-- A ready string has its code (R215). -/
theorem Tracked.getStr_pfx (h : Tracked s) : ∃ c, s.getStr s.pfx = some c := by
  obtain ⟨d, htable, hready⟩ := h
  rw [htable.getStr]
  exact Option.isSome_iff_exists.mp hready.known

theorem Tracked.resetCheckS (h : Tracked s) : TrackedFree (resetCheckS s) := by
  by_cases hn : s.next = Config.codeLimit
  · rw [resetCheckS_full hn]
    obtain ⟨d, -, hready⟩ := h
    rw [hn] at hready
    exact ⟨(by decide : Config.firstFree ≠ Config.codeLimit), singlesS, tableAnswers_initS _, hready.reset⟩
  · rw [resetCheckS_free hn]
    exact ⟨hn, h⟩

/-- What each control state of the compressor knows of the running string; a run is in no other state. -/
def KnowsPrefix (s : State) : Prop :=
  match s.fsm with
  | .awaitingFirstByte => TableAnswers s.hash s.di singlesS ∧ s.next = Config.firstFree
  | .accumulating | .drain => Tracked s
  | .emit => TrackedFree s
  | .done => True
  | .idle | .unpacking | .dFirst | .dLoop | .failed => False

theorem startCompress_knowsPrefix (s : State) : KnowsPrefix (startCompress s) := ⟨tableAnswers_initS s.hash, rfl⟩

theorem compressFirst_keeps_prefix (hs : TableAnswers s.hash s.di singlesS ∧ s.next = Config.firstFree)
    (h : compressFirst s = .ok () t) : KnowsPrefix t := by
  obtain ⟨htable, hn⟩ := hs
  obtain ⟨b, rest, -, rfl⟩ | ⟨-, ht⟩ := compressFirst_ok h
  · exact ⟨singlesS, htable, hn ▸ prefixReady_single b⟩
  · rw [ht]; trivial

theorem compressAccumulate_keeps_prefix (hs : Tracked s) (h : compressAccumulate s = .ok () t) : KnowsPrefix t := by
  obtain ⟨r, u, hr, h⟩ := bind_eq_ok.mp h
  obtain ⟨hn, d, htable, hready⟩ := (readByte_ends TrackedFree.readStable _ hs.resetCheckS).of_ok hr
  cases r with
  | none =>
    obtain ⟨-, rfl⟩ := Res.ok.inj h
    exact ⟨d, htable, hready⟩
  | some b =>
    dsimp only at h
    rw [htable.hasStr] at h
    split at h
    · rename_i hb
      obtain ⟨-, rfl⟩ := Res.ok.inj h
      exact ⟨d, htable, hready.extend hn hb⟩
    · obtain ⟨-, rfl⟩ := Res.ok.inj h
      exact ⟨hn, d, htable, hready⟩

theorem compressEmit_keeps_prefix (hs : TrackedFree s) (h : compressEmit s = .ok () t) : KnowsPrefix t := by
  obtain ⟨n, u, hu, h⟩ := bind_eq_ok.mp h
  obtain ⟨hn, d, htable, hready⟩ := (emitPfx_ends TrackedFree.writeStable TrackedFree.packerStable hs).of_ok hu
  obtain ⟨-, rfl⟩ := Res.ok.inj h
  have hput := htable.assignStr (u.pfx ++ [u.cur]) (nextCode u.next)
  rw [assignStr_frame]
  exact ⟨_, hput, hready.restart hn u.cur⟩

/-- Every rule of the compressor leaves what the next one needs to know of the running string (R216, R220). -/
theorem engineStep_keeps_prefix (hs : KnowsPrefix s) (h : engineStep s = .ok () t) : KnowsPrefix t := by
  have hknows := hs
  unfold KnowsPrefix at hs
  unfold engineStep at h
  cases hf : s.fsm with
  | awaitingFirstByte => rw [hf] at hs h; exact compressFirst_keeps_prefix hs h
  | accumulating => rw [hf] at hs h; exact compressAccumulate_keeps_prefix hs h
  | emit => rw [hf] at hs h; exact compressEmit_keeps_prefix hs h
  | drain =>
    rw [hf] at h
    obtain ⟨c, n, m, v, w, -, -, -, rfl⟩ := compressDrain_ok h
    trivial
  | done =>
    rw [hf] at h
    obtain ⟨-, rfl⟩ := Res.ok.inj h
    exact hknows
  | idle | unpacking | dFirst | dLoop | failed => rw [hf] at hs; exact hs.elim

/-! ### What a run can raise -/

/-- Where the running string has a code, an emission raises only at a refused write (R206, R208, R215). -/
theorem emitPfx_raise_of_tracked {x : Cause} (hs : Tracked s) (h : emitPfx s = .raise x t) : x = .outputIoError := by
  obtain ⟨c, hc⟩ := hs.getStr_pfx
  obtain ⟨hnone, -⟩ | ⟨c', -, hpush⟩ := emitPfx_raise h
  · rw [hc] at hnone
    exact absurd hnone nofun
  · exact (pkPushBody_raise hpush).2.1

theorem compressDrain_raise_of_tracked {x : Cause} (hs : Tracked s) (h : compressDrain s = .raise x t) :
    x = .outputIoError := by
  obtain h | ⟨n, v, -, h⟩ := compressDrain_raise h
  · exact emitPfx_raise_of_tracked hs h
  · exact (pkFlushBody_raise h).2.1

/-- No rule of the compressor raises `InternalLookupMiss` (R215). -/
theorem engineStep_raise_of_prefix {x : Cause} (hs : KnowsPrefix s) (h : engineStep s = .raise x t) :
    x = .outputIoError := by
  unfold KnowsPrefix at hs
  unfold engineStep at h
  cases hf : s.fsm with
  | awaitingFirstByte => rw [hf] at h; exact absurd h compressFirst_ne_raise
  | accumulating => rw [hf] at h; exact absurd h compressAccumulate_ne_raise
  | emit => rw [hf] at hs h; exact emitPfx_raise_of_tracked hs.2 (compressEmit_raise h)
  | drain => rw [hf] at hs h; exact compressDrain_raise_of_tracked hs h
  | done => rw [hf] at h; exact absurd h nofun
  | idle | unpacking | dFirst | dLoop | failed => rw [hf] at hs; exact hs.elim

/-- At rest a compressor run has ended normally (R202). -/
theorem KnowsPrefix.done (h : KnowsPrefix s) (hrest : s.fsm.isRest = true) : s.fsm = .done := by
  unfold KnowsPrefix at h
  cases hf : s.fsm with
  | done => rfl
  | awaitingFirstByte | accumulating | emit | drain | unpacking | dFirst | dLoop => simp [hf, Fsm.isRest] at hrest
  | idle | failed => rw [hf] at h; exact h.elim

/-- Settles O51: every rule keeps the running string in the table, and sends nothing. -/
theorem compressNeverMissesItsString : Obligations.CompressNeverMissesItsString := by
  intro s t h
  have hstart : KnowsPrefix (startCompress s) ∧ Unanswered s (startCompress s) := ⟨startCompress_knowsPrefix s, rfl⟩
  obtain ⟨hok, hraise⟩ := runEngine_induct (P := fun u => KnowsPrefix u ∧ Unanswered s u)
    (fun u v hu _ hv => ⟨engineStep_keeps_prefix hu.1 hv, (engineStep_unanswered u hu.2).of_ok hv⟩)
    (runBudget (startCompress s)) _ hstart
  obtain ⟨_, u, hu, rfl⟩ | ⟨x, u, hu, rfl⟩ := answer_eq_next.mp h
  · obtain ⟨⟨hknows, hrsp⟩, hrest⟩ := hok u hu
    exact .inl ⟨congrArg (· ++ _) hrsp, hknows.done hrest⟩
  · obtain ⟨v, ⟨hknows, hrsp⟩, -, hv⟩ := hraise x u hu
    obtain rfl := engineStep_raise_of_prefix hknows hv
    have hsent : Unanswered s u := (engineStep_unanswered v hrsp).of_raise hv
    exact .inr ⟨congrArg (· ++ _) hsent, rfl⟩

end Sys2Proof.Machine
end

section
/-! SUPPORT. A compressor run from the stream it reads to the bytes it writes: each rule as an equation where the sink accepts,
and the run side by side with `codes` (O49, O50). -/

namespace Sys2Proof.Machine

open Sys2Proof.Safety

variable {s t u : State} {b : Byte} {bs : List Byte} {inp rest : List ReadAnswer} {c : Code} {held : Option Code}

/-! ### Reads -/

theorem readByte_of_byte (before : List Byte) (h : s.inp = .byte b :: inp) :
    readByte before s = .ok (some b) { s with inp := inp, hist := s.hist ++ [.read (some b)] } := by
  simp [readByte, h, State.log]

/-- A stream of no bytes left answers `EndOfStream` (R62). -/
theorem readByte_of_end (before : List Byte) (h : streamOf s.inp = some ([], rest)) :
    readByte before s = .ok none { s with inp := rest, hist := s.hist ++ [.read none] } := by
  obtain hinp | ⟨hinp, rfl⟩ := streamOf_eq_nil_iff.mp h
  · simp [readByte, hinp, State.log]
  · simp only [readByte, hinp, State.log]

/-! ### The packer where the sink accepts (R161, R163, R164) -/

/-- `s` after these bytes have been written and accepted. -/
def State.written (bytes : List Byte) (s : State) : State :=
  { s with sink := s.sink.drop bytes.length, out := s.out ++ bytes, hist := s.hist ++ bytes.map fun b => .write b true }

/-- The packer with no code or one code pending (R30, R31). -/
def bufferOf : Option Code → Packer
  | none => .clear
  | some a => ⟨.second, packB0 a, packB1 a, 0⟩

/-- The bytes a push of `c` writes, and the code pending after it (R161). -/
def pushOf (c : Code) : Option Code → List Byte × Option Code
  | none => ([], some c)
  | some a => ([packB0 a, packMid a c, packB2 c], none)

/-- A push moves codes from the pending ones to the written ones, as `pack` does (R164). -/
theorem pack_pushOf (c : Code) (held : Option Code) (cs : List Code) :
    (pushOf c held).1 ++ pack ((pushOf c held).2.toList ++ cs) = pack (held.toList ++ c :: cs) := by
  cases held <;> rfl

theorem pkPushBody_of_accepting (c : Code) (hpk : s.pk = bufferOf held) (ha : accepting s.sink) :
    ∃ n, pkPushBody c s = .ok n { s.written (pushOf c held).1 with pk := bufferOf (pushOf c held).2 } := by
  cases held with
  | none =>
    refine ⟨0, ?_⟩
    rw [pkPushBody_first c (by rw [hpk]; rfl)]
    simp [State.bufferFirst, State.written, pushOf, bufferOf]
  | some a =>
    have hbytes : pairBytes c s.pk = (pushOf c (some a)).1 := by
      rw [hpk, pairBytes, bufferOf, packB1_or_packHi]
      rfl
    refine ⟨3, ?_⟩
    rw [pkPushBody_second c (by rw [hpk]; rfl), emitStr_of_accepting (s := s.completePair c) (accepting_take ha _), hbytes]
    rfl

theorem pkFlushBody_of_accepting (hpk : s.pk = bufferOf held) (ha : accepting s.sink) :
    ∃ n, pkFlushBody s = .ok n { s.written (pack held.toList) with pk := .clear } := by
  cases held with
  | none =>
    refine ⟨0, ?_⟩
    rw [pkFlushBody_first (by rw [hpk]; rfl)]
    simp [State.written, pack, ← show s.pk = .clear from hpk]
  | some a =>
    refine ⟨2, ?_⟩
    rw [pkFlushBody_second (by rw [hpk]; rfl), emitStr_of_accepting (accepting_take ha _), hpk]
    rfl

theorem emitPfx_of_getStr (h : s.getStr s.pfx = some c) : emitPfx s = pkPushBody c s := by simp [emitPfx, h]

/-! ### The rules, one equation for each case -/

theorem compressFirst_of_end (h : streamOf s.inp = some ([], rest)) :
    compressFirst s = .ok () (State.setDone { s with inp := rest, hist := s.hist ++ [.read none] }) := by
  rw [compressFirst, readByte_of_end [] h]
  rfl

theorem compressFirst_of_byte (h : s.inp = .byte b :: inp) :
    compressFirst s = .ok () { s with
      inp := inp, hist := s.hist ++ [.read (some b)], pfx := [b], fsm := .accumulating } := by
  rw [compressFirst, readByte_of_byte [] h]
  rfl

/-- The table-reset check made twice is made once (R205). -/
theorem compressAccumulate_resetCheckS (s : State) : compressAccumulate (resetCheckS s) = compressAccumulate s := by
  have hidem : resetCheckS (resetCheckS s) = resetCheckS s := by
    by_cases hn : s.next = 4096
    · rw [resetCheckS_full hn]
      exact resetCheckS_free (by decide : (256 : NextCode) ≠ 4096)
    · rw [resetCheckS_free hn, resetCheckS_free hn]
  rw [compressAccumulate, hidem, compressAccumulate]

section
variable (hn : s.next ≠ Config.codeLimit)
include hn

theorem compressAccumulate_of_end (h : streamOf s.inp = some ([], rest)) :
    compressAccumulate s = .ok () { s with inp := rest, hist := s.hist ++ [.read none], fsm := .drain } := by
  rw [compressAccumulate, resetCheckS_free hn, readByte_of_end [] h]
  rfl

theorem compressAccumulate_of_known (h : s.inp = .byte b :: inp) (hb : s.hasStr (s.pfx ++ [b]) = true) :
    compressAccumulate s = .ok () { s with
      inp := inp, hist := s.hist ++ [.read (some b)], cur := b, pfx := s.pfx ++ [b], fsm := .accumulating } := by
  rw [compressAccumulate, resetCheckS_free hn, readByte_of_byte [] h]
  exact if_pos hb

theorem compressAccumulate_of_new (h : s.inp = .byte b :: inp) (hb : s.hasStr (s.pfx ++ [b]) = false) :
    compressAccumulate s = .ok () { s with
      inp := inp, hist := s.hist ++ [.read (some b)], cur := b, fsm := .emit } := by
  rw [compressAccumulate, resetCheckS_free hn, readByte_of_byte [] h]
  exact if_neg (Bool.eq_false_iff.mp hb)

end

/-- `EMIT` where the sink accepts: the push, then the insertion and the new start of the string (R206). -/
theorem compressEmit_of_accepting {tb : List (List (Str × Code))} (htb : s.di = some (.s2c tb))
    (hc : s.getStr s.pfx = some c) (hpk : s.pk = bufferOf held) (ha : accepting s.sink) :
    compressEmit s = .ok () { s.written (pushOf c held).1 with
      pk := bufferOf (pushOf c held).2, di := some (.s2c (putS s.hash tb (s.pfx ++ [s.cur]) (nextCode s.next))),
      hist := (s.written (pushOf c held).1).hist ++ [.assign (nextCode s.next) (s.pfx ++ [s.cur])],
      next := s.next + 1, pfx := [s.cur], fsm := .accumulating } := by
  obtain ⟨n, hpush⟩ := pkPushBody_of_accepting c hpk ha
  rw [compressEmit, emitPfx_of_getStr hc, hpush, bind_ok]
  dsimp only
  rw [assignStr_frame, assignStr_di (s := { s.written (pushOf c held).1 with pk := _ }) htb]
  rfl

/-- `DRAIN` where the sink accepts: the pending code and the last one are packed (R164, R208). -/
theorem compressDrain_of_accepting (hc : s.getStr s.pfx = some c) (hpk : s.pk = bufferOf held) (ha : accepting s.sink) :
    compressDrain s = .ok () (State.setDone { s.written (pack (held.toList ++ [c])) with pk := .clear }) := by
  obtain ⟨n, hpush⟩ := pkPushBody_of_accepting c hpk ha
  obtain ⟨m, hflush⟩ := pkFlushBody_of_accepting (s := { s.written (pushOf c held).1 with pk := bufferOf (pushOf c held).2 })
    rfl (accepting_drop ha _)
  rw [compressDrain, emitPfx_of_getStr hc, hpush, bind_ok, hflush, bind_ok, ← pack_pushOf, List.append_nil]
  simp [State.written, State.setDone, List.append_assoc]

/-! ### Runs -/

/-- A rule that ends normally is followed by the rest of the run. -/
theorem runEngine_of_ok (k : Nat) (hrest : s.fsm.isRest = false) (h : engineStep s = .ok () u) :
    runEngine (k + 1) s = runEngine k u := by
  rw [runEngine_step k hrest, h, bind_ok]

theorem engineStep_of_accumulating (hf : s.fsm = .accumulating) : engineStep s = compressAccumulate s := by
  simp [engineStep, hf]

theorem runEngine_accumulating (k : Nat) (hf : s.fsm = .accumulating) (h : compressAccumulate s = .ok () u) :
    runEngine (k + 1) s = runEngine k u :=
  runEngine_of_ok k (by rw [hf]; rfl) (by rw [engineStep_of_accumulating hf, h])

/-- The end of a run: the last code goes out with the pending one (R208). -/
theorem runEngine_drain (k : Nat) (hf : s.fsm = .drain) (hc : s.getStr s.pfx = some c) (hpk : s.pk = bufferOf held)
    (ha : accepting s.sink) :
    runEngine (k + 2) s = .ok () (State.setDone { s.written (pack (held.toList ++ [c])) with pk := .clear }) := by
  have hstep : engineStep s = compressDrain s := by simp [engineStep, hf]
  rw [runEngine_of_ok (k + 1) (by rw [hf]; rfl) (hstep.trans (compressDrain_of_accepting hc hpk ha)), runEngine_rest k rfl]

/-- The command is its run from the start, and the response (R200). -/
theorem exec_lzwCompress_of_run (h : runEngine (runBudget (startCompress s)) (startCompress s) = .ok () u) :
    exec .lzwCompress s = .next (respond .ok 0 u) := by
  rw [exec, execLzwCompress, runCompressor, h, answer_ok]

/-- The state of a run after its first byte (R201, R203). -/
def afterFirst (s : State) (b : Byte) (inp : List ReadAnswer) : State :=
  { startCompress s with inp := inp, hist := s.hist ++ [.read (some b)], pfx := [b], fsm := .accumulating }

theorem runEngine_startCompress (k : Nat) (h : s.inp = .byte b :: inp) :
    runEngine (k + 1) (startCompress s) = runEngine k (afterFirst s b inp) :=
  runEngine_of_ok (s := startCompress s) k rfl (compressFirst_of_byte (s := startCompress s) h)

/-- The budget of a run covers two rules for each byte of its stream and four more (R318). -/
theorem runBudget_startCompress (h : streamOf s.inp = some (bs, rest)) :
    ∃ k, runBudget (startCompress s) = k + 2 * bs.length + 4 := by
  have hle : bs.length ≤ s.inp.length := length_le_of_streamOf h
  have hbudget : runBudget (startCompress s) = 2 * s.inp.length + s.cs.items.length + 8 := rfl
  exact ⟨2 * s.inp.length + s.cs.items.length + 4 - 2 * bs.length, by omega⟩

/-! ### The empty input and one byte (R209, R210) -/

theorem runEngine_startCompress_of_end (k : Nat) (h : streamOf s.inp = some ([], rest)) :
    runEngine (k + 2) (startCompress s) = .ok () (State.setDone { startCompress s with
      inp := rest, hist := s.hist ++ [.read none] }) :=
  (runEngine_of_ok (s := startCompress s) (k + 1) rfl (compressFirst_of_end (s := startCompress s) h)).trans
    (runEngine_rest k rfl)

theorem exec_lzwCompress_of_empty (h : streamOf s.inp = some ([], rest)) :
    exec .lzwCompress s = .next (respond .ok 0 (State.setDone { startCompress s with
      inp := rest, hist := s.hist ++ [.read none] })) := by
  obtain ⟨k, hk⟩ := runBudget_startCompress h
  exact exec_lzwCompress_of_run (hk ▸ runEngine_startCompress_of_end (k + 2) h)

/-- A single's code packs to the byte's two nibbles, the high one behind a zero nibble and the low one before one (R210). -/
theorem pack_single (x : Byte) : pack [single x] = [(x.extractLsb' 4 4).setWidth 8, x.extractLsb' 0 4 ++ 0#4] := by
  have h0 : packB0 (single x) = (x.extractLsb' 4 4).setWidth 8 := by
    have hx := x.isLt
    refine BitVec.eq_of_toNat_eq ?_
    simp only [packB0, BitVec.extractLsb'_toNat, single_toNat, BitVec.toNat_setWidth, Nat.shiftRight_eq_div_pow]
    omega
  have h1 : (single x).extractLsb' 0 4 = x.extractLsb' 0 4 := BitVec.extractLsb'_setWidth_of_le (by decide)
  rw [pack, packB1, h0, h1]

theorem exec_lzwCompress_of_single (x : Byte) (h : streamOf s.inp = some ([x], rest)) (ha : accepting s.sink) :
    exec .lzwCompress s = .next (respond .ok 0 (State.setDone { State.written (pack [single x]) { startCompress s with
      inp := rest, hist := s.hist ++ [.read (some x)] ++ [.read none], pfx := [x], fsm := .drain } with pk := .clear })) := by
  obtain ⟨inp, hinp, hend⟩ := streamOf_eq_cons_iff.mp h
  obtain ⟨k, hk⟩ := runBudget_startCompress h
  have hlast : compressAccumulate (afterFirst s x inp) = _ :=
    compressAccumulate_of_end (by decide : Config.firstFree ≠ Config.codeLimit) hend
  have hcode : (startCompress s).getStr [x] = some (single x) :=
    (TableAnswers.getStr (s := startCompress s) (tableAnswers_initS s.hash) [x]).trans (find_singlesS x)
  refine exec_lzwCompress_of_run ?_
  rw [hk]
  exact (runEngine_startCompress (k + 5) hinp).trans ((runEngine_accumulating (k + 4) rfl hlast).trans
    (runEngine_drain (k + 2) rfl hcode (held := none) rfl ha))

/-- Settles O50: the rules of the two runs, one after the other. -/
theorem compressOfEmptyAndOfOneByte : Obligations.CompressOfEmptyAndOfOneByte := by
  refine ⟨fun s rest h => exec_lzwCompress_of_empty h,
    fun s x rest h ha => ⟨_, _, _, rfl, rfl, exec_lzwCompress_of_single x h ha, rfl, rfl, ?_, ?_⟩⟩
  · rw [← pack_single]
    rfl
  · simp [State.written, pack_single]

/-! ### Any input (R212) -/

/-- What the compressor has done from `s` to `t`: the bytes written and the growth events made; of the sticky bits only `DONE`
may have moved, and the sequence, `PREV` and the responses are kept (R221, R303). -/
structure Advances (s t : State) (bytes : List Byte) (growth : List Event) : Prop where
  out : t.out = s.out ++ bytes
  hist : ∃ es, t.hist = s.hist ++ es ∧ es.filter Event.isGrowth = growth
  sticky : t.sticky = { s.sticky with done := t.sticky.done }
  cs : t.cs = s.cs
  prev : t.prev = s.prev
  rsp : t.rsp = s.rsp

theorem Advances.trans {bytes bytes' : List Byte} {growth growth' : List Event} (h : Advances s u bytes growth)
    (h' : Advances u t bytes' growth') : Advances s t (bytes ++ bytes') (growth ++ growth') := by
  obtain ⟨es, hes, hgrowth⟩ := h.hist
  obtain ⟨es', hes', hgrowth'⟩ := h'.hist
  exact {
    out := by rw [h'.out, h.out, List.append_assoc]
    hist := ⟨es ++ es', by rw [hes', hes, List.append_assoc], by rw [List.filter_append, hgrowth, hgrowth']⟩
    sticky := by rw [h'.sticky, h.sticky]
    cs := h'.cs.trans h.cs, prev := h'.prev.trans h.prev, rsp := h'.rsp.trans h.rsp }

/-- The normal end of a compressor run whose stream leaves `rest` on `IN` (R208). -/
structure Ended (t : State) (rest : List ReadAnswer) : Prop where
  fsm : t.fsm = .done
  done : t.sticky.done = true
  pk : t.pk = .clear
  inp : t.inp = rest

/-- The machine about to read where `codes` stands: the same table, next code and string, the same bytes to come, and the code
that is not yet written pending in the packer. -/
structure Simulates (s : State) (d : List (Str × Code)) (next : NextCode) (p : Str) (bs : List Byte)
    (rest : List ReadAnswer) (held : Option Code) : Prop where
  fsm : s.fsm = .accumulating
  table : TableAnswers s.hash s.di d
  next : s.next = next
  pfx : s.pfx = p
  stream : streamOf s.inp = some (bs, rest)
  sink : accepting s.sink
  pk : s.pk = bufferOf held

theorem filter_growth_writes (bytes : List Byte) : (bytes.map fun b => Event.write b true).filter Event.isGrowth = [] := by
  simp [Event.isGrowth]

section
variable {d : List (Str × Code)} {next : NextCode} {p : Str}

theorem Simulates.getStr_pfx (hs : Simulates s d next p bs rest held) (hc : find d p = some c) :
    s.getStr s.pfx = some c := by
  rw [hs.table.getStr, hs.pfx, hc]

/-- A full table may as well be reset before the rule as by it (R204, R205). -/
theorem Simulates.reset (hs : Simulates s d Config.codeLimit p bs rest held) :
    (∀ k, runEngine (k + 1) s = runEngine (k + 1) (resetCheckS s)) ∧
    Simulates (resetCheckS s) singlesS Config.firstFree p bs rest held ∧ Advances s (resetCheckS s) [] [.tableReset] := by
  have hreset := resetCheckS_full hs.next
  have hsim : Simulates (resetCheckS s) singlesS Config.firstFree p bs rest held := by
    rw [hreset]
    exact { hs with table := tableAnswers_initS s.hash, next := rfl }
  refine ⟨fun k => ?_, hsim, ?_⟩
  · rw [runEngine_step k (by rw [hs.fsm]; rfl), runEngine_step k (by rw [hsim.fsm]; rfl),
      engineStep_of_accumulating hs.fsm, engineStep_of_accumulating hsim.fsm, compressAccumulate_resetCheckS]
  · rw [hreset]
    exact ⟨(List.append_nil _).symm, ⟨[.tableReset], rfl, rfl⟩, rfl, rfl, rfl, rfl⟩

/-- At the end of the input the last code and the flush write what is left (R208). -/
theorem Simulates.drain (hs : Simulates s d next p [] rest held) (hn : next ≠ Config.codeLimit) (hc : find d p = some c)
    (k : Nat) : ∃ t, runEngine (k + 3) s = .ok () t ∧ Advances s t (pack (held.toList ++ [c])) [] ∧ Ended t rest := by
  have hread := compressAccumulate_of_end (hs.next ▸ hn) hs.stream
  have hdrain := runEngine_drain (s := { s with inp := rest, hist := s.hist ++ [.read none], fsm := .drain }) k rfl
    (hs.getStr_pfx hc) hs.pk hs.sink
  exact ⟨_, (runEngine_accumulating (k + 2) hs.fsm hread).trans hdrain,
    ⟨rfl, ⟨_, List.append_assoc _ _ _, filter_growth_writes _⟩, rfl, rfl, rfl, rfl⟩, rfl, rfl, rfl, rfl⟩

/-- A longer string that the table has becomes the string (R204). -/
theorem Simulates.grow (hs : Simulates s d next p (b :: bs) rest held) (hn : next ≠ Config.codeLimit)
    (hb : (find d (p ++ [b])).isSome = true) :
    ∃ u, (∀ k, runEngine (k + 1) s = runEngine k u) ∧ Simulates u d next (p ++ [b]) bs rest held ∧ Advances s u [] [] := by
  obtain ⟨inp, hinp, hstream⟩ := streamOf_eq_cons_iff.mp hs.stream
  have hread := compressAccumulate_of_known (hs.next ▸ hn) hinp (by rw [hs.table.hasStr, hs.pfx, hb])
  exact ⟨_, fun k => runEngine_accumulating k hs.fsm hread,
    { hs with fsm := rfl, pfx := congrArg (· ++ [b]) hs.pfx, stream := hstream },
    ⟨(List.append_nil _).symm, ⟨[.read (some b)], rfl, rfl⟩, rfl, rfl, rfl, rfl⟩⟩

/-- A longer string that the table has not: the string's code is pushed, the longer one put, and the string begun again
(R204, R206). -/
theorem Simulates.insert (hs : Simulates s d next p (b :: bs) rest held) (hn : next ≠ Config.codeLimit)
    (hb : find d (p ++ [b]) = none) (hc : find d p = some c) :
    ∃ u, (∀ k, runEngine (k + 2) s = runEngine k u) ∧
      Simulates u (d ++ [(p ++ [b], nextCode next)]) (next + 1) [b] bs rest (pushOf c held).2 ∧
      Advances s u (pushOf c held).1 [.assign (nextCode next) (p ++ [b])] := by
  obtain ⟨inp, hinp, hstream⟩ := streamOf_eq_cons_iff.mp hs.stream
  obtain ⟨tb, htb, hpos, hget⟩ := hs.table
  have hread := compressAccumulate_of_new (hs.next ▸ hn) hinp (by rw [hs.table.hasStr, hs.pfx, hb]; rfl)
  have hemit := compressEmit_of_accepting (s := { s with
    inp := inp, hist := s.hist ++ [.read (some b)], cur := b, fsm := .emit }) htb (hs.getStr_pfx hc) hs.pk hs.sink
  obtain rfl := hs.next
  obtain rfl := hs.pfx
  refine ⟨_, fun k => (runEngine_accumulating (k + 1) hs.fsm hread).trans (runEngine_of_ok k rfl hemit),
    ⟨rfl, tableAnswers_putS hpos hget _ _, rfl, rfl, hstream, accepting_drop hs.sink _, rfl⟩,
    ⟨rfl, ⟨.read (some b) :: ((pushOf c held).1.map fun b => .write b true) ++ [.assign (nextCode s.next) (s.pfx ++ [b])],
      ?_, ?_⟩, rfl, rfl, rfl, rfl⟩⟩
  · simp [State.written]
  · rw [List.filter_append, List.filter_cons_of_neg Bool.false_ne_true, filter_growth_writes]
    rfl

/-- The run and `codes` side by side: from simulating states the run writes what `codes` emits, packed behind the pending
code, and makes the same growth events (R212, R221). -/
theorem runEngine_simulates {k : Nat} (h : PrefixReady d next p) (hs : Simulates s d next p bs rest held)
    (hk : 2 * bs.length + 3 ≤ k) : ∃ t, runEngine k s = .ok () t ∧
      Advances s t (pack (held.toList ++ (codesGo d next p bs).1)) (codesGo d next p bs).2 ∧ Ended t rest := by
  induction d, next, p, bs, h using codesGo_induct generalizing s held k with
  | full d p bs h ih =>
    obtain ⟨k, rfl⟩ : ∃ m, k = m + 1 := ⟨k - 1, by omega⟩
    obtain ⟨hrun, hsim, hadv⟩ := hs.reset
    obtain ⟨t, ht, hadv', hend⟩ := ih hsim hk
    rw [codesGo_full]
    exact ⟨t, (hrun k).trans ht, hadv.trans hadv', hend⟩
  | done d next p hn h =>
    obtain ⟨k, rfl⟩ := Nat.exists_eq_add_of_le' hk
    obtain ⟨c, hc⟩ := Option.isSome_iff_exists.mp h.known
    rw [codesGo_nil hn, hc]
    exact hs.drain hn hc k
  | known d next p b bs hn h hb ih =>
    rw [List.length_cons] at hk
    obtain ⟨k, rfl⟩ : ∃ m, k = m + 1 := ⟨k - 1, by omega⟩
    obtain ⟨u, hrun, hsim, hadv⟩ := hs.grow hn hb
    obtain ⟨t, ht, hadv', hend⟩ := ih (k := k) hsim (by omega)
    rw [codesGo_known hn hb]
    exact ⟨t, (hrun k).trans ht, hadv.trans hadv', hend⟩
  | new d next p b bs hn h hb ih =>
    rw [List.length_cons] at hk
    obtain ⟨k, rfl⟩ : ∃ m, k = m + 2 := ⟨k - 2, by omega⟩
    obtain ⟨c, hc⟩ := Option.isSome_iff_exists.mp h.known
    obtain ⟨u, hrun, hsim, hadv⟩ := hs.insert hn hb hc
    obtain ⟨t, ht, hadv', hend⟩ := ih (k := k) hsim (by omega)
    rw [codesGo_new hn hb, hc, Option.toList_some, List.singleton_append, ← pack_pushOf]
    exact ⟨t, (hrun k).trans ht, hadv.trans hadv', hend⟩

end

/-- After its first byte the machine stands where `codes` does (R203, R212). -/
theorem afterFirst_simulates (hstream : streamOf inp = some (bs, rest)) (ha : accepting s.sink) :
    Simulates (afterFirst s b inp) singlesS Config.firstFree [b] bs rest none :=
  ⟨rfl, tableAnswers_initS s.hash, rfl, rfl, hstream, ha, rfl⟩

/-- A run on any stream writes its codes packed, and ends normally (R201, R212). -/
theorem runEngine_startCompress_of_stream (h : streamOf s.inp = some (bs, rest)) (ha : accepting s.sink) :
    ∃ t, runEngine (runBudget (startCompress s)) (startCompress s) = .ok () t ∧
      Advances (startCompress s) t (pack (codes bs)) (codesRun bs).2 ∧ Ended t rest := by
  obtain ⟨k, hk⟩ := runBudget_startCompress h
  rw [hk]
  cases bs with
  | nil =>
    exact ⟨_, runEngine_startCompress_of_end (k + 2) h,
      ⟨(List.append_nil _).symm, ⟨[.read none], rfl, rfl⟩, rfl, rfl, rfl, rfl⟩, rfl, rfl, rfl, rfl⟩
  | cons b bs =>
    obtain ⟨inp, hinp, hstream⟩ := streamOf_eq_cons_iff.mp h
    obtain ⟨t, hrun, hadv, hend⟩ := runEngine_simulates (k := k + 2 * (b :: bs).length + 3) (prefixReady_single b)
      (afterFirst_simulates hstream ha) (by rw [List.length_cons]; omega)
    have hfirst : Advances (startCompress s) (afterFirst s b inp) [] [] :=
      ⟨(List.append_nil _).symm, ⟨[.read (some b)], rfl, rfl⟩, rfl, rfl, rfl, rfl⟩
    exact ⟨t, (runEngine_startCompress _ hinp).trans hrun, hfirst.trans hadv, hend⟩

/-- Settles O49: the run from its start, and the response. -/
theorem compressWritesThePackedCodes : Obligations.CompressWritesThePackedCodes := by
  refine ⟨zeroForm_of_row (o := .lzwCompress) rfl rfl rfl, fun s input rest h ha => ?_⟩
  obtain ⟨t, hrun, hadv, hend⟩ := runEngine_startCompress_of_stream h ha
  obtain ⟨es, hes, hgrowth⟩ := hadv.hist
  refine ⟨_, es, exec_lzwCompress_of_run hrun, hadv.out, congrArg (· ++ _) hadv.rsp, hend.fsm, ?_, hend.pk, hend.inp,
    hadv.cs, hadv.prev, hes, hgrowth⟩
  rw [respond_sticky, hadv.sticky, hend.done]
  rfl

end Sys2Proof.Machine
end

section
/-! SUPPORT. The function `expand` over its association list: one equation for each case of a code, the induction that follows
from them, the codes it skips, and what always holds of its table (O53, O55). -/

namespace Sys2Proof.Machine

variable {d : List (Code × Str)} {next : NextCode} {prev cur : Code} {ps : Str} {cs : List Code}

/-! ### The cases of `expandGo` (R251) -/

theorem codeStrings_fst (ps : Str) (found : Option Str) : (codeStrings ps found).1 = found.getD (ps ++ ps.take 1) := by
  cases found <;> rfl

/-- The string put is the previous one and the first byte of the one written (R243, R244). -/
theorem codeStrings_snd (ps : Str) (found : Option Str) :
    (codeStrings ps found).2 = ps ++ (codeStrings ps found).1.take 1 := by
  cases found with
  | some str => rfl
  | none => cases ps <;> rfl

/-- The table after the put for the code `cur` behind the string `ps` (R243, R244). -/
def grown (d : List (Code × Str)) (next : NextCode) (ps : Str) (cur : Code) : List (Code × Str) :=
  d ++ [(nextCode next, (codeStrings ps (find d cur)).2)]

/-- A full table is reset where a code is left (R241, R251). -/
theorem expandGo_full (d : List (Code × Str)) (prev cur : Code) (cs : List Code) :
    expandGo d Config.codeLimit prev (cur :: cs) =
      ((expandGo singlesC Config.firstFree prev (cur :: cs)).1,
        .tableReset :: (expandGo singlesC Config.firstFree prev (cur :: cs)).2) := by
  have hfull : freshIfFull singlesC d Config.codeLimit = (singlesC, Config.firstFree, [.tableReset]) := if_pos rfl
  have hfresh : freshIfFull singlesC singlesC Config.firstFree = (singlesC, Config.firstFree, []) := if_neg (by decide)
  simp only [expandGo, hfull, hfresh]
  split <;> simp

/-- A code behind an absent one has no effect (R242, R251). -/
theorem expandGo_skip (hn : next ≠ Config.codeLimit) (hp : find d prev = none) :
    expandGo d next prev (cur :: cs) = expandGo d next prev cs := by
  have hfree : freshIfFull singlesC d next = (d, next, []) := if_neg hn
  simp [expandGo, hfree, hp]

/-- A code behind a present one is written, and a string put (R243, R244, R251). -/
theorem expandGo_code (hn : next ≠ Config.codeLimit) (hp : find d prev = some ps) :
    expandGo d next prev (cur :: cs) =
      ((codeStrings ps (find d cur)).1 ++ (expandGo (grown d next ps cur) (next + 1) cur cs).1,
        .assign (nextCode next) (codeStrings ps (find d cur)).2 :: (expandGo (grown d next ps cur) (next + 1) cur cs).2) := by
  have hfree : freshIfFull singlesC d next = (d, next, []) := if_neg hn
  simp [expandGo, hfree, hp, grown, codeStrings_snd, codeStrings_fst]

/-- Induction along `expandGo`: the end, a reset, a skip, and a code that is written. -/
theorem expandGo_induct {motive : List (Code × Str) → NextCode → Code → List Code → Prop}
    (done : ∀ d next prev, motive d next prev [])
    (full : ∀ d prev cur cs, motive singlesC Config.firstFree prev (cur :: cs) → motive d Config.codeLimit prev (cur :: cs))
    (skip : ∀ d next prev cur cs (_ : next ≠ Config.codeLimit) (_ : find d prev = none),
      motive d next prev cs → motive d next prev (cur :: cs))
    (code : ∀ d next prev ps cur cs (_ : next ≠ Config.codeLimit) (_ : find d prev = some ps),
      motive (grown d next ps cur) (next + 1) cur cs → motive d next prev (cur :: cs))
    (d : List (Code × Str)) (next : NextCode) (prev : Code) (cs : List Code) : motive d next prev cs := by
  induction cs generalizing d next prev with
  | nil => exact done d next prev
  | cons cur cs ih =>
    have hfree : ∀ d next prev (_ : next ≠ Config.codeLimit), motive d next prev (cur :: cs) := by
      intro d next prev hn
      cases hp : find d prev with
      | none => exact skip d next prev cur cs hn hp (ih _ _ _)
      | some ps => exact code d next prev ps cur cs hn hp (ih _ _ _)
    by_cases hn : next = Config.codeLimit
    · subst hn
      exact full d prev cur cs (hfree _ _ _ (by decide))
    · exact hfree d next prev hn

/-! ### Skips (R238, R242) -/

/-- Whether `expandGo` skips a code. -/
def skipsGo (d : List (Code × Str)) (next : NextCode) (prev : Code) : List Code → Bool
  | [] => false
  | cur :: cs =>
    let (d, next, _) := freshIfFull singlesC d next
    match find d prev with
    | none => true
    | some ps => skipsGo (grown d next ps cur) (next + 1) cur cs

/-- Whether `expandRun` meets an absent first code or skips a code. -/
def skipsRun : List Code → Bool
  | [] => false
  | c :: cs => (find singlesC c).isNone || skipsGo singlesC Config.firstFree c cs

theorem skipsGo_full (d : List (Code × Str)) (prev : Code) (cs : List Code) :
    skipsGo d Config.codeLimit prev cs = skipsGo singlesC Config.firstFree prev cs := by
  have hfull : freshIfFull singlesC d Config.codeLimit = (singlesC, Config.firstFree, [.tableReset]) := if_pos rfl
  have hfresh : freshIfFull singlesC singlesC Config.firstFree = (singlesC, Config.firstFree, []) := if_neg (by decide)
  cases cs with
  | nil => rfl
  | cons cur cs => simp only [skipsGo, hfull, hfresh]

theorem skipsGo_skip (hn : next ≠ Config.codeLimit) (hp : find d prev = none) : skipsGo d next prev (cur :: cs) = true := by
  have hfree : freshIfFull singlesC d next = (d, next, []) := if_neg hn
  simp [skipsGo, hfree, hp]

theorem skipsGo_code (hn : next ≠ Config.codeLimit) (hp : find d prev = some ps) :
    skipsGo d next prev (cur :: cs) = skipsGo (grown d next ps cur) (next + 1) cur cs := by
  have hfree : freshIfFull singlesC d next = (d, next, []) := if_neg hn
  simp [skipsGo, hfree, hp]

/-- What skips no code skips none of its first codes. -/
theorem skipsGo_of_append {cs cs' : List Code} (h : skipsGo d next prev (cs ++ cs') = false) :
    skipsGo d next prev cs = false := by
  induction d, next, prev, cs using expandGo_induct with
  | done d next prev => rfl
  | full d prev cur cs ih => rw [skipsGo_full] at h ⊢; exact ih h
  | skip d next prev cur cs hn hp ih => rw [List.cons_append, skipsGo_skip hn hp] at h; exact absurd h nofun
  | code d next prev ps cur cs hn hp ih =>
    rw [List.cons_append, skipsGo_code hn hp] at h
    rw [skipsGo_code hn hp]
    exact ih h

theorem skipsRun_of_append {cs cs' : List Code} (h : skipsRun (cs ++ cs') = false) : skipsRun cs = false := by
  cases cs with
  | nil => rfl
  | cons c cs =>
    obtain ⟨hfirst, hrest⟩ := Bool.or_eq_false_iff.mp h
    exact Bool.or_eq_false_iff.mpr ⟨hfirst, skipsGo_of_append hrest⟩

/-! ### The table (R248, R249) -/

/-- The table has an entry exactly for the codes below `NEXT`, and its strings are bounded. -/
structure KeysBelow (d : List (Code × Str)) (next : NextCode) : Prop where
  /-- `NEXT` is in the range of R33. -/
  range : 256 ≤ next.toNat ∧ next.toNat ≤ 4096
  /-- The keys are the codes below `NEXT` (R249). -/
  keys : ∀ c : Code, (∃ str, find d c = some str) ↔ c.toNat < next.toNat
  /-- No string is empty, and none outgrows the codes assigned (R248). -/
  strings : ∀ c str, find d c = some str → 1 ≤ str.length ∧ str.length + 255 ≤ next.toNat

theorem keysBelow_singles : KeysBelow singlesC Config.firstFree where
  range := by decide
  keys c := by
    refine ⟨fun ⟨str, hstr⟩ => Nat.lt_of_not_le fun hle => ?_, fun hlt => ?_⟩
    · rw [find_singlesC_none hle] at hstr
      exact absurd hstr nofun
    · have hc : single (c.setWidth 8) = c := BitVec.eq_of_toNat_eq (by
        rw [single_toNat, BitVec.toNat_setWidth, Nat.mod_eq_of_lt (show c.toNat < 2 ^ 8 from hlt)])
      exact ⟨_, hc ▸ find_singlesC (c.setWidth 8)⟩
  strings c str hstr := by
    obtain ⟨b, -, hb⟩ := List.mem_map.mp (find_some_mem hstr)
    obtain ⟨-, rfl⟩ := Prod.mk.inj hb
    exact ⟨Nat.le_refl 1, Nat.le_refl 256⟩

theorem KeysBelow.next_lt (h : KeysBelow d next) (hn : next ≠ Config.codeLimit) : next.toNat < 4096 :=
  lt_of_le_of_ne h.range.2 fun he => hn (BitVec.eq_of_toNat_eq he)

theorem KeysBelow.next_succ (h : KeysBelow d next) (hn : next ≠ Config.codeLimit) : (next + 1).toNat = next.toNat + 1 := by
  have hlt := h.next_lt hn
  rw [BitVec.toNat_add, show (1 : NextCode).toNat = 1 from rfl]
  omega

theorem KeysBelow.nextCode_toNat (h : KeysBelow d next) (hn : next ≠ Config.codeLimit) :
    (nextCode next).toNat = next.toNat := by
  rw [nextCode, BitVec.toNat_setWidth, Nat.mod_eq_of_lt (h.next_lt hn)]

/-- The code that `NEXT` names has no entry yet (R249). -/
theorem KeysBelow.find_nextCode (h : KeysBelow d next) (hn : next ≠ Config.codeLimit) : find d (nextCode next) = none := by
  refine Option.eq_none_iff_forall_ne_some.mpr fun str hstr => ?_
  have hlt := (h.keys _).mp ⟨str, hstr⟩
  rw [h.nextCode_toNat hn] at hlt
  exact absurd hlt (Nat.lt_irrefl _)

/-- In a table with one more entry the old entries answer first (R139). -/
theorem find_concat {κ ν : Type} [DecidableEq κ] (l : List (κ × ν)) (k : κ) (v : ν) (key : κ) :
    find (l ++ [(k, v)]) key = (find l key).or (if k = key then some v else none) := by
  rw [find_append, find_singleton]

/-- A put at `NEXT` and the increment keep the keys below `NEXT` (R246, R249). -/
theorem KeysBelow.put (h : KeysBelow d next) (hn : next ≠ Config.codeLimit) {str : Str}
    (hlen : 1 ≤ str.length ∧ str.length + 255 ≤ next.toNat + 1) : KeysBelow (d ++ [(nextCode next, str)]) (next + 1) := by
  have hlt := h.next_lt hn
  have hsucc := h.next_succ hn
  have hkey : ∀ c, nextCode next = c ↔ c.toNat = next.toNat := fun c => by
    rw [← h.nextCode_toNat hn, BitVec.toNat_inj, eq_comm]
  refine ⟨by have := h.range; omega, fun c => ?_, fun c s hs => ?_⟩
  · have hput : (if nextCode next = c then some str else none).isSome = true ↔ c.toNat = next.toNat := by
      rw [← hkey]
      simp
    rw [find_concat, ← Option.isSome_iff_exists, Option.isSome_or, Bool.or_eq_true, hput, Option.isSome_iff_exists, h.keys,
      hsucc]
    omega
  · rw [find_concat] at hs
    obtain hs | ⟨-, hs⟩ := Option.or_eq_some_iff.mp hs
    · have := h.strings c s hs
      omega
    · obtain rfl := Option.some.inj (Option.ite_none_right_eq_some.mp hs).2
      omega

/-- The string put is one byte longer than the previous string (R248). -/
theorem KeysBelow.grown (h : KeysBelow d next) (hn : next ≠ Config.codeLimit) (hp : find d prev = some ps) (cur : Code) :
    KeysBelow (grown d next ps cur) (next + 1) := by
  have hps := h.strings prev ps hp
  refine h.put hn ?_
  rw [codeStrings_snd, List.length_append, List.length_take]
  omega

end Sys2Proof.Machine
end

section
/-! SUPPORT. The two functions side by side: the decompressor's table lags the compressor's by the one string that it completes
with the next code, so that each code gives its string back (O57, O59). -/

namespace Sys2Proof.Machine

variable {d : List (Str × Code)} {e : List (Code × Str)} {next n : NextCode} {p q last : Str} {prev c : Code}
  {b : Byte} {bs bytes : List Byte} {cs : List Code} {growth growth' : List Event}

/-! ### The running string that a run of the compressor ends with (R208, R252) -/

/-- The running string with which `codesGo` meets the end of its input. -/
def finalPrefix (d : List (Str × Code)) (next : NextCode) (p : Str) : List Byte → Str
  | [] => p
  | b :: bs =>
    let (d, next, _) := freshIfFull singlesS d next
    if (find d (p ++ [b])).isSome then finalPrefix d next (p ++ [b]) bs
    else finalPrefix (d ++ [(p ++ [b], nextCode next)]) (next + 1) [b] bs

/-- The running string with which `codesRun` meets the end of its input; the empty input has none. -/
def finalPrefixRun : List Byte → Str
  | [] => []
  | b :: bs => finalPrefix singlesS Config.firstFree [b] bs

theorem finalPrefix_full (d : List (Str × Code)) (p : Str) (bs : List Byte) :
    finalPrefix d Config.codeLimit p bs = finalPrefix singlesS Config.firstFree p bs := by
  have hfull : freshIfFull singlesS d Config.codeLimit = (singlesS, Config.firstFree, [.tableReset]) := if_pos rfl
  have hfresh : freshIfFull singlesS singlesS Config.firstFree = (singlesS, Config.firstFree, []) := if_neg (by decide)
  cases bs with
  | nil => rfl
  | cons b bs => simp only [finalPrefix, hfull, hfresh]

theorem finalPrefix_known (hn : next ≠ Config.codeLimit) (hb : (find d (p ++ [b])).isSome = true) :
    finalPrefix d next p (b :: bs) = finalPrefix d next (p ++ [b]) bs := by
  simp [finalPrefix, freshIfFull_free hn, hb]

theorem finalPrefix_new (hn : next ≠ Config.codeLimit) (hb : find d (p ++ [b]) = none) :
    finalPrefix d next p (b :: bs) = finalPrefix (d ++ [(p ++ [b], nextCode next)]) (next + 1) [b] bs := by
  simp [finalPrefix, freshIfFull_free hn, hb]

/-! ### A fresh table (R214) -/

/-- A fresh table has no string of two bytes. -/
theorem find_singlesS_pair (b b' : Byte) : find singlesS ([b] ++ [b']) = none :=
  find_singlesS_none (Nat.succ_ne_self 1)

/-- The first code after a table reset, and of a run, is a single (R214). -/
theorem codesGo_fresh (b b' : Byte) (bs : List Byte) :
    codesGo singlesS Config.firstFree [b] (b' :: bs) =
      (single b :: (codesGo (singlesS ++ [([b] ++ [b'], nextCode Config.firstFree)]) (Config.firstFree + 1) [b'] bs).1,
        .assign (nextCode Config.firstFree) ([b] ++ [b']) ::
          (codesGo (singlesS ++ [([b] ++ [b'], nextCode Config.firstFree)]) (Config.firstFree + 1) [b'] bs).2) := by
  rw [codesGo_new (by decide) (find_singlesS_pair b b'), find_singlesS]
  rfl

theorem finalPrefix_fresh (b b' : Byte) (bs : List Byte) :
    finalPrefix singlesS Config.firstFree [b] (b' :: bs) =
      finalPrefix (singlesS ++ [([b] ++ [b'], nextCode Config.firstFree)]) (Config.firstFree + 1) [b'] bs :=
  finalPrefix_new (by decide) (find_singlesS_pair b b')

/-! ### The decompressor's table against the compressor's (R250) -/

/-- Each string that the compressor's table has is what the decompressor's has for its code. -/
def Mirrors (d : List (Str × Code)) (e : List (Code × Str)) : Prop := ∀ str c, find d str = some c → find e c = some str

theorem mirrors_singles : Mirrors singlesS singlesC := by
  intro str c h
  obtain ⟨b, -, hb⟩ := List.mem_map.mp (find_some_mem h)
  obtain ⟨rfl, rfl⟩ := Prod.mk.inj hb
  exact find_singlesC b

/-- The same string put for the same code on both sides (R253). -/
theorem Mirrors.put (h : Mirrors d e) (hc : find e c = none) (str : Str) : Mirrors (d ++ [(str, c)]) (e ++ [(c, str)]) := by
  intro s k hs
  rw [find_concat] at hs ⊢
  obtain hs | ⟨-, hs⟩ := Option.or_eq_some_iff.mp hs
  · rw [h s k hs]
    rfl
  · obtain ⟨rfl, hk⟩ := Option.ite_none_right_eq_some.mp hs
    obtain rfl := Option.some.inj hk
    rw [hc, Option.none_or, if_pos rfl]

/-- The decompressor before it reads the code of the running string `p`: its table lacks only the last string that the
compressor put, the previous string `q` and the byte with which `p` began (R250). -/
structure Lags (d : List (Str × Code)) (p : Str) (e : List (Code × Str)) (n : NextCode) (prev : Code) (q : Str) : Prop where
  begun : p ≠ []
  free : n ≠ Config.codeLimit
  keys : KeysBelow e n
  singles : ∀ b, find e (single b) = some [b]
  prev : find e prev = some q
  mirrors : Mirrors d (e ++ [(nextCode n, q ++ p.take 1)])

/-- At the second byte of a run, and at the second one after a table reset (R250). -/
theorem lags_fresh (b b' : Byte) :
    Lags (singlesS ++ [([b] ++ [b'], nextCode Config.firstFree)]) [b'] singlesC Config.firstFree (single b) [b] where
  begun := List.cons_ne_nil _ _
  free := by decide
  keys := keysBelow_singles
  singles := find_singlesC
  prev := find_singlesC b
  mirrors := mirrors_singles.put (keysBelow_singles.find_nextCode (by decide)) _

/-- A string that grows keeps its first byte. -/
theorem Lags.take_grow (h : Lags d p e n prev q) (b : Byte) : (p ++ [b]).take 1 = p.take 1 :=
  List.take_append_of_le_length (List.length_pos_of_ne_nil h.begun)

/-- The decompressor waits while the string grows (R204). -/
theorem Lags.grow (h : Lags d p e n prev q) (b : Byte) : Lags d (p ++ [b]) e n prev q :=
  { h with begun := by simp, mirrors := (h.take_grow b).symm ▸ h.mirrors }

/-- After a table has grown by one entry the singles still answer first (R26, R139). -/
theorem Lags.singles_put (h : Lags d p e n prev q) (b : Byte) :
    find (e ++ [(nextCode n, q ++ p.take 1)]) (single b) = some [b] := by
  rw [find_concat, h.singles b]
  rfl

/-- The code of the running string is read: the decompressor catches up, and lags by the string put now (R206, R250). -/
theorem Lags.insert (h : Lags d p e n prev q) (hn : n + 1 ≠ Config.codeLimit) (hc : find d p = some c) (b : Byte) :
    Lags (d ++ [(p ++ [b], nextCode (n + 1))]) [b] (e ++ [(nextCode n, q ++ p.take 1)]) (n + 1) c p := by
  have hlen : 1 ≤ (q ++ p.take 1).length ∧ (q ++ p.take 1).length + 255 ≤ n.toNat + 1 := by
    have := h.keys.strings _ _ h.prev
    rw [List.length_append, List.length_take]
    omega
  have hkeys := h.keys.put h.free hlen
  exact ⟨List.cons_ne_nil _ _, hn, hkeys, h.singles_put, h.mirrors p c hc, h.mirrors.put (hkeys.find_nextCode hn) _⟩

/-- The code of the running string gives the string back, also where the decompressor has not put it yet: it is then the
previous string and that string's first byte (R243, R250). -/
theorem Lags.codeStrings (h : Lags d p e n prev q) (hc : find (e ++ [(nextCode n, q ++ p.take 1)]) c = some p) :
    codeStrings q (find e c) = (p, q ++ p.take 1) := by
  rw [find_concat] at hc
  cases he : find e c with
  | some s =>
    rw [he] at hc
    obtain rfl : s = p := Option.some.inj hc
    rfl
  | none =>
    rw [he, Option.none_or] at hc
    have hp : q ++ p.take 1 = p := Option.some.inj (Option.ite_none_right_eq_some.mp hc).2
    have hq : q.take 1 = p.take 1 := by
      have htake := congrArg (List.take 1) hp
      rwa [List.take_append_of_le_length (h.keys.strings _ _ h.prev).1] at htake
    rw [Machine.codeStrings, firstOf, hq, hp]

theorem Lags.grown_eq (h : Lags d p e n prev q) (hc : find (e ++ [(nextCode n, q ++ p.take 1)]) c = some p) :
    grown e n q c = e ++ [(nextCode n, q ++ p.take 1)] := by
  rw [grown, h.codeStrings hc]

/-! ### What `expand` makes of the codes (R252, R253) -/

/-- The compressor's growth events are the decompressor's, but for a table reset at their very end (R253). -/
def SameGrowth (growth growth' : List Event) : Prop := growth = growth' ∨ growth = growth' ++ [.tableReset]

theorem SameGrowth.cons (h : SameGrowth growth growth') (ev : Event) : SameGrowth (ev :: growth) (ev :: growth') :=
  h.imp (congrArg (ev :: ·)) (congrArg (ev :: ·))

/-- From this state of the decompressor the codes give `bytes` back, the last code its part `last`; the growth events are the
compressor's `growth`, and no code is skipped. -/
structure Recovers (e : List (Code × Str)) (n : NextCode) (prev : Code) (cs : List Code) (bytes : List Byte) (last : Str)
    (growth : List Event) : Prop where
  nonempty : cs ≠ [] ∧ last ≠ []
  whole : (expandGo e n prev cs).1 = bytes
  butLast : (expandGo e n prev cs.dropLast).1 ++ last = bytes
  sameGrowth : SameGrowth growth (expandGo e n prev cs).2
  noSkip : skipsGo e n prev cs = false

/-- The last code of a run (R208). -/
theorem Lags.recovers_last (h : Lags d p e n prev q) (hc : find (e ++ [(nextCode n, q ++ p.take 1)]) c = some p)
    (hgrowth : SameGrowth growth []) :
    Recovers e n prev [c] p p (.assign (nextCode n) (q ++ p.take 1) :: growth) := by
  have hcode := expandGo_code (cur := c) (cs := []) h.free h.prev
  rw [h.codeStrings hc] at hcode
  refine ⟨⟨List.cons_ne_nil _ _, h.begun⟩, ?_, rfl, ?_, skipsGo_code h.free h.prev⟩
  · rw [hcode]
    exact List.append_nil p
  · rw [hcode]
    exact hgrowth.cons _

/-- A code and the codes behind it (R243, R244). -/
theorem Lags.recovers_cons (h : Lags d p e n prev q) (hc : find (e ++ [(nextCode n, q ++ p.take 1)]) c = some p)
    (hrest : Recovers (e ++ [(nextCode n, q ++ p.take 1)]) (n + 1) c cs bytes last growth) :
    Recovers e n prev (c :: cs) (p ++ bytes) last (.assign (nextCode n) (q ++ p.take 1) :: growth) := by
  have hcode : ∀ cs, expandGo e n prev (c :: cs) = _ := fun _ => expandGo_code h.free h.prev
  rw [h.grown_eq hc, h.codeStrings hc] at hcode
  refine ⟨⟨List.cons_ne_nil _ _, hrest.nonempty.2⟩, ?_, ?_, ?_, ?_⟩
  · rw [hcode, hrest.whole]
  · rw [List.dropLast_cons_of_ne_nil hrest.nonempty.1, hcode, List.append_assoc, hrest.butLast]
  · rw [hcode]
    exact hrest.sameGrowth.cons _
  · rw [skipsGo_code h.free h.prev, h.grown_eq hc, hrest.noSkip]

/-- The codes behind a table reset (R241). -/
theorem Recovers.reset (h : Recovers singlesC Config.firstFree prev cs bytes last growth) (e : List (Code × Str)) :
    Recovers e Config.codeLimit prev cs bytes last (.tableReset :: growth) := by
  have hout : ∀ cs, (expandGo e Config.codeLimit prev cs).1 = (expandGo singlesC Config.firstFree prev cs).1 := fun cs => by
    cases cs with
    | nil => rfl
    | cons cur cs => rw [expandGo_full]
  refine ⟨h.nonempty, (hout cs).trans h.whole, ?_, ?_, (skipsGo_full e prev cs).trans h.noSkip⟩
  · rw [hout, h.butLast]
  · obtain ⟨cur, cs', rfl⟩ := List.exists_cons_of_ne_nil h.nonempty.1
    rw [expandGo_full]
    exact h.sameGrowth.cons _

/-- From a lagging decompressor the codes of the compressor give the running string and the bytes to come back; the
compressor's put of the string that is not yet known there comes first in both lists of growth events. -/
theorem codesGo_recovers (hready : PrefixReady d (n + 1) p) (h : Lags d p e n prev q) :
    Recovers e n prev (codesGo d (n + 1) p bs).1 (p ++ bs) (finalPrefix d (n + 1) p bs)
      (.assign (nextCode n) (q ++ p.take 1) :: (codesGo d (n + 1) p bs).2) := by
  induction bs generalizing d n p e prev q with
  | nil =>
    rw [List.append_nil]
    by_cases hn : n + 1 = Config.codeLimit
    · obtain ⟨b, rfl⟩ := hready.full hn
      rw [hn, codesGo_full, codesGo_nil (by decide), find_singlesS]
      exact h.recovers_last (h.singles_put b) (.inr rfl)
    · obtain ⟨c, hc⟩ := Option.isSome_iff_exists.mp hready.known
      rw [codesGo_nil hn, hc]
      exact h.recovers_last (h.mirrors p c hc) (.inl rfl)
  | cons b bs ih =>
    by_cases hn : n + 1 = Config.codeLimit
    · obtain ⟨x, rfl⟩ := hready.full hn
      have hrest := ih ((prefixReady_single x).restart (by decide) b) (lags_fresh x b)
      rw [hn, codesGo_full, codesGo_fresh, finalPrefix_full, finalPrefix_fresh]
      exact h.recovers_cons (h.singles_put x) (hn ▸ hrest.reset _)
    · cases hb : find d (p ++ [b]) with
      | none =>
        obtain ⟨c, hc⟩ := Option.isSome_iff_exists.mp hready.known
        rw [codesGo_new hn hb, finalPrefix_new hn hb, hc]
        exact h.recovers_cons (h.mirrors p c hc) (ih (hready.restart hn b) (h.insert hn hc b))
      | some c =>
        have hsome : (find d (p ++ [b])).isSome = true := by rw [hb]; rfl
        have hrest := ih (hready.extend hn hsome) (h.grow b)
        rwa [h.take_grow b, List.append_assoc, ← codesGo_known hn hsome, ← finalPrefix_known hn hsome] at hrest

/-! ### Whole inputs -/

/-- What `expand` makes of the codes of a whole input. -/
structure RecoversRun (input : List Byte) : Prop where
  whole : expand (codes input) = input
  butLast : expand (codes input).dropLast ++ finalPrefixRun input = input
  last : input ≠ [] → finalPrefixRun input ≠ []
  sameGrowth : SameGrowth (codesRun input).2 (expandRun (codes input)).2
  noSkip : skipsRun (codes input) = false

/-- A first code that is a single is written as its byte (R237). -/
theorem expandRun_single (b : Byte) (cs : List Code) :
    expandRun (single b :: cs) =
      (b :: (expandGo singlesC Config.firstFree (single b) cs).1, (expandGo singlesC Config.firstFree (single b) cs).2) := by
  simp [expandRun, find_singlesC]

theorem skipsRun_single (b : Byte) (cs : List Code) :
    skipsRun (single b :: cs) = skipsGo singlesC Config.firstFree (single b) cs := by
  simp [skipsRun, find_singlesC]

theorem codesRun_single (b : Byte) : codesRun [b] = ([single b], []) := by
  rw [codesRun, codesGo_nil (by decide), find_singlesS]
  rfl

/-- Every input comes back from its codes. -/
theorem recoversRun (input : List Byte) : RecoversRun input := by
  match input with
  | [] => exact ⟨rfl, rfl, fun h => h, .inl rfl, rfl⟩
  | [b] =>
    have hcodes : codes [b] = [single b] := congrArg Prod.fst (codesRun_single b)
    refine ⟨?_, ?_, fun _ => List.cons_ne_nil _ _, ?_, ?_⟩
    · rw [hcodes, expand, expandRun_single]; rfl
    · rw [hcodes]; rfl
    · rw [hcodes, codesRun_single, expandRun_single]; exact .inl rfl
    · rw [hcodes, skipsRun_single]; rfl
  | b :: b' :: bs =>
    have h := codesGo_recovers (bs := bs) ((prefixReady_single b).restart (by decide) b') (lags_fresh b b')
    have hrun := codesGo_fresh b b' bs
    have hcodes : codes (b :: b' :: bs) = _ := congrArg Prod.fst hrun
    have hlast : finalPrefixRun (b :: b' :: bs) = _ := finalPrefix_fresh b b' bs
    refine ⟨?_, ?_, fun _ => ?_, ?_, ?_⟩
    · rw [hcodes, expand, expandRun_single, h.whole]; rfl
    · rw [hcodes, hlast, List.dropLast_cons_of_ne_nil h.nonempty.1, expand, expandRun_single, List.cons_append, h.butLast]; rfl
    · rw [hlast]; exact h.nonempty.2
    · rw [hcodes, expandRun_single, codesRun, hrun]; exact h.sameGrowth
    · rw [hcodes, skipsRun_single, h.noSkip]

/-- Settles O57: the decompressor lags by one string only, and completes it with the code that needs it. -/
theorem expandOfCodesIsTheInput : Obligations.ExpandOfCodesIsTheInput := fun input => (recoversRun input).whole

/-- Settles O59: both sides put the same string for the same code; at the end of the input the compressor's check is not
followed by a code that would make the decompressor check. -/
theorem growthIsTheSameOnBothSides : Obligations.GrowthIsTheSameOnBothSides := fun input => (recoversRun input).sameGrowth

end Sys2Proof.Machine
end

section
/-! SUPPORT. The decompressor's table against the association list of `expand`, and what every rule keeps of its keys (O55). -/

namespace Sys2Proof.Machine

open Sys2Proof.Safety

variable {s t : State} {d : List (Code × Str)}

/-! ### The table against an association list (R149, R251) -/

/-- The table is of the decompressor's kind and answers every key as the list does. -/
def CodeTableAnswers (di : Option Dict) (d : List (Code × Str)) : Prop :=
  ∃ b, di = some (.c2s b) ∧ 0 < b.length ∧ ∀ key, getC b key = find d key

theorem codeTableAnswers_initC : CodeTableAnswers (some (.c2s initC)) singlesC := ⟨_, rfl, by simp, getC_initC⟩

theorem CodeTableAnswers.getCode (h : CodeTableAnswers s.di d) (key : Code) : s.getCode key = find d key := by
  obtain ⟨b, hb, -, hget⟩ := h
  simp only [State.getCode, hb, hget]

/-- A put is an entry at the end of the list (R141, R146). -/
theorem CodeTableAnswers.assignCode (h : CodeTableAnswers s.di d) (key : Code) (value : Str) :
    CodeTableAnswers (s.assignCode key value).di (d ++ [(key, value)]) := by
  obtain ⟨b, hb, hpos, hget⟩ := h
  rw [assignCode_di hb]
  exact ⟨_, rfl, by rwa [putC_length], fun k => by rw [getC_putC hpos, hget, find_concat]⟩

/-! ### The keys along a run (R248, R249) -/

/-- The table is that of some list whose keys are the codes below `NEXT`. -/
def HoldsKeysBelow (s : State) : Prop := ∃ d, CodeTableAnswers s.di d ∧ KeysBelow d s.next

/-- The keys where the table-reset check has been made (R241). -/
def HoldsKeysBelowFree (s : State) : Prop := s.next ≠ Config.codeLimit ∧ HoldsKeysBelow s

theorem HoldsKeysBelow.resetCheckC (h : HoldsKeysBelow s) : HoldsKeysBelowFree (resetCheckC s) := by
  by_cases hn : s.next = Config.codeLimit
  · rw [resetCheckC_full hn]
    exact ⟨(by decide : Config.firstFree ≠ Config.codeLimit), singlesC, codeTableAnswers_initC, keysBelow_singles⟩
  · rw [resetCheckC_free hn]
    exact ⟨hn, h⟩

/-- What each control state of the decompressor knows of its table; a run is in no other state. -/
def KnowsKeys (s : State) : Prop :=
  match s.fsm with
  | .unpacking => True
  | .dFirst | .dLoop | .done => HoldsKeysBelow s
  | .idle | .awaitingFirstByte | .accumulating | .emit | .drain | .failed => False

theorem decompressUnpack_keeps_keys (h : decompressUnpack s = .ok () t) : KnowsKeys t := by
  obtain ⟨v, -, rfl⟩ | ⟨n, v, -, rfl⟩ := decompressUnpack_ok h
  · trivial
  · exact ⟨singlesC, codeTableAnswers_initC, keysBelow_singles⟩

theorem decompressFirst_keeps_keys (hs : HoldsKeysBelow s) (h : decompressFirst s = .ok () t) : KnowsKeys t := by
  obtain ⟨-, rfl⟩ | ⟨c, v, hc, hcase⟩ := decompressFirst_ok h
  · exact hs
  · obtain ⟨-, -, rfl⟩ := csTake_some hc
    obtain ⟨str, u, w, -, hw, rfl⟩ | ⟨-, rfl⟩ := hcase
    · rw [emitStr_ok hw]
      exact hs
    · exact hs

/-- The put at `NEXT` and the increment go together where the writes are accepted (R246). -/
theorem decompressCode_keeps_keys {ps : Str} {cur : Code} (hs : HoldsKeysBelowFree s) (hps : s.getCode s.prev = some ps)
    (h : decompressCode ps cur s = .ok () t) : KnowsKeys t := by
  obtain ⟨hn, d, htable, hkeys⟩ := hs
  rw [htable.getCode] at hps
  rw [decompressCode_eq, htable.getCode] at h
  obtain ⟨u, v, hv, h⟩ := bind_eq_ok.mp h
  obtain ⟨-, rfl⟩ := Res.ok.inj h
  rw [emitStr_ok hv, assignCode_frame]
  exact ⟨_, htable.assignCode _ _, hkeys.grown hn hps cur⟩

theorem decompressLoop_keeps_keys (hs : HoldsKeysBelow s) (h : decompressLoop s = .ok () t) : KnowsKeys t := by
  obtain ⟨-, he⟩ | ⟨cur, v, hc, hcase⟩ := decompressLoop_eq s
  · obtain ⟨-, rfl⟩ := Res.ok.inj (he.symm.trans h)
    exact hs
  · have hfree : HoldsKeysBelowFree v := by
      obtain ⟨-, -, rfl⟩ := csTake_some hc
      exact hs.resetCheckC
    obtain ⟨-, he⟩ | ⟨ps, hps, he⟩ := hcase
    · obtain ⟨-, rfl⟩ := Res.ok.inj (he.symm.trans h)
      exact hfree.2
    · exact decompressCode_keeps_keys hfree hps (he.symm.trans h)

/-- Every rule of the decompressor keeps the keys of its table below `NEXT`, whatever the codes are (R249). -/
theorem engineStep_keeps_keys (hs : KnowsKeys s) (h : engineStep s = .ok () t) : KnowsKeys t := by
  have hknows := hs
  unfold KnowsKeys at hs
  unfold engineStep at h
  cases hf : s.fsm with
  | unpacking => rw [hf] at h; exact decompressUnpack_keeps_keys h
  | dFirst => rw [hf] at hs h; exact decompressFirst_keeps_keys hs h
  | dLoop => rw [hf] at hs h; exact decompressLoop_keeps_keys hs h
  | done =>
    rw [hf] at h
    obtain ⟨-, rfl⟩ := Res.ok.inj h
    exact hknows
  | idle | awaitingFirstByte | accumulating | emit | drain | failed => rw [hf] at hs; exact hs.elim

/-- A run that ends normally leaves its keys below `NEXT`. -/
theorem execLzwDecompress_holdsKeys (h : exec .lzwDecompress s = .next t) (hdone : t.fsm = .done) : HoldsKeysBelow t := by
  obtain ⟨hok, -⟩ := runEngine_induct (fun _ _ hu _ hv => engineStep_keeps_keys hu hv) (runBudget (startDecompress s))
    (startDecompress s) trivial
  obtain ⟨_, u, hu, rfl⟩ | ⟨x, u, -, rfl⟩ := answer_eq_next.mp h
  · have hknows := (hok u hu).1
    rw [KnowsKeys, show u.fsm = .done from hdone] at hknows
    exact hknows
  · rw [takeException_fsm] at hdone
    exact absurd hdone nofun

/-- Settles O55: the invariant of the run says it of the list that the table answers as; a string is bounded by `NEXT`. -/
theorem decompressorKeysAreBelowNext : Obligations.DecompressorKeysAreBelowNext := by
  intro s t h hdone
  obtain ⟨d, ⟨b, hb, -, hget⟩, hkeys⟩ := execLzwDecompress_holdsKeys h hdone
  refine ⟨b, hb, fun c => ?_, fun c str hstr => ?_⟩
  · rw [hget]
    exact hkeys.keys c
  · rw [hget] at hstr
    have hlen := hkeys.strings c str hstr
    have hrange := hkeys.range
    exact ⟨List.ne_nil_of_length_pos hlen.1, by omega⟩

end Sys2Proof.Machine
end

section
/-! SUPPORT. A decompressor run from the stream it reads to the bytes it writes: the reads up to the end of the stream, each rule
as an equation, a run that skips, and the run side by side with `expand` (O53, O54, O60). -/

namespace Sys2Proof.Machine

open Sys2Proof.Safety

variable {s t u v : State} {bs : List Byte} {rest : List ReadAnswer} {c cur prev : Code} {str ps : Str}
  {d : List (Code × Str)} {next : NextCode} {taken cs : List Code}

/-! ### Unpacking (R233) -/

/-- `s` after `UNPACKING` has read a stream of these bytes, which leaves `rest` on `IN`. -/
def unpacked (s : State) (bs : List Byte) (rest : List ReadAnswer) : State :=
  { s with
    inp := rest, cs := ⟨s.cs.items ++ unpack bs, 0⟩, di := some (.c2s initC), next := Config.firstFree, fsm := .dFirst,
    hist := s.hist ++ (bs.map fun b => .read (some b)) ++ [.read none] }

theorem engineStep_of_unpacking (hf : s.fsm = .unpacking) : engineStep s = decompressUnpack s := by
  simp [engineStep, hf]

/-- The last round: the stream ends within a group. -/
theorem runEngine_unpacking_of_ended (hf : s.fsm = .unpacking) (hlen : bs.length < 3) (h : streamOf s.inp = some (bs, rest))
    (k : Nat) : runEngine (k + bs.length / 3 + 1) s = runEngine k (unpacked s bs rest) := by
  rw [Nat.div_eq_of_lt hlen]
  refine runEngine_of_ok k (by rw [hf]; rfl) ?_
  rw [engineStep_of_unpacking hf, decompressUnpack, upGroupBody_of_ended hlen h, bind_ok, unpacked, unpack_of_short hlen,
    List.append_nil]
  rfl

/-- Unpacking takes one rule for each whole group and one for the end of the stream. -/
theorem runEngine_unpacking (hf : s.fsm = .unpacking) (h : streamOf s.inp = some (bs, rest)) (k : Nat) :
    runEngine (k + bs.length / 3 + 1) s = runEngine k (unpacked s bs rest) := by
  induction bs using unpack.induct generalizing s with
  | case1 b0 b1 b2 bs ih =>
    obtain ⟨inp, hinp, hstream⟩ : ∃ inp, s.inp = .byte b0 :: .byte b1 :: .byte b2 :: inp ∧
        streamOf inp = some (bs, rest) := by simpa [streamOf_eq_cons_iff] using h
    have hdiv : (b0 :: b1 :: b2 :: bs).length / 3 = bs.length / 3 + 1 := Nat.add_div_right bs.length (by decide : 0 < 3)
    have hstep : engineStep s = .ok () { s with
        inp := inp, cs := ⟨s.cs.items ++ [unpackA b0 b1, unpackB b1 b2], s.cs.cursor⟩, fsm := .unpacking,
        hist := s.hist ++ [.read (some b0), .read (some b1), .read (some b2)] } := by
      rw [engineStep_of_unpacking hf, decompressUnpack, upGroupBody_of_whole hinp]
      rfl
    rw [hdiv, ← Nat.add_assoc, runEngine_of_ok _ (by rw [hf]; rfl) hstep, ih rfl hstream]
    simp [unpacked, unpack]
  | case2 | case3 | case4 => exact runEngine_unpacking_of_ended hf (by simp) h k

/-- The budget of a run covers one rule for each group and each code of its stream, and four more (R318). -/
theorem runBudget_startDecompress (h : streamOf s.inp = some (bs, rest)) :
    ∃ k, runBudget (startDecompress s) = k + (unpack bs).length + 3 + bs.length / 3 + 1 := by
  have hle : bs.length ≤ s.inp.length := length_le_of_streamOf h
  have hbudget : runBudget (startDecompress s) = 2 * s.inp.length + 0 + 8 := rfl
  rw [unpack_length]
  exact ⟨2 * s.inp.length + 4 - 3 * (bs.length / 3), by omega⟩

/-! ### The rules, one equation for each case -/

/-- A fetch from a sequence of which `taken` has been fetched (R184). -/
theorem csTake_of_split (hcs : s.cs = ⟨taken ++ c :: cs, taken.length⟩) :
    csTake s = some (c, { s with cs := ⟨(taken ++ [c]) ++ cs, (taken ++ [c]).length⟩ }) := by
  rw [csTake_of_getElem? (v := c) (by simp [hcs]), hcs]
  simp

theorem decompressFirst_of_end (h : csTake s = none) : decompressFirst s = .ok () s.setDone := by
  simp [decompressFirst, h]

theorem decompressFirst_of_absent (hc : csTake s = some (c, v)) (hg : v.getCode c = none) :
    decompressFirst s = .ok () { v.setSkip with prev := c, fsm := .dLoop } := by
  have hget : { v with prev := c }.getCode c = none := hg
  simp [decompressFirst, hc, hget, State.setSkip]

theorem decompressFirst_of_found (hc : csTake s = some (c, v)) (hg : v.getCode c = some str) (ha : accepting v.sink) :
    decompressFirst s = .ok () { v.written str with prev := c, fsm := .dLoop } := by
  have hget : { v with prev := c }.getCode c = some str := hg
  have hemit := emitStr_of_accepting (s := { v with prev := c }) (accepting_take ha str.length)
  simp [decompressFirst, hc, hget, hemit, State.written]

theorem decompressLoop_of_end (h : csTake s = none) : decompressLoop s = .ok () s.setDone := by
  have hmore : ¬s.csMore = true := by
    rw [csMore_iff]
    exact Nat.not_lt.mpr (csTake_none.mp h)
  exact if_neg hmore

/-- The table-reset check made twice is made once (R241). -/
theorem decompressLoop_resetCheckC (h : s.csMore = true) : decompressLoop (resetCheckC s) = decompressLoop s := by
  by_cases hn : s.next = 4096
  · have hfree : resetCheckC (resetCheckC s) = resetCheckC s := by
      rw [resetCheckC_full hn]
      exact resetCheckC_free (by decide : (256 : NextCode) ≠ 4096)
    have hmore : (resetCheckC s).csMore = true := by rw [resetCheckC_full hn]; exact h
    rw [decompressLoop, decompressLoop, if_pos h, if_pos hmore, hfree]
    cases hc : csTake (resetCheckC s) with
    | none => exact absurd (csMore_iff.mp hmore) (Nat.not_lt.mpr (csTake_none.mp hc))
    | some p => rfl
  · rw [resetCheckC_free hn]

section
variable (hn : s.next ≠ Config.codeLimit) (hc : csTake s = some (cur, v))
include hn hc

theorem decompressLoop_of_absent (hp : v.getCode v.prev = none) :
    decompressLoop s = .ok () { v.setSkip with fsm := .dLoop } := by
  have hmore : s.csMore = true := csMore_iff.mpr (csTake_some hc).1
  simp [decompressLoop, hmore, resetCheckC_free hn, hc, hp]

theorem decompressLoop_of_found (hp : v.getCode v.prev = some ps) : decompressLoop s = decompressCode ps cur v := by
  have hmore : s.csMore = true := csMore_iff.mpr (csTake_some hc).1
  simp [decompressLoop, hmore, resetCheckC_free hn, hc, hp]

end

/-- One code where the sink accepts: the put, the string written, the increment (R245). -/
theorem decompressCode_of_accepting (ps : Str) (cur : Code) (ht : CodeTableAnswers s.di d) (ha : accepting s.sink) :
    ∃ di, CodeTableAnswers di (grown d s.next ps cur) ∧ decompressCode ps cur s = .ok () {
      State.written (codeStrings ps (find d cur)).1 { s with
        di := di, hist := s.hist ++ [.assign (nextCode s.next) (codeStrings ps (find d cur)).2] } with
      next := s.next + 1, prev := cur, fsm := .dLoop } := by
  refine ⟨_, ht.assignCode _ _, ?_⟩
  rw [decompressCode_eq, ht.getCode, assignCode_frame, emitStr_of_accepting, bind_ok]
  · rfl
  · exact accepting_take ha _

/-! ### Runs -/

theorem engineStep_of_dLoop (hf : s.fsm = .dLoop) : engineStep s = decompressLoop s := by simp [engineStep, hf]

theorem runEngine_dLoop (k : Nat) (hf : s.fsm = .dLoop) (h : decompressLoop s = .ok () u) :
    runEngine (k + 1) s = runEngine k u :=
  runEngine_of_ok k (by rw [hf]; rfl) (by rw [engineStep_of_dLoop hf, h])

theorem runEngine_dFirst (k : Nat) (hf : s.fsm = .dFirst) (h : decompressFirst s = .ok () u) :
    runEngine (k + 1) s = runEngine k u := by
  have hstep : engineStep s = decompressFirst s := by simp [engineStep, hf]
  exact runEngine_of_ok k (by rw [hf]; rfl) (hstep.trans h)

/-- The command is its run from the start, and the response (R230). -/
theorem exec_lzwDecompress_of_run (h : runEngine (runBudget (startDecompress s)) (startDecompress s) = .ok () u) :
    exec .lzwDecompress s = .next (respond .ok (if u.sticky.skip then 1 else 0) u) := by
  rw [exec, execLzwDecompress, runDecompressor, h, answer_ok]

/-- Where the previous code has no entry, the rest of the run takes the codes left and does nothing else (R242). -/
theorem runEngine_skipping (hf : s.fsm = .dLoop) (hn : s.next ≠ Config.codeLimit) (hp : s.getCode s.prev = none)
    (hskip : s.sticky.skip = true) (hcs : s.cs = ⟨taken ++ cs, taken.length⟩) (k : Nat) :
    runEngine (k + cs.length + 2) s = .ok () (State.setDone { s with cs := ⟨taken ++ cs, (taken ++ cs).length⟩ }) := by
  induction cs generalizing s taken with
  | nil =>
    have hend := decompressLoop_of_end (s := s) (csTake_none.mpr (by simp [hcs]))
    rw [List.length_nil, runEngine_dLoop _ hf hend, runEngine_rest k rfl, List.append_nil]
    rw [List.append_nil] at hcs
    rw [← hcs]
  | cons c cs ih =>
    have hstep := decompressLoop_of_absent hn (csTake_of_split hcs) hp
    rw [List.length_cons, show k + (cs.length + 1) + 2 = k + cs.length + 2 + 1 by omega, runEngine_dLoop _ hf hstep]
    have hrest := ih (s := { s.setSkip with cs := ⟨(taken ++ [c]) ++ cs, (taken ++ [c]).length⟩, fsm := .dLoop })
      rfl hn hp rfl rfl
    refine hrest.trans ?_
    simp [State.setDone, State.setSkip, hskip]

/-- A run whose first code is absent takes all codes and writes none (R238, R242). -/
theorem runEngine_dFirst_absent (hf : s.fsm = .dFirst) (hn : s.next ≠ Config.codeLimit) (hp : s.getCode c = none)
    (hcs : s.cs = ⟨c :: cs, 0⟩) (k : Nat) :
    runEngine (k + (c :: cs).length + 2) s = .ok () (State.setDone { s.setSkip with
      cs := ⟨c :: cs, (c :: cs).length⟩, prev := c, fsm := .dLoop }) := by
  have hfirst := decompressFirst_of_absent (csTake_of_split (taken := []) hcs) hp
  rw [List.length_cons, show k + (cs.length + 1) + 2 = k + cs.length + 2 + 1 by omega, runEngine_dFirst _ hf hfirst]
  exact runEngine_skipping (s := { s.setSkip with cs := ⟨[c] ++ cs, 1⟩, prev := c, fsm := .dLoop }) rfl hn hp rfl rfl k

/-! ### Any codes (R251) -/

/-- What the decompressor has done from `s` to `t`: the bytes written, the growth events made, and whether a code was skipped;
the sequence, the stream and the responses are kept. -/
structure Expands (s t : State) (bytes : List Byte) (growth : List Event) (skips : Bool) : Prop where
  out : t.out = s.out ++ bytes
  hist : ∃ es, t.hist = s.hist ++ es ∧ es.filter Event.isGrowth = growth
  sticky : t.sticky = { s.sticky with done := t.sticky.done, skip := s.sticky.skip || skips }
  items : t.cs.items = s.cs.items
  inp : t.inp = s.inp
  rsp : t.rsp = s.rsp

theorem Expands.trans {bytes bytes' : List Byte} {growth growth' : List Event} {skips skips' : Bool}
    (h : Expands s u bytes growth skips) (h' : Expands u t bytes' growth' skips') :
    Expands s t (bytes ++ bytes') (growth ++ growth') (skips || skips') := by
  obtain ⟨es, hes, hgrowth⟩ := h.hist
  obtain ⟨es', hes', hgrowth'⟩ := h'.hist
  exact {
    out := by rw [h'.out, h.out, List.append_assoc]
    hist := ⟨es ++ es', by rw [hes', hes, List.append_assoc], by rw [List.filter_append, hgrowth, hgrowth']⟩
    sticky := by rw [h'.sticky, h.sticky, Bool.or_assoc]
    items := h'.items.trans h.items, inp := h'.inp.trans h.inp, rsp := h'.rsp.trans h.rsp }

/-- The normal end of a decompressor run: all codes are taken (R240). -/
structure Exhausted (t : State) : Prop where
  fsm : t.fsm = .done
  done : t.sticky.done = true
  cursor : t.cs.cursor = t.cs.items.length

/-- The machine in `D_LOOP` where `expand` stands: the same table, next code and previous code, and the same codes left. -/
structure Follows (s : State) (d : List (Code × Str)) (next : NextCode) (prev : Code) (taken cs : List Code) : Prop where
  fsm : s.fsm = .dLoop
  table : CodeTableAnswers s.di d
  next : s.next = next
  prev : s.prev = prev
  seq : s.cs = ⟨taken ++ cs, taken.length⟩
  sink : accepting s.sink

theorem Follows.getCode_prev (hs : Follows s d next prev taken cs) : s.getCode s.prev = find d prev := by
  rw [hs.table.getCode, hs.prev]

/-- With no code left the run ends (R240). -/
theorem Follows.finish (hs : Follows s d next prev taken []) (k : Nat) :
    ∃ t, runEngine (k + 2) s = .ok () t ∧ Expands s t [] [] false ∧ Exhausted t := by
  have hend := decompressLoop_of_end (s := s) (csTake_none.mpr (by simp [hs.seq]))
  refine ⟨s.setDone, (runEngine_dLoop _ hs.fsm hend).trans (runEngine_rest k rfl), ?_, rfl, rfl, ?_⟩
  · exact ⟨(List.append_nil _).symm, ⟨[], (List.append_nil _).symm, rfl⟩, by simp, rfl, rfl, rfl⟩
  · simp [hs.seq]

/-- A full table may as well be reset before the rule as by it, where a code is left (R240, R241). -/
theorem Follows.reset (hs : Follows s d Config.codeLimit prev taken (cur :: cs)) :
    (∀ k, runEngine (k + 1) s = runEngine (k + 1) (resetCheckC s)) ∧
    Follows (resetCheckC s) singlesC Config.firstFree prev taken (cur :: cs) ∧
    Expands s (resetCheckC s) [] [.tableReset] false := by
  have hreset := resetCheckC_full hs.next
  have hfollows : Follows (resetCheckC s) singlesC Config.firstFree prev taken (cur :: cs) := by
    rw [hreset]
    exact { hs with table := codeTableAnswers_initC, next := rfl }
  have hmore : s.csMore = true := by simp [csMore_iff, hs.seq]
  refine ⟨fun k => ?_, hfollows, ?_⟩
  · rw [runEngine_step k (by rw [hs.fsm]; rfl), runEngine_step k (by rw [hfollows.fsm]; rfl), engineStep_of_dLoop hs.fsm,
      engineStep_of_dLoop hfollows.fsm, decompressLoop_resetCheckC hmore]
  · rw [hreset]
    exact ⟨(List.append_nil _).symm, ⟨[.tableReset], rfl, rfl⟩, by simp, rfl, rfl, rfl⟩

/-- A code behind an absent one is skipped (R242). -/
theorem Follows.skip (hs : Follows s d next prev taken (cur :: cs)) (hn : next ≠ Config.codeLimit)
    (hp : find d prev = none) :
    ∃ u, (∀ k, runEngine (k + 1) s = runEngine k u) ∧ Follows u d next prev (taken ++ [cur]) cs ∧
      Expands s u [] [] true := by
  have hstep := decompressLoop_of_absent (hs.next ▸ hn) (csTake_of_split hs.seq) (hs.getCode_prev.trans hp)
  refine ⟨_, fun k => runEngine_dLoop k hs.fsm hstep, { hs with fsm := rfl, seq := rfl }, ?_⟩
  exact ⟨(List.append_nil _).symm, ⟨[], (List.append_nil _).symm, rfl⟩, by simp, by simp [hs.seq], rfl, rfl⟩

/-- A code behind a present one: a string put, and one written (R243 to R246). -/
theorem Follows.code (hs : Follows s d next prev taken (cur :: cs)) (hn : next ≠ Config.codeLimit)
    (hp : find d prev = some ps) :
    ∃ u, (∀ k, runEngine (k + 1) s = runEngine k u) ∧ Follows u (grown d next ps cur) (next + 1) cur (taken ++ [cur]) cs ∧
      Expands s u (codeStrings ps (find d cur)).1 [.assign (nextCode next) (codeStrings ps (find d cur)).2] false := by
  have hloop := decompressLoop_of_found (hs.next ▸ hn) (csTake_of_split hs.seq) (hs.getCode_prev.trans hp)
  obtain ⟨di, htable, hcode⟩ := decompressCode_of_accepting
    (s := { s with cs := ⟨(taken ++ [cur]) ++ cs, (taken ++ [cur]).length⟩ }) ps cur hs.table hs.sink
  obtain rfl := hs.next
  refine ⟨_, fun k => runEngine_dLoop k hs.fsm (hloop.trans hcode),
    ⟨rfl, htable, rfl, rfl, rfl, accepting_drop hs.sink _⟩,
    ⟨rfl, ⟨.assign (nextCode s.next) (codeStrings ps (find d cur)).2 ::
      (codeStrings ps (find d cur)).1.map fun b => .write b true, ?_, ?_⟩, by simp [State.written], ?_, rfl, rfl⟩⟩
  · simp [State.written]
  · rw [List.filter_cons_of_pos rfl, filter_growth_writes]
  · simp [State.written, hs.seq]

/-- The run and `expand` side by side (R251, R253). -/
theorem runEngine_follows {k : Nat} (hs : Follows s d next prev taken cs) (hk : cs.length + 2 ≤ k) :
    ∃ t, runEngine k s = .ok () t ∧
      Expands s t (expandGo d next prev cs).1 (expandGo d next prev cs).2 (skipsGo d next prev cs) ∧ Exhausted t := by
  induction d, next, prev, cs using expandGo_induct generalizing s taken k with
  | done d next prev =>
    obtain ⟨k, rfl⟩ := Nat.exists_eq_add_of_le' hk
    exact hs.finish k
  | full d prev cur cs ih =>
    obtain ⟨k, rfl⟩ : ∃ m, k = m + 1 := ⟨k - 1, by omega⟩
    obtain ⟨hrun, hfollows, hreset⟩ := hs.reset
    obtain ⟨t, ht, hdec, hend⟩ := ih hfollows hk
    rw [expandGo_full, skipsGo_full]
    exact ⟨t, (hrun k).trans ht, hreset.trans hdec, hend⟩
  | skip d next prev cur cs hn hp ih =>
    rw [List.length_cons] at hk
    obtain ⟨k, rfl⟩ : ∃ m, k = m + 1 := ⟨k - 1, by omega⟩
    obtain ⟨u, hrun, hfollows, hskip⟩ := hs.skip hn hp
    obtain ⟨t, ht, hdec, hend⟩ := ih (k := k) hfollows (by omega)
    rw [expandGo_skip hn hp, skipsGo_skip hn hp]
    exact ⟨t, (hrun k).trans ht, hskip.trans hdec, hend⟩
  | code d next prev ps cur cs hn hp ih =>
    rw [List.length_cons] at hk
    obtain ⟨k, rfl⟩ : ∃ m, k = m + 1 := ⟨k - 1, by omega⟩
    obtain ⟨u, hrun, hfollows, hcode⟩ := hs.code hn hp
    obtain ⟨t, ht, hdec, hend⟩ := ih (k := k) hfollows (by omega)
    rw [expandGo_code hn hp, skipsGo_code hn hp]
    exact ⟨t, (hrun k).trans ht, hcode.trans hdec, hend⟩

/-- From `D_FIRST` a run writes what `expand` gives (R237, R251). -/
theorem runEngine_dFirst_expands (hf : s.fsm = .dFirst) (hdi : s.di = some (.c2s initC))
    (hnext : s.next = Config.firstFree) (hcs : s.cs = ⟨cs, 0⟩) (ha : accepting s.sink) (k : Nat) :
    ∃ t, runEngine (k + cs.length + 3) s = .ok () t ∧
      Expands s t (expandRun cs).1 (expandRun cs).2 (skipsRun cs) ∧ Exhausted t := by
  have htable : CodeTableAnswers s.di singlesC := hdi ▸ codeTableAnswers_initC
  cases cs with
  | nil =>
    have hend := decompressFirst_of_end (s := s) (csTake_none.mpr (by simp [hcs]))
    refine ⟨s.setDone, (runEngine_dFirst _ hf hend).trans (runEngine_rest _ rfl), ?_, rfl, rfl, by simp [hcs]⟩
    exact ⟨(List.append_nil _).symm, ⟨[], (List.append_nil _).symm, rfl⟩, by simp [skipsRun], rfl, rfl, rfl⟩
  | cons c cs =>
    have hc := csTake_of_split (taken := []) hcs
    obtain ⟨u, hfirst, hfollows, hdec⟩ : ∃ u, decompressFirst s = .ok () u ∧
        Follows u singlesC Config.firstFree c [c] cs ∧
        Expands s u ((find singlesC c).getD []) [] (find singlesC c).isNone := by
      cases hg : find singlesC c with
      | none =>
        refine ⟨_, decompressFirst_of_absent hc ((htable.getCode c).trans hg), ⟨rfl, htable, hnext, rfl, rfl, ha⟩, ?_⟩
        exact ⟨(List.append_nil _).symm, ⟨[], (List.append_nil _).symm, rfl⟩, by simp, by simp [hcs], rfl, rfl⟩
      | some str =>
        refine ⟨_, decompressFirst_of_found hc ((htable.getCode c).trans hg) ha,
          ⟨rfl, htable, hnext, rfl, rfl, accepting_drop ha _⟩, ?_⟩
        exact ⟨rfl, ⟨_, rfl, filter_growth_writes str⟩, by simp [State.written], by simp [State.written, hcs], rfl, rfl⟩
    obtain ⟨t, ht, hrest, hend⟩ := runEngine_follows (k := k + (c :: cs).length + 2) hfollows
      (by rw [List.length_cons]; omega)
    exact ⟨t, (runEngine_dFirst _ hf hfirst).trans ht, hdec.trans hrest, hend⟩

/-- A run on any stream writes what `expand` makes of its codes, and ends normally (R231, R251). -/
theorem exec_lzwDecompress_of_stream (h : streamOf s.inp = some (bs, rest)) (ha : accepting s.sink) :
    ∃ t, exec .lzwDecompress s = .next (respond .ok (if t.sticky.skip then 1 else 0) t) ∧
      Expands (unpacked (startDecompress s) bs rest) t (expand (unpack bs)) (expandRun (unpack bs)).2
        (skipsRun (unpack bs)) ∧ Exhausted t := by
  obtain ⟨k, hk⟩ := runBudget_startDecompress h
  obtain ⟨t, ht, hdec, hend⟩ := runEngine_dFirst_expands (s := unpacked (startDecompress s) bs rest) rfl rfl rfl rfl ha k
  exact ⟨t, exec_lzwDecompress_of_run (hk ▸ (runEngine_unpacking (s := startDecompress s) rfl h _).trans ht), hdec, hend⟩

theorem filter_growth_reads (bytes : List Byte) :
    ((bytes.map fun b => Event.read (some b)) ++ [Event.read none]).filter Event.isGrowth = [] := by
  simp [Event.isGrowth]

/-- Settles O53: the run from its start, and what every `LZW.DECOMPRESS` leaves alone. -/
theorem decompressWritesTheExpandedCodes : Obligations.DecompressWritesTheExpandedCodes := by
  refine ⟨zeroForm_of_row (o := .lzwDecompress) rfl rfl rfl, fun s input rest h ha => ?_⟩
  obtain ⟨t, hexec, hdec, hend⟩ := exec_lzwDecompress_of_stream h ha
  obtain ⟨es, hes, hgrowth⟩ := hdec.hist
  have hframe := (exec_owned .lzwDecompress s).of_next hexec
  obtain ⟨hpfx, hcur⟩ := hframe.regs.resolve_right (by decide)
  have hcs : t.cs = ⟨unpack input, (unpack input).length⟩ := by
    have hitems : t.cs.items = unpack input := hdec.items
    rw [← hitems, ← hend.cursor]
  refine ⟨_, (input.map fun b => .read (some b)) ++ [.read none] ++ es, hexec, hdec.out, hend.fsm,
    congrArg (· ++ _) hdec.rsp, hend.done, ?_, ?_, hdec.inp, hcs, hframe.pk.resolve_right (by decide), hpfx, hcur, ?_, ?_⟩
  · rw [respond_sticky, hdec.sticky]; rfl
  · rw [respond_sticky, hdec.sticky]; rfl
  · rw [respond_hist, hes]
    simp [unpacked, startDecompress]
  · rw [List.filter_append, filter_growth_reads, hgrowth, List.nil_append]

/-- Settles O60: the codes that come off the wire are the compressor's, less the last one of an odd number, and of the
compressor's codes none is skipped. -/
theorem compressorStreamsAreNeverSkipped : Obligations.CompressorStreamsAreNeverSkipped := by
  intro s input rest h ha
  obtain ⟨t, hexec, hdec, -⟩ := exec_lzwDecompress_of_stream h ha
  have hskips : skipsRun (unpack (pack (codes input))) = false := by
    rw [unpack_pack]
    refine skipsRun_of_append (cs' := (codes input).drop ((codes input).length - (codes input).length % 2)) ?_
    rw [List.take_append_drop]
    exact (recoversRun input).noSkip
  have hskip : t.sticky.skip = false := by rw [hdec.sticky, hskips]; rfl
  refine ⟨_, hexec, hskip, ?_⟩
  rw [respond_rsp, hskip, hdec.rsp]
  rfl

/-- Settles O54: behind an absent first code the run skips to its end, since a skip changes neither `PREV` nor the table; in
`D_LOOP` it is the rule's own case. -/
theorem absentCodesAreSkipped : Obligations.AbsentCodesAreSkipped := by
  refine ⟨fun s input rest c cs h hcodes hc => ?_, fun s hf hlt hn hp => ?_⟩
  · obtain ⟨k, hk⟩ := runBudget_startDecompress h
    have hskips := runEngine_dFirst_absent (s := unpacked (startDecompress s) input rest) rfl
      (by decide : Config.firstFree ≠ Config.codeLimit) ((getC_initC c).trans (find_singlesC_none hc))
      (congrArg (CodeSeq.mk · 0) hcodes) (k + 1)
    rw [hcodes, show k + (c :: cs).length + 3 = k + 1 + (c :: cs).length + 2 by omega] at hk
    have hrun := (runEngine_unpacking (s := startDecompress s) rfl h _).trans hskips
    rw [← hk] at hrun
    exact ⟨_, exec_lzwDecompress_of_run hrun, rfl, rfl, rfl, rfl, rfl, rfl⟩
  · have hc := csTake_of_getElem? (List.getElem?_eq_getElem hlt)
    rw [engineStep_of_dLoop hf, decompressLoop_of_absent hn hc hp]
    simp [State.setSkip, hf]

end Sys2Proof.Machine
end

section
/-! SUPPORT. The running string that a compressor run leaves in `PREFIX`, and the round trip through the wire (O58). -/

namespace Sys2Proof.Machine

open Sys2Proof.Safety

variable {s : State} {d : List (Str × Code)} {next : NextCode} {p : Str} {bs : List Byte} {rest : List ReadAnswer}
  {held : Option Code}

/-- A run leaves in `PREFIX` the running string with which `codes` meets the end of the input (R208, R212). -/
theorem runEngine_pfx {k : Nat} (h : PrefixReady d next p) (hs : Simulates s d next p bs rest held)
    (hk : 2 * bs.length + 3 ≤ k) : ∃ t, runEngine k s = .ok () t ∧ t.pfx = finalPrefix d next p bs := by
  induction d, next, p, bs, h using codesGo_induct generalizing s held k with
  | full d p bs h ih =>
    obtain ⟨k, rfl⟩ : ∃ m, k = m + 1 := ⟨k - 1, by omega⟩
    obtain ⟨hrun, hsim, -⟩ := hs.reset
    rw [hrun k, finalPrefix_full]
    exact ih hsim hk
  | done d next p hn h =>
    obtain ⟨k, rfl⟩ := Nat.exists_eq_add_of_le' hk
    obtain ⟨c, hc⟩ := Option.isSome_iff_exists.mp h.known
    have hread := compressAccumulate_of_end (hs.next ▸ hn) hs.stream
    have hdrain := runEngine_drain (s := { s with inp := rest, hist := s.hist ++ [.read none], fsm := .drain }) k rfl
      (hs.getStr_pfx hc) hs.pk hs.sink
    exact ⟨_, (runEngine_accumulating (k + 2) hs.fsm hread).trans hdrain, hs.pfx⟩
  | known d next p b bs hn h hb ih =>
    rw [List.length_cons] at hk
    obtain ⟨k, rfl⟩ : ∃ m, k = m + 1 := ⟨k - 1, by omega⟩
    obtain ⟨u, hrun, hsim, -⟩ := hs.grow hn hb
    rw [hrun k, finalPrefix_known hn hb]
    exact ih hsim (by omega)
  | new d next p b bs hn h hb ih =>
    rw [List.length_cons] at hk
    obtain ⟨k, rfl⟩ : ∃ m, k = m + 2 := ⟨k - 2, by omega⟩
    obtain ⟨c, hc⟩ := Option.isSome_iff_exists.mp h.known
    obtain ⟨u, hrun, hsim, -⟩ := hs.insert hn hb hc
    rw [hrun k, finalPrefix_new hn hb]
    exact ih hsim (by omega)

theorem exec_lzwCompress_pfx (h : streamOf s.inp = some (bs, rest)) (ha : accepting s.sink) :
    ∃ t, exec .lzwCompress s = .next t ∧ t.pfx = finalPrefixRun bs := by
  cases bs with
  | nil => exact ⟨_, exec_lzwCompress_of_empty h, rfl⟩
  | cons b bs =>
    obtain ⟨k, hk⟩ := runBudget_startCompress h
    obtain ⟨inp, hinp, hstream⟩ := streamOf_eq_cons_iff.mp h
    obtain ⟨t, ht, hpfx⟩ := runEngine_pfx (k := k + 2 * (b :: bs).length + 3) (prefixReady_single b)
      (afterFirst_simulates (s := s) hstream ha) (by rw [List.length_cons]; omega)
    exact ⟨_, exec_lzwCompress_of_run (hk ▸ (runEngine_startCompress _ hinp).trans ht), hpfx⟩

/-- Settles O58: the wire drops the last one of an odd number of codes, and the last code's string is what `PREFIX` holds at
the end of the run. -/
theorem roundTripThroughTheWire : Obligations.RoundTripThroughTheWire := by
  intro s input rest h ha
  obtain ⟨t, hexec, hpfx⟩ := exec_lzwCompress_pfx h ha
  obtain ⟨heven, hodd, -, -⟩ := packAndUnpackAreInverse
  have hback := recoversRun input
  refine ⟨t, hexec, fun hlen => ?_, fun hlen => ⟨?_, ?_⟩⟩
  · rw [heven _ hlen, hback.whole]
  · rw [hodd _ hlen, hpfx, hback.butLast]
  · rw [hpfx]
    refine hback.last ?_
    rintro rfl
    exact absurd hlen (by decide)

end Sys2Proof.Machine
end

section
/-! SUPPORT. The system operations (O19, O20, O21). -/

namespace Sys2Proof.Machine

open Sys2Proof.Safety

/-- The rest states have the numbers 0, 5 and 9 (R41). -/
theorem number_of_isRest {f : Fsm} (h : f.isRest = true) : f.number = 0 ∨ f.number = 5 ∨ f.number = 9 := by
  cases f with
  | idle => exact .inl rfl
  | done => exact .inr (.inl rfl)
  | failed => exact .inr (.inr rfl)
  | awaitingFirstByte | accumulating | emit | drain | unpacking | dFirst | dLoop => exact absurd h (by decide)

/-- Settles O19: the answer is the register as it stands, and its `FSMV` field is the number of a rest state. -/
theorem statusReadsTheRegister : Obligations.StatusReadsTheRegister := by
  refine ⟨zeroForm_of_row (o := .sysStatus) rfl rfl rfl, fun _ => rfl, fun s hrest => ?_⟩
  rw [status_fsmv]
  exact number_of_isRest hrest

/-- Settles O20: the answer is `NEXT` as it stands. -/
theorem rdnextReadsNext : Obligations.RdnextReadsNext :=
  ⟨zeroForm_of_row (o := .sysRdnext) rfl rfl rfl, fun _ => rfl⟩

/-- Settles O21: hardware reset writes every field but those the state after it takes from `s`. -/
theorem sysResetRestoresReset : Obligations.SysResetRestoresReset :=
  ⟨zeroForm_of_row (o := .sysReset) rfl rfl rfl, fun _ => rfl⟩

end Sys2Proof.Machine
end

section
/-! SUPPORT. The range of `NEXT` at rest (O13). The compressor makes its check after the last increment. The decompressor does
not, and there a parity argument stands in for it (R241, R262): the sequence has an even number of codes, `NEXT` grows by one
for each code but the first, and a run that has skipped one code skips all that follow. -/

namespace Sys2Proof.Machine

open Sys2Proof.Safety

variable {α β : Type} {s t : State} {P Q R : State → Prop}

/-! ### A normal end and a raise told apart -/

/-- Every state in which the pseudocode ends normally has `P`, and every state it leaves by a raise has `R`. -/
def Res.EndsOrRaises (P R : State → Prop) : Res α → Prop
  | .ok _ t => P t
  | .raise _ t => R t
  | .stuck _ => True

/-- Sequencing: a raise of the first part ends the whole. -/
theorem Res.Ends.bindOrRaises {r : Res α} {f : α → State → Res β} (h : r.Ends P) (hraise : ∀ u, P u → R u)
    (hf : ∀ a u, P u → (f a u).EndsOrRaises Q R) : (r.bind f).EndsOrRaises Q R := by
  cases r with
  | ok a u => exact hf a u h
  | raise c u => exact hraise u h
  | stuck e => trivial

/-- A run whose rules end normally with `P` and raise with `R` is answered from a state at rest with `P`, or takes its
exception from a state with `R`. -/
theorem runEngine_ensures_orRaises {k : Unit → State → State} (n : Nat)
    (hstep : ∀ s, P s → (engineStep s).EndsOrRaises P R) (h : P s)
    (hok : ∀ u, P u → u.fsm.isRest = true → Q (k () u)) (hraise : ∀ c u, R u → Q (takeException c u)) :
    Ensures Q ((runEngine n s).answer k) := by
  have hrun := runEngine_induct (P := P) (fun s u hs _ he => by simpa [he, Res.EndsOrRaises] using hstep s hs) n s h
  cases hr : runEngine n s with
  | ok a u =>
    obtain ⟨hu, hrest⟩ := hrun.1 u hr
    exact hok u hu hrest
  | raise c u =>
    obtain ⟨v, hv, -, he⟩ := hrun.2 c u hr
    exact hraise c u (by simpa [he, Res.EndsOrRaises] using hstep v hv)
  | stuck e => trivial

/-! ### The range of `NEXT` (R33) -/

/-- `NEXT` lies in 256..4096, as anywhere in a run (R33). -/
def NextInRange (s : State) : Prop := 256 ≤ s.next.toNat ∧ s.next.toNat ≤ 4096

/-- `NEXT` lies in 256..4095: a code is free (R33, R262). -/
def NextFree (s : State) : Prop := 256 ≤ s.next.toNat ∧ s.next.toNat ≤ 4095

theorem NextFree.readStable : ReadStable NextFree := fun _ _ _ => id
theorem NextFree.writeStable : WriteStable NextFree := fun _ _ _ _ => id
theorem NextFree.packerStable : PackerStable NextFree := fun _ _ _ => id

theorem nextFree_of_firstFree (h : s.next = Config.firstFree) : NextFree s := by
  rw [NextFree, h]
  decide

theorem NextFree.inRange (h : NextFree s) : NextInRange s := ⟨h.1, h.2.trans (by decide)⟩

theorem NextInRange.free (h : NextInRange s) (hn : s.next ≠ 4096) : NextFree s := by
  have hne : s.next.toNat ≠ 4096 := fun he => hn (BitVec.eq_of_toNat_eq he)
  obtain ⟨hlow, hhigh⟩ := h
  exact ⟨hlow, by omega⟩

/-- The increment of a free code does not wrap (R33). -/
theorem NextFree.next_succ (h : NextFree s) : (s.next + 1).toNat = s.next.toNat + 1 := by
  obtain ⟨-, hhigh⟩ := h
  have hone : (1 : NextCode).toNat = 1 := rfl
  rw [BitVec.toNat_add, hone]
  omega

theorem NextFree.succ_inRange (h : NextFree s) (ht : t.next = s.next + 1) : NextInRange t := by
  have hsucc := h.next_succ
  obtain ⟨hlow, hhigh⟩ := h
  rw [NextInRange, ht, hsucc]
  omega

theorem NextInRange.resetCheckS (h : NextInRange s) : NextFree (resetCheckS s) := by
  by_cases hn : s.next = 4096
  · exact nextFree_of_firstFree (by rw [resetCheckS_full hn]; rfl)
  · rw [resetCheckS_free hn]; exact h.free hn

theorem NextFree.takeException (h : NextFree s) (c : Cause) : NextFree (takeException c s) := by
  rw [takeException_frame]; exact h

/-! ### The codes taken and the codes assigned -/

/-- The decompressor's sequence is made of whole groups, and the cursor is a position of it or its end (R29, R170). -/
structure WholeGroups (s : State) : Prop where
  even : s.cs.items.length % 2 = 0
  cursor : s.cs.cursor ≤ s.cs.items.length

/-- `NEXT` has the parity of the cursor: no code is taken, or the code taken last has not been assigned its entry. -/
structure SameParity (s : State) : Prop extends WholeGroups s where
  free : NextFree s
  parity : s.next.toNat % 2 = s.cs.cursor % 2

/-- `NEXT` has not the parity of the cursor: each code taken but the first has been assigned its entry. A table reset moves
`NEXT` from one even number to another. -/
structure OtherParity (s : State) : Prop extends WholeGroups s where
  range : NextInRange s
  parity : s.next.toNat % 2 ≠ s.cs.cursor % 2

/-- The previous code has no entry: a code that follows is skipped, and `NEXT` stays (R242). -/
structure Skipping (s : State) : Prop extends WholeGroups s where
  free : NextFree s
  absent : s.getCode s.prev = none

/-- What each control state knows of `NEXT`. -/
def KnowsNext (s : State) : Prop :=
  match s.fsm with
  | .accumulating => NextInRange s
  | .unpacking => NextFree s ∧ s.cs.items.length % 2 = 0
  | .dFirst => s.next = Config.firstFree ∧ SameParity s
  | .dLoop => OtherParity s ∨ Skipping s
  | .idle | .awaitingFirstByte | .emit | .drain | .done | .failed => NextFree s

theorem KnowsNext.free_of_rest (h : KnowsNext s) (hrest : s.fsm.isRest = true) : NextFree s := by
  unfold KnowsNext at h
  cases hf : s.fsm with
  | idle | done | failed => rw [hf] at h; exact h
  | awaitingFirstByte | accumulating | emit | drain | unpacking | dFirst | dLoop => simp [hf, Fsm.isRest] at hrest

theorem SameParity.writeStable : WriteStable SameParity := fun _ _ _ _ h => { h with }
theorem OtherParity.writeStable : WriteStable OtherParity := fun _ _ _ _ h => { h with }

/-- At the end of the sequence the cursor is even, so that `NEXT` is odd and not 4096 (R262). -/
theorem OtherParity.free_of_end (h : OtherParity s) (hend : s.cs.items.length ≤ s.cs.cursor) : NextFree s := by
  have heven := h.even
  have hcursor := h.cursor
  have hodd := h.parity
  refine h.range.free fun hn => ?_
  have : s.next.toNat = 4096 := by rw [hn]; rfl
  omega

theorem OtherParity.resetCheckC (h : OtherParity s) : OtherParity (resetCheckC s) ∧ NextFree (resetCheckC s) := by
  by_cases hn : s.next = 4096
  · have heven : s.next.toNat % 2 = (256 : NextCode).toNat % 2 := by rw [hn]; rfl
    rw [resetCheckC_full hn]
    have hfree : NextFree { s with di := some (.c2s initC), next := 256, hist := s.hist ++ [.tableReset] } :=
      nextFree_of_firstFree rfl
    exact ⟨{ h with range := hfree.inRange, parity := heven ▸ h.parity }, hfree⟩
  · rw [resetCheckC_free hn]
    exact ⟨h, h.range.free hn⟩

theorem Skipping.resetCheckC (h : Skipping s) : Skipping (resetCheckC s) := by
  rw [resetCheckC_free]
  · exact h
  · intro hn
    have hhigh := h.free.2
    rw [hn] at hhigh
    exact absurd hhigh (by decide)

/-- A fetch moves the cursor by one and so changes its parity (R184). -/
theorem OtherParity.fetch {c : Code} (h : OtherParity s) (hfree : NextFree s) (hc : csTake s = some (c, t)) :
    SameParity t := by
  obtain ⟨hlt, -, rfl⟩ := csTake_some hc
  have hparity := h.parity
  exact ⟨⟨h.even, hlt⟩, hfree, by dsimp only; omega⟩

theorem SameParity.fetch {c : Code} (h : SameParity s) (hc : csTake s = some (c, t)) : OtherParity t := by
  obtain ⟨hlt, -, rfl⟩ := csTake_some hc
  have hparity := h.parity
  exact ⟨⟨h.even, hlt⟩, h.free.inRange, by dsimp only; omega⟩

theorem Skipping.fetch {c : Code} (h : Skipping s) (hc : csTake s = some (c, t)) : Skipping t := by
  obtain ⟨hlt, -, rfl⟩ := csTake_some hc
  exact ⟨⟨h.even, hlt⟩, h.free, h.absent⟩

/-- The increment of `NEXT` changes its parity (R246). -/
theorem SameParity.succ (h : SameParity s) (hcs : t.cs = s.cs) (ht : t.next = s.next + 1) : OtherParity t := by
  have hparity := h.parity
  refine ⟨⟨by rw [hcs]; exact h.even, by rw [hcs]; exact h.cursor⟩, h.free.succ_inRange ht, ?_⟩
  rw [ht, h.free.next_succ, hcs]
  omega

/-! ### The rules of the compressor -/

theorem compressFirst_keeps_next (h : NextFree s) : (compressFirst s).EndsOrRaises KnowsNext NextFree := by
  refine (readByte_ends NextFree.readStable _ h).bindOrRaises (fun _ => id) fun r u hu => ?_
  cases r with
  | none => exact hu
  | some b => exact hu.inRange

theorem compressAccumulate_keeps_next (h : NextInRange s) : (compressAccumulate s).EndsOrRaises KnowsNext NextFree := by
  refine (readByte_ends NextFree.readStable _ h.resetCheckS).bindOrRaises (fun _ => id) fun r u hu => ?_
  cases r with
  | none => exact hu
  | some b =>
    dsimp only
    split
    · exact hu.inRange
    · exact hu

theorem emitPfx_keeps_free (h : NextFree s) : (emitPfx s).Ends NextFree :=
  emitPfx_ends NextFree.writeStable NextFree.packerStable h

theorem compressEmit_keeps_next (h : NextFree s) : (compressEmit s).EndsOrRaises KnowsNext NextFree :=
  (emitPfx_keeps_free h).bindOrRaises (fun _ => id) fun _ u hu =>
    hu.succ_inRange (congrArg (· + 1) (assignStr_next u _ _))

theorem compressDrain_keeps_next (h : NextFree s) : (compressDrain s).EndsOrRaises KnowsNext NextFree :=
  (emitPfx_keeps_free h).bindOrRaises (fun _ => id) fun _ _ hu =>
    (pkFlushBody_ends NextFree.writeStable NextFree.packerStable hu).bindOrRaises (fun _ => id) fun _ _ hv => hv

/-! ### The rules of the decompressor -/

theorem decompressUnpack_keeps_next (h : NextFree s) (heven : s.cs.items.length % 2 = 0) :
    (decompressUnpack s).EndsOrRaises KnowsNext NextFree := by
  cases hstep : decompressUnpack s with
  | ok a t =>
    obtain ⟨v, hv, rfl⟩ | ⟨n, v, hv, rfl⟩ := decompressUnpack_ok hstep
    · obtain ⟨b0, b1, b2, -, -, hgroup⟩ | ⟨l, -, hr, -⟩ := upGroupBody_ok hv
      · rw [hgroup]
        exact ⟨h, by simp [heven]⟩
      · exact absurd hr nofun
    · obtain ⟨b0, b1, b2, -, hr, -⟩ | ⟨l, -, -, -, hgroup⟩ := upGroupBody_ok hv
      · exact absurd hr nofun
      · rw [hgroup]
        exact ⟨rfl, ⟨heven, Nat.zero_le _⟩, nextFree_of_firstFree rfl, (by decide : Config.firstFree.toNat % 2 = 0 % 2)⟩
  | raise c t => exact absurd hstep decompressUnpack_ne_raise
  | stuck e => trivial

theorem decompressFirst_keeps_next (hn : s.next = Config.firstFree) (h : SameParity s) :
    (decompressFirst s).EndsOrRaises KnowsNext NextFree := by
  unfold decompressFirst
  cases hc : csTake s with
  | none => exact h.free
  | some p =>
    obtain ⟨c, v⟩ := p
    have htaken : OtherParity { v with prev := c } := { h.fetch hc with }
    have hfree : NextFree { v with prev := c } := by
      obtain ⟨-, -, rfl⟩ := csTake_some hc
      exact nextFree_of_firstFree hn
    dsimp only
    split
    · exact ((emitStr_ends OtherParity.writeStable _ htaken).and (emitStr_ends NextFree.writeStable _ hfree)).bindOrRaises
        (fun _ hu => hu.2) fun _ _ hu => .inl { hu.1 with }
    · exact .inl { htaken with }

theorem decompressCode_keeps_next (ps : Str) (cur : Code) (h : SameParity s) :
    (decompressCode ps cur s).EndsOrRaises KnowsNext NextFree := by
  rw [decompressCode_eq, assignCode_frame]
  have hput : SameParity { s with
      di := (s.assignCode (nextCode s.next) (codeStrings ps (s.getCode cur)).2).di
      hist := s.hist ++ [.assign (nextCode s.next) (codeStrings ps (s.getCode cur)).2] } := { h with }
  exact (emitStr_ends SameParity.writeStable _ hput).bindOrRaises (fun _ hu => hu.free) fun _ _ hu =>
    .inl (hu.succ rfl rfl)

theorem decompressLoop_keeps_next (h : OtherParity s ∨ Skipping s) :
    (decompressLoop s).EndsOrRaises KnowsNext NextFree := by
  obtain ⟨hend, he⟩ | ⟨cur, v, hc, hcase⟩ := decompressLoop_eq s
  · rw [he]
    exact h.elim (fun hgrow => hgrow.free_of_end hend) fun hskip => hskip.free
  · have htaken : SameParity v ∨ Skipping v :=
      h.imp (fun hgrow => hgrow.resetCheckC.1.fetch hgrow.resetCheckC.2 hc) fun hskip => hskip.resetCheckC.fetch hc
    obtain ⟨hnone, he⟩ | ⟨ps, hps, he⟩ := hcase
    · rw [he]
      exact .inr (htaken.elim (fun hgrow => { hgrow with absent := hnone }) fun hskip => { hskip with })
    · rw [he]
      refine decompressCode_keeps_next ps cur (htaken.resolve_right fun hskip => ?_)
      exact absurd (hps.symm.trans hskip.absent) nofun

/-- Every rule keeps what its control state knows of `NEXT`, and raises only where a code is free. -/
theorem engineStep_keeps_next (s : State) (h : KnowsNext s) : (engineStep s).EndsOrRaises KnowsNext NextFree := by
  have hknows := h
  unfold KnowsNext at h
  unfold engineStep
  cases hf : s.fsm with
  | awaitingFirstByte => rw [hf] at h; exact compressFirst_keeps_next h
  | accumulating => rw [hf] at h; exact compressAccumulate_keeps_next h
  | emit => rw [hf] at h; exact compressEmit_keeps_next h
  | drain => rw [hf] at h; exact compressDrain_keeps_next h
  | unpacking => rw [hf] at h; exact decompressUnpack_keeps_next h.1 h.2
  | dFirst => rw [hf] at h; exact decompressFirst_keeps_next h.1 h.2
  | dLoop => rw [hf] at h; exact decompressLoop_keeps_next h
  | idle | done | failed => exact hknows

/-! ### Commands and steps -/

/-- A run that starts with a code free ends with one free, whether it ends normally or fails (R262). -/
theorem lzwCompress_ensures_nextFree (s : State) : Ensures NextFree (exec .lzwCompress s) :=
  runEngine_ensures_orRaises _ engineStep_keeps_next (s := startCompress s) (nextFree_of_firstFree rfl)
    (fun _ hu hrest => hu.free_of_rest hrest) fun c _ hu => hu.takeException c

/-- `UNPACKING` keeps the `NEXT` the run started with, so one must be free there (R233, R303). -/
theorem lzwDecompress_ensures_nextFree (h : NextFree s) : Ensures NextFree (exec .lzwDecompress s) :=
  runEngine_ensures_orRaises _ engineStep_keeps_next (s := startDecompress s) ⟨h, rfl⟩
    (fun _ hu hrest => hu.free_of_rest hrest) fun c _ hu => hu.takeException c

/-- A command that is no run and no reset does not write `NEXT` (R47). -/
theorem exec_keeps_nextFree (i : Instr) (h : NextFree s) (ht : exec i s = .next t) : NextFree t := by
  obtain hnext | hrun := ((exec_owned i s).of_next ht).next
  · rw [NextFree, hnext]; exact h
  · cases i with
    | sysReset =>
      obtain rfl := Host.Outcome.next.inj ht
      exact nextFree_of_firstFree rfl
    | lzwCompress => exact (lzwCompress_ensures_nextFree s).of_next ht
    | lzwDecompress => exact (lzwDecompress_ensures_nextFree h).of_next ht
    | _ => simp [runOps, Instr.opcode] at hrun

/-- Settles O13: a step at rest waits, refuses its packet, or executes a command, and each leaves a code free. -/
theorem nextAtRestStaysBelow4096 : Obligations.NextAtRestStaysBelow4096 := by
  refine ⟨nextFree_of_firstFree rfl, fun s t hrest hfree ht => ?_⟩
  obtain ⟨-, he⟩ | ⟨p, rest, -, ⟨e, -, he⟩ | ⟨i, -, he⟩⟩ := step_rest_cases hrest
  · obtain rfl := Host.Outcome.next.inj (he.symm.trans ht)
    exact hfree
  · obtain rfl := Host.Outcome.next.inj (he.symm.trans ht)
    exact hfree
  · exact exec_keeps_nextFree (s := { s with cmd := rest }) i hfree (he.symm.trans ht)

end Sys2Proof.Machine
end

section
/-! SUPPORT. The exception entry, and the refused write as the last call of its command (O44, O45). -/

namespace Sys2Proof.Machine

open Sys2Proof.Safety

variable {α β : Type} {s t u : State}

/-- Settles O44: the entry is these assignments and no other. -/
theorem exceptionEntry : Obligations.ExceptionEntry := fun _ => ⟨rfl, rfl⟩

/-! ### Pseudocode up to its first refused write (R12, R281) -/

/-- An event that is no refused `write_byte` call. -/
def NoRefusal (e : Event) : Prop := ∀ b : Byte, e ≠ .write b false

/-- From `s` to `t` one write was refused, and it was the last call. -/
def RefusedLast (s t : State) : Prop := ∃ (m : State) (b : Byte), Flow NoRefusal s m ∧ t.hist = m.hist ++ [.write b false]

/-- What the history of `t` shows of the cause: a refused last call for `OutputIoError`, no refused call for the other one. -/
def CauseShown (s t : State) : Cause → Prop
  | .outputIoError => RefusedLast s t
  | .internalLookupMiss => Flow NoRefusal s t

/-- No write has been refused where the pseudocode, begun in `s`, ends normally; a raise shows its cause. -/
def Res.StopsAtRefusal (s : State) : Res α → Prop
  | .ok _ t => Flow NoRefusal s t
  | .raise c t => CauseShown s t c
  | .stuck _ => True

theorem Flow.mono {K K' : Event → Prop} (h : Flow K s t) (hK : ∀ e, K e → K' e) : Flow K' s t :=
  let ⟨es, hhist, hout, hkind⟩ := h.hist
  { h with hist := ⟨es, hhist, hout, fun e he => hK e (hkind e he)⟩ }

/-- Where no write was made, none was refused. -/
theorem Flow.noRefusal (h : Flow NoWrite s t) : Flow NoRefusal s t :=
  h.mono fun e he b hb => by simp [NoWrite, hb, isWrite] at he

theorem CauseShown.after {c : Cause} (hflow : Flow NoRefusal s u) (h : CauseShown u t c) : CauseShown s t c := by
  cases c with
  | outputIoError =>
    obtain ⟨m, b, hm, ht⟩ := h
    exact ⟨m, b, hflow.trans hm, ht⟩
  | internalLookupMiss => exact hflow.trans h

/-- What was done from `s` to `u` without a refusal may stand before the pseudocode. -/
theorem Res.StopsAtRefusal.after {r : Res α} (hflow : Flow NoRefusal s u) (h : r.StopsAtRefusal u) : r.StopsAtRefusal s := by
  cases r with
  | ok a t => exact hflow.trans h
  | raise c t => exact CauseShown.after hflow h
  | stuck e => trivial

/-- Sequencing: a raise of the first part abandons the second. -/
theorem Res.StopsAtRefusal.bind {r : Res α} {f : α → State → Res β} (h : r.StopsAtRefusal s)
    (hf : ∀ a u, (f a u).StopsAtRefusal u) : (r.bind f).StopsAtRefusal s := by
  cases r with
  | ok a u => exact (hf a u).after h
  | raise c t => exact h
  | stuck e => trivial

/-- Pseudocode that makes no write and never raises. -/
theorem Res.StopsAtRefusal.of_noWrite {r : Res α} (h : r.Ends (Flow NoWrite s)) (hr : ∀ c t, r ≠ .raise c t) :
    r.StopsAtRefusal s := by
  cases r with
  | ok a t => exact Flow.noRefusal h
  | raise c t => exact absurd rfl (hr c t)
  | stuck e => trivial

/-! ### Writes and the packer -/

theorem emitByte_stopsAtRefusal (b : Byte) (s : State) : (emitByte b s).StopsAtRefusal s := by
  cases hb : emitByte b s with
  | ok a t =>
    obtain ⟨-, rfl⟩ := emitByte_ok hb
    exact Flow.event (e := .write b true) nofun List.suffix_rfl (List.tail_suffix _) rfl rfl
  | raise c t =>
    obtain ⟨rfl, -, rfl⟩ := emitByte_raise hb
    exact ⟨s, b, Flow.refl s, rfl⟩
  | stuck e => trivial

theorem emitStr_stopsAtRefusal (str : Str) (s : State) : (emitStr str s).StopsAtRefusal s := by
  induction str generalizing s with
  | nil => exact Flow.refl s
  | cons b str ih => exact (emitByte_stopsAtRefusal b s).bind fun _ u => ih u

theorem pkPushBody_stopsAtRefusal (c : Code) (s : State) : (pkPushBody c s).StopsAtRefusal s := by
  cases hp : s.pk.phase with
  | first => rw [pkPushBody_first c hp]; exact { Flow.refl s with }
  | second =>
    rw [pkPushBody_second c hp]
    have hpair : Flow NoRefusal s (s.completePair c) := { Flow.refl s with }
    exact .after hpair ((emitStr_stopsAtRefusal _ _).bind fun _ u => { Flow.refl u with })

theorem pkFlushBody_stopsAtRefusal (s : State) : (pkFlushBody s).StopsAtRefusal s := by
  cases hp : s.pk.phase with
  | first => rw [pkFlushBody_first hp]; exact Flow.refl s
  | second => rw [pkFlushBody_second hp]; exact (emitStr_stopsAtRefusal _ s).bind fun _ u => { Flow.refl u with }

/-! ### The rules of the engines (R211, R256) -/

/-- An insertion is no call (R206, R240). -/
theorem flow_assign {key : Code} {str : Str} (hinp : t.inp = s.inp) (hsink : t.sink = s.sink) (hout : t.out = s.out)
    (hhist : t.hist = s.hist ++ [.assign key str]) : Flow NoRefusal s t :=
  Flow.event (e := .assign key str) nofun (by simp [hinp]) (by simp [hsink]) hhist (by simp [hout, acceptedByte])

theorem emitPfx_stopsAtRefusal (s : State) : (emitPfx s).StopsAtRefusal s := by
  unfold emitPfx
  cases s.getStr s.pfx with
  | none => exact Flow.refl s
  | some c => exact pkPushBody_stopsAtRefusal c s

theorem compressEmit_stopsAtRefusal (s : State) : (compressEmit s).StopsAtRefusal s :=
  (emitPfx_stopsAtRefusal s).bind fun _ u =>
    flow_assign (assignStr_inp u _ _) (assignStr_sink u _ _) (assignStr_out u _ _) (assignStr_hist u _ _)

theorem compressDrain_stopsAtRefusal (s : State) : (compressDrain s).StopsAtRefusal s :=
  (emitPfx_stopsAtRefusal s).bind fun _ u => (pkFlushBody_stopsAtRefusal u).bind fun _ v => { Flow.refl v with }

theorem flow_of_csTake {c : Code} (h : csTake s = some (c, t)) : Flow NoRefusal s t := by
  obtain ⟨-, -, rfl⟩ := csTake_some h
  exact { Flow.refl s with }

/-- The table-reset check of the decompressor makes no call (R241). -/
theorem resetCheckC_flow (s : State) : Flow NoRefusal s (resetCheckC s) := by
  by_cases hn : s.next = 4096
  · rw [resetCheckC_full hn]
    exact Flow.event (e := .tableReset) nofun List.suffix_rfl List.suffix_rfl rfl (by simp [acceptedByte])
  · rw [resetCheckC_free hn]; exact Flow.refl s

theorem decompressFirst_stopsAtRefusal (s : State) : (decompressFirst s).StopsAtRefusal s := by
  unfold decompressFirst
  cases hc : csTake s with
  | none => exact { Flow.refl s with }
  | some p =>
    obtain ⟨c, v⟩ := p
    have htaken : Flow NoRefusal s { v with prev := c } := { flow_of_csTake hc with }
    dsimp only
    split
    · exact .after htaken ((emitStr_stopsAtRefusal _ _).bind fun _ w => { Flow.refl w with })
    · exact { htaken with }

theorem decompressCode_stopsAtRefusal (ps : Str) (cur : Code) (s : State) : (decompressCode ps cur s).StopsAtRefusal s := by
  rw [decompressCode_eq]
  exact .after (flow_assign (assignCode_inp s _ _) (assignCode_sink s _ _) (assignCode_out s _ _) (assignCode_hist s _ _))
    ((emitStr_stopsAtRefusal _ _).bind fun _ v => { Flow.refl v with })

theorem decompressLoop_stopsAtRefusal (s : State) : (decompressLoop s).StopsAtRefusal s := by
  obtain ⟨-, he⟩ | ⟨cur, v, hc, hcase⟩ := decompressLoop_eq s
  · rw [he]; exact { Flow.refl s with }
  · have htaken : Flow NoRefusal s v := (resetCheckC_flow s).trans (flow_of_csTake hc)
    obtain ⟨-, he⟩ | ⟨ps, -, he⟩ := hcase
    · rw [he]; exact { htaken with }
    · rw [he]; exact (decompressCode_stopsAtRefusal ps cur v).after htaken

/-- A rule of a run makes no call after a refused write. -/
theorem engineStep_stopsAtRefusal (s : State) : (engineStep s).StopsAtRefusal s := by
  unfold engineStep
  cases hf : s.fsm with
  | awaitingFirstByte => exact .of_noWrite (compressFirst_flow s) fun _ _ => compressFirst_ne_raise
  | accumulating => exact .of_noWrite (compressAccumulate_flow s) fun _ _ => compressAccumulate_ne_raise
  | emit => exact compressEmit_stopsAtRefusal s
  | drain => exact compressDrain_stopsAtRefusal s
  | unpacking =>
    have hreads : (decompressUnpack s).Ends (Flow NoWrite s) :=
      (upGroupBody_flow s).flow_bind fun r u => by cases r <;> exact { Flow.refl u with }
    exact .of_noWrite hreads fun _ _ => decompressUnpack_ne_raise
  | dFirst => exact decompressFirst_stopsAtRefusal s
  | dLoop => exact decompressLoop_stopsAtRefusal s
  | idle | done | failed => exact Flow.refl s

/-- A run makes no call after a refused write (R211, R256). -/
theorem runEngine_stopsAtRefusal (n : Nat) (s : State) : (runEngine n s).StopsAtRefusal s := by
  induction n generalizing s with
  | zero => trivial
  | succ n ih =>
    cases hrest : s.fsm.isRest with
    | true => rw [runEngine_rest n hrest]; exact Flow.refl s
    | false => rw [runEngine_step n hrest]; exact (engineStep_stopsAtRefusal s).bind fun _ u => ih u

/-- A run sends no response before it has ended. -/
theorem runEngine_unanswered (n : Nat) (h : Unanswered s u) : (runEngine n u).Ends (Unanswered s) := by
  induction n generalizing u with
  | zero => trivial
  | succ n ih =>
    cases hrest : u.fsm.isRest with
    | true => rw [runEngine_rest n hrest]; exact h
    | false => rw [runEngine_step n hrest]; exact (engineStep_unanswered u h).bind (fun _ => id) fun _ _ => ih

/-! ### Answers (R280) -/

/-- From `s` to `t` a command was answered with no write refused, and its answer is not `E_IO`. -/
def AnsweredWithoutRefusal (s t : State) : Prop :=
  Flow NoRefusal s t ∧ ∃ r : Response, t.rsp = s.rsp ++ [r] ∧ r ≠ .r .eIo 0

/-- From `s` to `t` a command was ended by a refused write and the exception entry. -/
structure EndedByRefusal (s t : State) : Prop where
  last : RefusedLast s t
  rsp : t.rsp = s.rsp ++ [.r .eIo 0]
  fsm : t.fsm = .failed
  fail : t.sticky.fail = true
  err : t.sticky.err = 5

/-- How a command can end, as far as the sink's refusals go. -/
def RefusalAnswered (s t : State) : Prop := EndedByRefusal s t ∨ AnsweredWithoutRefusal s t

theorem CauseShown.answered {c : Cause} (h : CauseShown s u c) (hrsp : Unanswered s u) :
    RefusalAnswered s (takeException c u) := by
  cases c with
  | outputIoError => exact .inl ⟨h, congrArg (· ++ _) hrsp, rfl, rfl, rfl⟩
  | internalLookupMiss => exact .inr ⟨Flow.takeException h _, _, congrArg (· ++ _) hrsp, nofun⟩

/-- A command whose body stops at a refused write and sends nothing, with a normal response other than `E_IO`. -/
theorem Res.StopsAtRefusal.answer {r : Res α} {k : α → State → State} (h : r.StopsAtRefusal s) (hrsp : r.Ends (Unanswered s))
    (hk : ∀ a u, Flow NoRefusal s u → Unanswered s u → AnsweredWithoutRefusal s (k a u)) :
    Ensures (RefusalAnswered s) (r.answer k) := by
  cases r with
  | ok a u => exact .inr (hk a u h hrsp)
  | raise c u => exact CauseShown.answered h hrsp
  | stuck e => trivial

/-- A normal response after pseudocode in which no write was refused. -/
theorem answeredWithoutRefusal_respond (h : Flow NoRefusal s u) (hrsp : Unanswered s u) {rc : RetCode} (hrc : rc ≠ .eIo)
    (val : Half) : AnsweredWithoutRefusal s (respond rc val u) :=
  ⟨{ h with }, _, congrArg (· ++ _) hrsp, fun he => hrc (Response.r.inj he).1⟩

/-- A run from `u`, whatever its normal end responds. -/
theorem run_refusalAnswered (n : Nat) {val : State → Half} (h : Flow NoRefusal s u) (hrsp : Unanswered s u) :
    Ensures (RefusalAnswered s) ((runEngine n u).answer fun _ v => respond .ok (val v) v) :=
  ((runEngine_stopsAtRefusal n u).after h).answer (runEngine_unanswered n hrsp) fun _ _ hv hr =>
    answeredWithoutRefusal_respond hv hr (by decide) _

/-- Every command is ended by a refused write, or answered with none refused. -/
theorem exec_refusalAnswered (i : Instr) (s : State) : Ensures (RefusalAnswered s) (exec i s) := by
  have hrefl : Flow NoRefusal s s := Flow.refl s
  cases i with
  | sysReset | sysStatus | sysRdnext | htInits | htInitc | csClear | csAppend | csReset | csHasnext =>
    exact .inr ⟨{ hrefl with }, _, rfl, nofun⟩
  | htNews n =>
    show Ensures _ (execHtNews n s)
    unfold execHtNews
    split <;> exact .inr ⟨{ hrefl with }, _, rfl, nofun⟩
  | htNewc n =>
    show Ensures _ (execHtNewc n s)
    unfold execHtNewc
    split <;> exact .inr ⟨{ hrefl with }, _, rfl, nofun⟩
  | htPuts key value =>
    exact withS2C_ensures (fun _ _ => .inr ⟨{ hrefl with }, _, rfl, nofun⟩) (.inr ⟨{ hrefl with }, _, rfl, nofun⟩)
  | htPutc key value =>
    exact withC2S_ensures (fun _ _ => .inr ⟨{ hrefl with }, _, rfl, nofun⟩) (.inr ⟨{ hrefl with }, _, rfl, nofun⟩)
  | htGets key =>
    refine withS2C_ensures (fun b _ => ?_) (.inr ⟨{ hrefl with }, _, rfl, nofun⟩)
    cases getS s.hash b key <;> exact .inr ⟨{ hrefl with }, _, rfl, nofun⟩
  | htGetc key =>
    refine withC2S_ensures (fun b _ => ?_) (.inr ⟨{ hrefl with }, _, rfl, nofun⟩)
    cases getC b key <;> exact .inr ⟨{ hrefl with }, _, rfl, nofun⟩
  | htHass key =>
    exact withS2C_ensures (fun _ _ => .inr ⟨{ hrefl with }, _, rfl, nofun⟩) (.inr ⟨{ hrefl with }, _, rfl, nofun⟩)
  | htHasc key =>
    exact withC2S_ensures (fun _ _ => .inr ⟨{ hrefl with }, _, rfl, nofun⟩) (.inr ⟨{ hrefl with }, _, rfl, nofun⟩)
  | htSize =>
    show Ensures _ (execHtSize s)
    unfold execHtSize
    split <;> exact .inr ⟨{ hrefl with }, _, rfl, nofun⟩
  | pkPush code =>
    exact (pkPushBody_stopsAtRefusal code s).answer
      (pkPushBody_ends Unanswered.writeStable Unanswered.packerStable code rfl)
      fun _ _ hu hr => answeredWithoutRefusal_respond hu hr (by decide) _
  | pkFlush =>
    exact (pkFlushBody_stopsAtRefusal s).answer (pkFlushBody_ends Unanswered.writeStable Unanswered.packerStable rfl)
      fun _ _ hu hr => answeredWithoutRefusal_respond hu hr (by decide) _
  | upGroup =>
    refine (Res.StopsAtRefusal.of_noWrite (upGroupBody_flow s) fun _ _ => upGroupBody_ne_raise).answer
      (upGroupBody_ends Unanswered.readStable Unanswered.appendStable rfl) fun r u hu hr => ?_
    cases r <;> exact answeredWithoutRefusal_respond hu hr (by decide) _
  | upAll =>
    exact (Res.StopsAtRefusal.of_noWrite (upAllLoop_flow _ s) fun _ _ => upAllLoop_ne_raise).answer
      (upAllLoop_ends Unanswered.readStable Unanswered.appendStable _ rfl)
      fun _ _ hu hr => answeredWithoutRefusal_respond hu hr (by decide) _
  | csNext =>
    show Ensures _ (execCsNext s)
    unfold execCsNext
    split
    · exact .inr ⟨{ hrefl with }, _, rfl, nofun⟩
    · rename_i hc
      obtain ⟨-, -, rfl⟩ := csTake_some hc
      exact .inr ⟨{ hrefl with }, _, rfl, nofun⟩
  | lzwCompress => exact run_refusalAnswered _ (u := startCompress s) { hrefl with } rfl
  | lzwDecompress => exact run_refusalAnswered _ (u := startDecompress s) { hrefl with } rfl

/-! ### The statement -/

/-- A command answered without a refusal is not answered `E_IO`. -/
theorem AnsweredWithoutRefusal.rsp_ne (h : AnsweredWithoutRefusal s t) : t.rsp ≠ s.rsp ++ [.r .eIo 0] := by
  obtain ⟨-, r, hrsp, hr⟩ := h
  simpa [hrsp] using hr

/-- The only refused write of a command ended by one is its last event. -/
theorem RefusedLast.events (h : RefusedLast s t) :
    ∃ (es : List Event) (b : Byte), t.hist = s.hist ++ es ++ [.write b false] ∧ ∀ e ∈ es, NoRefusal e := by
  obtain ⟨m, b, hm, ht⟩ := h
  obtain ⟨es, hhist, -, hes⟩ := hm.hist
  exact ⟨es, b, by rw [ht, hhist], hes⟩

/-- The events that a history without a refusal adds hold no refused write. -/
theorem Flow.not_mem_of_noRefusal (h : Flow NoRefusal s t) {es : List Event} {b : Byte} (hes : t.hist = s.hist ++ es) :
    .write b false ∉ es := by
  obtain ⟨es', hhist, -, hkind⟩ := h.hist
  obtain rfl := List.append_cancel_left (hhist.symm.trans hes)
  exact fun hmem => hkind _ hmem b rfl

/-- Settles O45: the two ways a command can end; `FAILED` by the write-ownership of `FSM`, which a command that is no run and
no reset writes only where it is answered `E_IO`. -/
theorem refusedWriteEndsTheCommand : Obligations.RefusedWriteEndsTheCommand := by
  intro i s t ht
  have h : RefusalAnswered s t := (exec_refusalAnswered i s).of_next ht
  have hended : t.rsp = s.rsp ++ [.r .eIo 0] → EndedByRefusal s t := fun hio => h.resolve_right fun hno => hno.rsp_ne hio
  refine ⟨fun hio => ?_, fun es b hes hmem => ?_, fun hfailed hreset hcompress hdecompress => ?_⟩
  · exact ⟨(hended hio).fsm, (hended hio).fail, (hended hio).err, (hended hio).last.events⟩
  · obtain hend | ⟨hflow, -⟩ := h
    · exact hend.rsp
    · exact absurd hmem (hflow.not_mem_of_noRefusal hes)
  · obtain ⟨hfsm, -⟩ | hrun | ⟨-, hio⟩ := ((exec_owned i s).of_next ht).control
    · exact hfsm.trans hfailed
    · cases i with
      | sysReset => exact absurd rfl hreset
      | lzwCompress => exact absurd rfl hcompress
      | lzwDecompress => exact absurd rfl hdecompress
      | _ => simp [runOps, Instr.opcode] at hrun
    · exact (hended hio).fsm

end Sys2Proof.Machine
end

section
/-! SUPPORT. Where the model stops (O14, O15). A fault is a call that its stream never answers; a rule of a run takes the run
nearer to its end, so that no budget is used up; and a rule that reads is reached only while the stream has not ended. -/

namespace Sys2Proof.Machine

open Sys2Proof.Safety

variable {α : Type} {s t u : State} {e : Fault} {W : Fault → Prop}

/-! ### Calls that are never answered (R62, R63, R318) -/

/-- The core waits for a call that its stream never answers, with at most two bytes of a group held (R32). -/
def SilentCall : Fault → Prop
  | .readBlocked held u => u.inp.head? = some .silent ∧ held.length ≤ 2
  | .writeBlocked _ u => u.sink.head? = some .silent
  | .runUnended _ => False

/-- A silent read: from `s` on, `IN` does not come to an end. -/
def SilentRead (s : State) (e : Fault) : Prop := SilentCall e ∧ streamOf s.inp = none

/-- A silent write: from `s` on, the sink leaves a call without an answer. -/
def SilentWrite (s : State) (e : Fault) : Prop := SilentCall e ∧ .silent ∈ s.sink

/-- What blocks a write after the sink has moved forward was in its script before. -/
theorem SilentWrite.before (h : SilentWrite u e) (hsink : u.sink <:+ s.sink) : SilentWrite s e :=
  ⟨h.1, hsink.subset h.2⟩

theorem readByte_silent (h : readByte [] s = .stuck e) : SilentRead s e := by
  obtain ⟨⟨rest, hinp⟩, rfl⟩ := readByte_stuck h
  exact ⟨⟨by rw [hinp]; rfl, by decide⟩, by rw [hinp]; rfl⟩

theorem upGroupBody_silent (h : upGroupBody s = .stuck e) : SilentRead s e := by
  obtain ⟨l, rest, u, hlen, hinp, rfl, rfl⟩ := upGroupBody_stuck h
  exact ⟨⟨rfl, Nat.lt_succ_iff.mp hlen⟩, by rw [hinp]; exact streamOf_of_silent l rest⟩

theorem emitByte_silent {b : Byte} (h : emitByte b s = .stuck e) : SilentWrite s e := by
  obtain ⟨⟨rest, hsink⟩, rfl⟩ := emitByte_stuck h
  exact ⟨congrArg List.head? hsink, by simp [hsink]⟩

theorem emitStr_silent {str : Str} (h : emitStr str s = .stuck e) : SilentWrite s e := by
  induction str generalizing s with
  | nil => exact absurd h nofun
  | cons b str ih =>
    obtain hb | ⟨_, v, hb, hstr⟩ := bind_eq_stuck.mp h
    · exact emitByte_silent hb
    · exact (ih hstr).before ((emitByte_flow b s).of_ok hb).sink

theorem pkPushBody_silent {c : Code} (h : pkPushBody c s = .stuck e) : SilentWrite s e := by
  cases hp : s.pk.phase with
  | first => rw [pkPushBody_first c hp] at h; exact absurd h nofun
  | second =>
    rw [pkPushBody_second c hp] at h
    obtain hstr | ⟨_, v, -, hclear⟩ := bind_eq_stuck.mp h
    · exact (emitStr_silent hstr).before List.suffix_rfl
    · exact absurd hclear nofun

theorem pkFlushBody_silent (h : pkFlushBody s = .stuck e) : SilentWrite s e := by
  cases hp : s.pk.phase with
  | first => rw [pkFlushBody_first hp] at h; exact absurd h nofun
  | second =>
    rw [pkFlushBody_second hp] at h
    obtain hstr | ⟨_, v, -, hclear⟩ := bind_eq_stuck.mp h
    · exact emitStr_silent hstr
    · exact absurd hclear nofun

/-! ### The rules of the engines -/

theorem compressFirst_silent (h : compressFirst s = .stuck e) : SilentRead s e := by
  obtain hread | ⟨r, v, -, h⟩ := bind_eq_stuck.mp h
  · exact readByte_silent hread
  · cases r <;> exact absurd h nofun

@[simp] theorem resetCheckS_inp (s : State) : (resetCheckS s).inp = s.inp := by
  unfold resetCheckS
  split <;> rfl

theorem compressAccumulate_silent (h : compressAccumulate s = .stuck e) : SilentRead s e := by
  obtain hread | ⟨r, v, -, h⟩ := bind_eq_stuck.mp h
  · obtain ⟨hcall, hstream⟩ := readByte_silent hread
    exact ⟨hcall, by rwa [resetCheckS_inp] at hstream⟩
  · cases r with
    | none => exact absurd h nofun
    | some b =>
      dsimp only at h
      split at h <;> exact absurd h nofun

theorem emitPfx_silent (h : emitPfx s = .stuck e) : SilentWrite s e := by
  unfold emitPfx at h
  split at h
  · exact absurd h nofun
  · exact pkPushBody_silent h

theorem compressEmit_silent (h : compressEmit s = .stuck e) : SilentWrite s e := by
  obtain hpfx | ⟨_, v, -, h⟩ := bind_eq_stuck.mp h
  · exact emitPfx_silent hpfx
  · exact absurd h nofun

theorem compressDrain_silent (h : compressDrain s = .stuck e) : SilentWrite s e := by
  obtain hpfx | ⟨_, v, hpfx, h⟩ := bind_eq_stuck.mp h
  · exact emitPfx_silent hpfx
  · obtain hflush | ⟨_, w, -, h⟩ := bind_eq_stuck.mp h
    · exact (pkFlushBody_silent hflush).before ((emitPfx_flow s).of_ok hpfx).sink
    · exact absurd h nofun

theorem decompressUnpack_silent (h : decompressUnpack s = .stuck e) : SilentRead s e := by
  obtain hgroup | ⟨r, v, -, h⟩ := bind_eq_stuck.mp h
  · exact upGroupBody_silent hgroup
  · cases r <;> exact absurd h nofun

theorem decompressFirst_silent (h : decompressFirst s = .stuck e) : SilentWrite s e := by
  unfold decompressFirst at h
  split at h
  · exact absurd h nofun
  · rename_i c v hc
    dsimp only at h
    split at h
    · obtain hstr | ⟨_, w, -, h⟩ := bind_eq_stuck.mp h
      · exact (emitStr_silent hstr).before (flow_of_csTake hc).sink
      · exact absurd h nofun
    · exact absurd h nofun

theorem decompressCode_silent {ps : Str} {cur : Code} (h : decompressCode ps cur s = .stuck e) : SilentWrite s e := by
  rw [decompressCode_eq] at h
  obtain hstr | ⟨_, v, -, h⟩ := bind_eq_stuck.mp h
  · exact (emitStr_silent hstr).before (by simp)
  · exact absurd h nofun

theorem decompressLoop_silent (h : decompressLoop s = .stuck e) : SilentWrite s e := by
  obtain ⟨-, he⟩ | ⟨cur, v, hc, ⟨-, he⟩ | ⟨ps, -, he⟩⟩ := decompressLoop_eq s <;> rw [he] at h
  · exact absurd h nofun
  · exact absurd h nofun
  · exact (decompressCode_silent h).before ((resetCheckC_flow s).trans (flow_of_csTake hc)).sink

/-- The control states of a run that has still to meet the end of its input (R202, R232). -/
def inputStates : List Fsm := [.awaitingFirstByte, .accumulating, .emit, .unpacking]

/-- In the middle of a run, an environment that answers every call the run has still to make (R310). Once the input has ended
the run makes no further read, whatever answers stand behind the end. -/
structure Attended (s : State) : Prop where
  sink : .silent ∉ s.sink
  inp : s.fsm ∈ inputStates → streamOf s.inp ≠ none

theorem Attended.of_answering (h : answering s) : Attended s := ⟨fun hm => h.2 _ hm rfl, fun _ => h.1⟩

theorem SilentRead.unattended (h : SilentRead s e) (hf : s.fsm ∈ inputStates) : SilentCall e ∧ ¬ Attended s :=
  ⟨h.1, fun ha => ha.inp hf h.2⟩

theorem SilentWrite.unattended (h : SilentWrite s e) : SilentCall e ∧ ¬ Attended s := ⟨h.1, fun ha => ha.sink h.2⟩

/-- A rule stops only at a call that is never answered. -/
theorem engineStep_silent (h : engineStep s = .stuck e) : SilentCall e ∧ ¬ Attended s := by
  unfold engineStep at h
  cases hf : s.fsm <;> rw [hf] at h
  case awaitingFirstByte => exact (compressFirst_silent h).unattended (by simp [inputStates, hf])
  case accumulating => exact (compressAccumulate_silent h).unattended (by simp [inputStates, hf])
  case emit => exact (compressEmit_silent h).unattended
  case drain => exact (compressDrain_silent h).unattended
  case unpacking => exact (decompressUnpack_silent h).unattended (by simp [inputStates, hf])
  case dFirst => exact (decompressFirst_silent h).unattended
  case dLoop => exact (decompressLoop_silent h).unattended
  case idle | done | failed => exact absurd h nofun

/-! ### Progress of a run (R318) -/

/-- The codes of the sequence still to be fetched (R184). -/
def codesLeft (s : State) : Nat := s.cs.items.length - s.cs.cursor

/-- A bound on the rules a run has still to take: two for each answer of `IN` in the compressor; in the decompressor one for
each group, of three answers and two codes, and one for each code. -/
def rulesLeft (s : State) : Nat :=
  match s.fsm with
  | .awaitingFirstByte => 2 * s.inp.length + 1
  | .accumulating => 2 * s.inp.length + 2
  | .emit => 2 * s.inp.length + 3
  | .drain => 1
  | .unpacking => 2 * s.inp.length + s.cs.items.length + 2
  | .dFirst | .dLoop => codesLeft s + 1
  | .idle | .done | .failed => 0

theorem rulesLeft_lt_runBudget (s : State) : rulesLeft s < runBudget s := by
  have hcodes : codesLeft s ≤ s.cs.items.length := Nat.sub_le _ _
  unfold rulesLeft runBudget
  split <;> omega

/-- `AWAITING_FIRST_BYTE` ends the run or takes one byte (R203). -/
theorem compressFirst_progress (h : compressFirst s = .ok () t) :
    t.fsm = .done ∨ t.fsm = .accumulating ∧ ∃ b, s.inp = .byte b :: t.inp := by
  obtain ⟨b, rest, hinp, rfl⟩ | ⟨-, ht⟩ := compressFirst_ok h
  · exact .inr ⟨rfl, b, hinp⟩
  · exact .inl (by rw [ht])

/-- `ACCUMULATING` meets the end of the input or takes one byte (R204). -/
theorem compressAccumulate_progress (h : compressAccumulate s = .ok () t) :
    t.fsm = .drain ∨ (t.fsm = .accumulating ∨ t.fsm = .emit) ∧ ∃ b, s.inp = .byte b :: t.inp := by
  obtain ⟨-, ht⟩ | ⟨b, hinp, ⟨-, ht⟩ | ⟨-, ht⟩⟩ := compressAccumulate_ok h
  · exact .inl (by rw [ht])
  · exact .inr ⟨.inl (by rw [ht]), b, hinp⟩
  · exact .inr ⟨.inr (by rw [ht]), b, hinp⟩

/-- An emission makes no read (R206). -/
theorem compressEmit_inp (h : compressEmit s = .ok () t) : t.inp = s.inp := by
  obtain ⟨c, n, v, -, hpush, rfl⟩ := compressEmit_ok h
  have hv : v.inp = s.inp :=
    (pkPushBody_ends (P := fun u => u.inp = s.inp) (fun _ _ _ _ => id) (fun _ _ _ => id) c rfl).of_ok hpush
  simpa using hv

theorem codesLeft_of_csTake {c : Code} (h : csTake s = some (c, t)) : codesLeft t < codesLeft s := by
  obtain ⟨hlt, -, rfl⟩ := csTake_some h
  unfold codesLeft
  dsimp only
  omega

theorem codesLeft_of_emitStr {str : Str} {x : Unit} (h : emitStr str s = .ok x t) : codesLeft t = codesLeft s := by
  rw [emitStr_ok h]
  rfl

/-- `UNPACKING` takes a group, or meets the end of the input and stands before the first code (R233). -/
theorem decompressUnpack_progress (h : decompressUnpack s = .ok () t) :
    t.fsm = .dFirst ∧ codesLeft t = s.cs.items.length ∨
    t.fsm = .unpacking ∧ t.cs.items.length = s.cs.items.length + 2 ∧
      ∃ b0 b1 b2, s.inp = .byte b0 :: .byte b1 :: .byte b2 :: t.inp := by
  obtain ⟨v, hgroup, rfl⟩ | ⟨n, v, hgroup, rfl⟩ := decompressUnpack_ok h
  · obtain ⟨b0, b1, b2, hinp, -, hv⟩ | ⟨l, -, hr, -⟩ := upGroupBody_ok hgroup
    · exact .inr ⟨rfl, by rw [hv]; simp, b0, b1, b2, hinp⟩
    · exact absurd hr nofun
  · obtain ⟨b0, b1, b2, -, hr, -⟩ | ⟨l, -, -, -, hv⟩ := upGroupBody_ok hgroup
    · exact absurd hr nofun
    · exact .inl ⟨rfl, by rw [hv]; rfl⟩

/-- `D_FIRST` ends the run or takes one code (R237, R238). -/
theorem decompressFirst_progress (h : decompressFirst s = .ok () t) :
    t.fsm = .done ∨ t.fsm = .dLoop ∧ codesLeft t < codesLeft s := by
  obtain ⟨-, rfl⟩ | ⟨c, v, hc, ⟨str, x, w, -, hstr, rfl⟩ | ⟨-, rfl⟩⟩ := decompressFirst_ok h
  · exact .inl rfl
  · have htaken : codesLeft v < codesLeft s := codesLeft_of_csTake hc
    exact .inr ⟨rfl, (codesLeft_of_emitStr hstr).trans_lt htaken⟩
  · have htaken : codesLeft v < codesLeft s := codesLeft_of_csTake hc
    exact .inr ⟨rfl, htaken⟩

theorem decompressCode_codesLeft {ps : Str} {cur : Code} (h : decompressCode ps cur s = .ok () t) :
    codesLeft t = codesLeft s := by
  rw [decompressCode_eq] at h
  obtain ⟨_, v, hstr, h⟩ := bind_eq_ok.mp h
  obtain ⟨-, rfl⟩ := Res.ok.inj h
  exact (codesLeft_of_emitStr hstr).trans (by simp [codesLeft])

theorem codesLeft_resetCheckC (s : State) : codesLeft (resetCheckC s) = codesLeft s := by
  unfold resetCheckC
  split <;> rfl

/-- `D_LOOP` ends the run or takes one code (R240). -/
theorem decompressLoop_progress (h : decompressLoop s = .ok () t) :
    t.fsm = .done ∨ t.fsm = .dLoop ∧ codesLeft t < codesLeft s := by
  obtain ⟨-, he⟩ | ⟨cur, v, hc, hcase⟩ := decompressLoop_eq s
  · rw [he] at h
    obtain ⟨-, rfl⟩ := Res.ok.inj h
    exact .inl rfl
  · have htaken : codesLeft v < codesLeft s := (codesLeft_of_csTake hc).trans_eq (codesLeft_resetCheckC s)
    obtain ⟨-, he⟩ | ⟨ps, -, he⟩ := hcase <;> rw [he] at h
    · obtain ⟨-, rfl⟩ := Res.ok.inj h
      exact .inr ⟨rfl, htaken⟩
    · exact .inr ⟨decompressCode_fsm h, (decompressCode_codesLeft h).trans_lt htaken⟩

theorem rulesLeft_of_codes (ht : t.fsm = .done ∨ t.fsm = .dLoop ∧ codesLeft t < codesLeft s) :
    rulesLeft t < codesLeft s + 1 := by
  obtain ht | ⟨ht, hlt⟩ := ht
  · simp [rulesLeft, ht]
  · simpa [rulesLeft, ht] using hlt

/-- Every rule takes a run nearer to its end. -/
theorem rulesLeft_of_engineStep (hrest : s.fsm.isRest = false) (h : engineStep s = .ok () t) :
    rulesLeft t < rulesLeft s := by
  unfold engineStep at h
  cases hf : s.fsm <;> rw [hf] at h
  case awaitingFirstByte =>
    obtain ht | ⟨ht, b, hinp⟩ := compressFirst_progress h
    · simp [rulesLeft, hf, ht]
    · simp [rulesLeft, hf, ht, hinp]; omega
  case accumulating =>
    obtain ht | ⟨ht | ht, b, hinp⟩ := compressAccumulate_progress h
    · simp [rulesLeft, hf, ht]
    · simp [rulesLeft, hf, ht, hinp]
    · simp [rulesLeft, hf, ht, hinp]; omega
  case emit => simp [rulesLeft, hf, compressEmit_fsm h, compressEmit_inp h]
  case drain => simp [rulesLeft, hf, compressDrain_fsm h]
  case unpacking =>
    obtain ⟨ht, hcodes⟩ | ⟨ht, hitems, b0, b1, b2, hinp⟩ := decompressUnpack_progress h
    · simp [rulesLeft, hf, ht, hcodes]
    · simp [rulesLeft, hf, ht, hitems, hinp]; omega
  case dFirst => simpa [rulesLeft, hf] using rulesLeft_of_codes (decompressFirst_progress h)
  case dLoop => simpa [rulesLeft, hf] using rulesLeft_of_codes (decompressLoop_progress h)
  case idle | done | failed => exact absurd (hf ▸ hrest) (by decide)

/-- Every rule leaves an environment that answers all the calls still to be made. -/
theorem engineStep_keeps_attended (ha : Attended s) (hrest : s.fsm.isRest = false) (h : engineStep s = .ok () t) :
    Attended t := by
  refine ⟨fun hm => ha.sink (((engineStep_flow s).of_ok h).sink.subset hm), fun ht => ?_⟩
  have hstream := ha.inp
  unfold engineStep at h
  cases hf : s.fsm <;> rw [hf] at h hstream
  case awaitingFirstByte =>
    obtain hdone | ⟨-, b, hinp⟩ := compressFirst_progress h
    · simp [inputStates, hdone] at ht
    · simpa [inputStates, hinp, streamOf] using hstream
  case accumulating =>
    obtain hdrain | ⟨-, b, hinp⟩ := compressAccumulate_progress h
    · simp [inputStates, hdrain] at ht
    · simpa [inputStates, hinp, streamOf] using hstream
  case emit =>
    rw [compressEmit_inp h]
    exact hstream (by decide)
  case drain => simp [inputStates, compressDrain_fsm h] at ht
  case unpacking =>
    obtain ⟨hfirst, -⟩ | ⟨-, -, b0, b1, b2, hinp⟩ := decompressUnpack_progress h
    · simp [inputStates, hfirst] at ht
    · simpa [inputStates, hinp, streamOf] using hstream
  case dFirst => obtain hfsm | hfsm := decompressFirst_fsm h <;> simp [inputStates, hfsm] at ht
  case dLoop => obtain hfsm | hfsm := decompressLoop_fsm h <;> simp [inputStates, hfsm] at ht
  case idle | done | failed => exact absurd (hf ▸ hrest) (by decide)

/-! ### Runs -/

/-- With a budget beyond the rules still to be taken, a run stops only where one of its rules does, in a state with every
property that the rules keep. -/
theorem runEngine_stuck {P : State → Prop}
    (hstep : ∀ s t, P s → s.fsm.isRest = false → engineStep s = .ok () t → P t) {k : Nat} (hs : P s)
    (hk : rulesLeft s < k) (h : runEngine k s = .stuck e) : ∃ v, P v ∧ engineStep v = .stuck e := by
  induction k generalizing s with
  | zero => exact absurd hk (Nat.not_lt_zero _)
  | succ k ih =>
    cases hrest : s.fsm.isRest with
    | true => rw [runEngine_rest k hrest] at h; exact absurd h nofun
    | false =>
      rw [runEngine_step k hrest] at h
      obtain hrule | ⟨_, v, hv, hrun⟩ := bind_eq_stuck.mp h
      · exact ⟨s, hs, hrule⟩
      · exact ih (hstep s v hs hrest hv) ((rulesLeft_of_engineStep hrest hv).trans_le (Nat.le_of_lt_succ hk)) hrun

/-- A run from any control state stops only at a call that is never answered. -/
theorem runEngine_silent (h : runEngine (runBudget s) s = .stuck e) : SilentCall e ∧ ¬ Attended s := by
  obtain ⟨v, hv, he⟩ := runEngine_stuck (P := fun v => Attended s → Attended v)
    (fun _ _ hu hrest hstep ha => engineStep_keeps_attended (hu ha) hrest hstep) id (rulesLeft_lt_runBudget s) h
  obtain ⟨hcall, hna⟩ := engineStep_silent he
  exact ⟨hcall, fun ha => hna (hv ha)⟩

/-- Every group but the last takes three answers of `IN`, so that the loop of `UP.ALL` does not use up a budget greater than
the answers that are left (R171). -/
theorem upAllLoop_silent {k : Nat} (hk : s.inp.length < k) (h : upAllLoop k s = .stuck e) : SilentRead s e := by
  induction k generalizing s with
  | zero => exact absurd hk (Nat.not_lt_zero _)
  | succ k ih =>
    obtain hgroup | ⟨r, v, hgroup, h⟩ := bind_eq_stuck.mp h
    · exact upGroupBody_silent hgroup
    · obtain ⟨b0, b1, b2, hinp, rfl, -⟩ | ⟨l, -, rfl, -⟩ := upGroupBody_ok hgroup
      · obtain ⟨hcall, hstream⟩ := ih (by simp [hinp] at hk; omega) h
        exact ⟨hcall, by simpa [hinp, streamOf] using hstream⟩
      · exact absurd h nofun

/-! ### Commands and steps -/

/-- A result that is no refusal, and a fault only with `W`. -/
def StopsOnly (W : Fault → Prop) : Result → Prop
  | .next _ => True
  | .fault f => W f
  | .refused _ => False

theorem Res.answer_stopsOnly {r : Res α} {k : α → State → State} (h : ∀ f, r = .stuck f → W f) :
    StopsOnly W (r.answer k) := by
  cases r with
  | ok a u => trivial
  | raise c u => trivial
  | stuck f => exact h f rfl

theorem withS2C_stopsOnly {f : List (List (Str × Code)) → Result} (hf : ∀ b, StopsOnly W (f b)) :
    StopsOnly W (withS2C s f) := by
  obtain ⟨b, -, hw⟩ | ⟨-, hw⟩ := withS2C_cases s f <;> rw [hw]
  · exact hf b
  · trivial

theorem withC2S_stopsOnly {f : List (List (Code × Str)) → Result} (hf : ∀ b, StopsOnly W (f b)) :
    StopsOnly W (withC2S s f) := by
  obtain ⟨b, -, hw⟩ | ⟨-, hw⟩ := withC2S_cases s f <;> rw [hw]
  · exact hf b
  · trivial

/-- A silent call, and an environment in `s` that does not answer every call a command can make (R318). -/
def UnansweredCall (s : State) (f : Fault) : Prop := SilentCall f ∧ ¬ answering s

theorem SilentRead.unanswered (h : SilentRead s e) : UnansweredCall s e := ⟨h.1, fun ha => ha.1 h.2⟩

theorem SilentWrite.unanswered (h : SilentWrite s e) : UnansweredCall s e := ⟨h.1, fun ha => ha.2 _ h.2 rfl⟩

/-- A run of either engine, whatever its normal end responds. -/
theorem run_stopsOnly {k : Unit → State → State} (s : State) :
    StopsOnly (UnansweredCall s) ((runEngine (runBudget s) s).answer k) :=
  Res.answer_stopsOnly fun _ h =>
    let ⟨hcall, hna⟩ := runEngine_silent h
    ⟨hcall, fun ha => hna (.of_answering ha)⟩

/-- No command is refused, and a command stops only at a call that is never answered. -/
theorem exec_stopsOnly (i : Instr) (s : State) : StopsOnly (UnansweredCall s) (exec i s) := by
  cases i with
  | sysReset | sysStatus | sysRdnext | htInits | htInitc | csClear | csAppend | csReset | csHasnext => trivial
  | htNews n =>
    show StopsOnly _ (execHtNews n s)
    unfold execHtNews
    split <;> trivial
  | htNewc n =>
    show StopsOnly _ (execHtNewc n s)
    unfold execHtNewc
    split <;> trivial
  | htPuts key value => exact withS2C_stopsOnly fun _ => trivial
  | htPutc key value => exact withC2S_stopsOnly fun _ => trivial
  | htGets key => exact withS2C_stopsOnly fun _ => trivial
  | htGetc key => exact withC2S_stopsOnly fun _ => trivial
  | htHass key => exact withS2C_stopsOnly fun _ => trivial
  | htHasc key => exact withC2S_stopsOnly fun _ => trivial
  | htSize =>
    show StopsOnly _ (execHtSize s)
    unfold execHtSize
    split <;> trivial
  | pkPush code => exact Res.answer_stopsOnly fun _ h => (pkPushBody_silent h).unanswered
  | pkFlush => exact Res.answer_stopsOnly fun _ h => (pkFlushBody_silent h).unanswered
  | upGroup => exact Res.answer_stopsOnly fun _ h => (upGroupBody_silent h).unanswered
  | upAll => exact Res.answer_stopsOnly fun _ h => (upAllLoop_silent (Nat.lt_succ_self _) h).unanswered
  | csNext =>
    show StopsOnly _ (execCsNext s)
    unfold execCsNext
    split <;> trivial
  | lzwCompress => exact run_stopsOnly (startCompress s)
  | lzwDecompress => exact run_stopsOnly (startDecompress s)

/-- No step is refused, and a step stops only at a call that is never answered. -/
theorem step_stopsOnly (s : State) : StopsOnly (UnansweredCall s) (step s) := by
  cases hrest : s.fsm.isRest with
  | false =>
    obtain he | he := step_run_cases hrest <;> rw [he] <;> exact run_stopsOnly s
  | true =>
    obtain ⟨-, he⟩ | ⟨p, rest, -, ⟨x, -, he⟩ | ⟨i, -, he⟩⟩ := step_rest_cases hrest <;> rw [he]
    · trivial
    · trivial
    · exact exec_stopsOnly i { s with cmd := rest }

/-- Settles O14: where every call is answered, nothing is left for a command but its next state. -/
theorem everyCommandCompletes : Obligations.EveryCommandCompletes := by
  intro i s ha
  have hstop := exec_stopsOnly i s
  cases hx : exec i s with
  | next t => exact ⟨t, rfl⟩
  | fault f => rw [hx] at hstop; exact absurd ha hstop.2
  | refused x => rw [hx] at hstop; exact hstop.elim

/-- Settles O15: a fault of a step is a silent call, and a step has no refusal. -/
theorem stepsStopOnlyAtASilentCollaborator : Obligations.StepsStopOnlyAtASilentCollaborator := by
  intro s
  have hstop := step_stopsOnly s
  refine ⟨fun x hx => by rw [hx] at hstop; exact hstop, fun f hx => ?_⟩
  rw [hx] at hstop
  obtain ⟨hcall, -⟩ := hstop
  cases f with
  | readBlocked held u => exact .inl ⟨held, u, rfl, hcall⟩
  | writeBlocked b u => exact .inr ⟨b, u, rfl, hcall⟩
  | runUnended u => exact hcall.elim

end Sys2Proof.Machine
end

section
/-! SUPPORT. The table-reset check (O48). -/

namespace Sys2Proof.Machine

variable {s : State}

/-- `STATUS` shows of the table only that it is there and its kind; `NEXT` and the history it does not show (R42). -/
theorem status_of_table {d : Option Dict} {next : NextCode} {hist : List Event} (hvalid : d.isSome = s.diValid)
    (hkind : State.diKind { s with di := d } = s.diKind) :
    State.status { s with di := d, next := next, hist := hist } = s.status := by
  have hkind' : State.diKind { s with di := d, next := next, hist := hist } = s.diKind := hkind
  have hvalid' : State.diValid { s with di := d, next := next, hist := hist } = s.diValid := hvalid
  rw [State.status, hkind', hvalid']
  rfl

/-- Settles O48: the two cases of the check, as an equation for each engine. -/
theorem tableResetTouchesTheTableOnly : Obligations.TableResetTouchesTheTableOnly := by
  refine ⟨fun s hn => ⟨resetCheckS_full hn, resetCheckC_full hn, ?_, ?_⟩,
    fun s hn => ⟨resetCheckS_free hn, resetCheckC_free hn⟩⟩
  · rintro ⟨b, hb⟩
    rw [resetCheckS_full hn]
    exact status_of_table (by simp [State.diValid, hb]) (by simp [State.diKind, hb])
  · rintro ⟨b, hb⟩
    rw [resetCheckC_full hn]
    exact status_of_table (by simp [State.diValid, hb]) (by simp [State.diKind, hb])

end Sys2Proof.Machine
end
